-- ==== Sys2Proof/Word.lean ====
section
/-! DEFINITION. The one machine word of the codec block: the byte (00_scope.md R15). -/

namespace Sys2Proof

/-- A byte is 8 bits, byte values are 0 to 255 (00_scope.md R15). -/
abbrev Byte := BitVec 8

end Sys2Proof
end

