-- ==== Sys2Proof/Syntax.lean ====
section
/-! DEFINITION. The instructions: one constructor per row of spec/opcode_table.json. Level one are the four commands,
level two the tokens of the two encoded streams, which the decoders interpret one after another (00_scope.md R16). -/

namespace Sys2Proof

/-- The rows of spec/opcode_table.json. -/
inductive Instr where
  /-- `DCOMP`, command byte 0x00: dictionary compress (30_encoding.md R92, 42_dict_encoder.md R160). -/
  | dcomp
  /-- `DEXP`, command byte 0x01: dictionary expand (30_encoding.md R92, 43_dict_decoder.md R190). -/
  | dexp
  /-- `RCOMP`, command byte 0x02: run-length compress (30_encoding.md R92, 40_rle_encoder.md R120). -/
  | rcomp
  /-- `REXP`, command byte 0x03: run-length expand (30_encoding.md R92, 41_rle_decoder.md R140). -/
  | rexp
  /-- `RLE.ESC`, the escape marker, count 0 (30_encoding.md R95). -/
  | rleEsc
  /-- `RLE.RUN n`, count `n` with `1 <= n <= 255` (30_encoding.md R96). -/
  | rleRun (n : BitVec 8)
  /-- `DICT.HDR`, the 3-bit `rem` and the 8-bit `U` (30_encoding.md R99). -/
  | dictHdr (rem : BitVec 3) (u : BitVec 8)
  /-- `DICT.ENT`, one dictionary byte (30_encoding.md R101). -/
  | dictEnt (b : BitVec 8)
  /-- `DICT.CODE1`, a code at `cw = 1` (30_encoding.md R102). -/
  | dictCode1 (c : BitVec 1)
  /-- `DICT.CODE2`, a code at `cw = 2` (30_encoding.md R102). -/
  | dictCode2 (c : BitVec 2)
  /-- `DICT.CODE3`, a code at `cw = 3` (30_encoding.md R102). -/
  | dictCode3 (c : BitVec 3)
  /-- `DICT.CODE4`, a code at `cw = 4` (30_encoding.md R102). -/
  | dictCode4 (c : BitVec 4)
  /-- `DICT.CODE5`, a code at `cw = 5` (30_encoding.md R102). -/
  | dictCode5 (c : BitVec 5)
  /-- `DICT.CODE6`, a code at `cw = 6` (30_encoding.md R102). -/
  | dictCode6 (c : BitVec 6)
  /-- `DICT.CODE7`, a code at `cw = 7` (30_encoding.md R102). -/
  | dictCode7 (c : BitVec 7)
  /-- `DICT.CODE8`, a code at `cw = 8` (30_encoding.md R102). -/
  | dictCode8 (c : BitVec 8)
  /-- `DICT.PAD`, `pad` padding bits, 0 to 7 (30_encoding.md R103, 43_dict_decoder.md R205). -/
  | dictPad (pad : BitVec 3)
deriving DecidableEq, Repr

end Sys2Proof
end

