-- ==== Sys2Proof/WellFormed.lean ====
section
/-! DEFINITION. Which terms of `Instr` are instructions of the hardware. The operand widths are in the types; one
check is left. -/

namespace Sys2Proof

/-- A run has at least one bit: the all-zero count is `RLE.ESC`, never a run of length zero (30_encoding.md R96, R110;
41_rle_decoder.md R146). Every other term is an instruction: no field value of the other rows is reserved. -/
def Instr.wellFormed : Instr → Bool
  | .rleRun n => n != 0#8
  | .dcomp | .dexp | .rcomp | .rexp | .rleEsc | .dictHdr _ _ | .dictEnt _ | .dictCode1 _ | .dictCode2 _ | .dictCode3 _
  | .dictCode4 _ | .dictCode5 _ | .dictCode6 _ | .dictCode7 _ | .dictCode8 _ | .dictPad _ => true

end Sys2Proof
end

