-- ==== Sys2Proof/Decode.lean ====
section
/-! DEFINITION. Bit fields, the decoder and the encoder. A stream is a list of bits, the first transferred first; every
field is an unsigned integer sent most significant bit first (30_encoding.md R90). The same bits mean different things
in different places, so the decoder takes the place (`Ctx`) as an argument (log 11). -/

namespace Sys2Proof

/-- The `n` bits of `v`, most significant first: `v[n-1], ..., v[0]` (20_memory.md R69). -/
def bitsOf : Nat → Nat → List Bool
  | 0, _ => []
  | n + 1, v => v.testBit n :: bitsOf n v

/-- The unsigned value of a bit list, first bit most significant (20_memory.md R66). -/
def natOf : List Bool → Nat
  | [] => 0
  | b :: bs => b.toNat * 2 ^ bs.length + natOf bs

/-- The bits of one byte in stream order (20_memory.md R63). -/
def byteBits (b : Byte) : List Bool := bitsOf 8 b.toNat

/-- The bits of a byte sequence in stream order (20_memory.md R63). -/
def bytesBits (bs : List Byte) : List Bool := bs.flatMap byteBits

/-- The whole bytes of a bit sequence, the first bit of each the most significant (20_memory.md R71). -/
def packBytes (bits : List Bool) : List Byte :=
  (List.range (bits.length / 8)).map fun i => BitVec.ofNat 8 (natOf ((bits.drop (8 * i)).take 8))

/-- Where an instruction is read. -/
inductive Ctx where
  /-- The command byte offered with START (30_encoding.md R91). -/
  | command
  /-- A count of a run-length stream (30_encoding.md R94). -/
  | count
  /-- The header of a dictionary stream (30_encoding.md R99). -/
  | header
  /-- A dictionary entry (30_encoding.md R101). -/
  | entry
  /-- A code of width `cw` (30_encoding.md R102). -/
  | code (cw : Nat)
  /-- The `pad` padding bits that end a dictionary stream (30_encoding.md R103). -/
  | padding (pad : Nat)
deriving DecidableEq, Repr

/-- The value of the first `n` bits and the bits after them; `none` where fewer are left. -/
def takeField (n : Nat) (bits : List Bool) : Option (Nat × List Bool) :=
  if n ≤ bits.length then some (natOf (bits.take n), bits.drop n) else none

/-- The command byte: bit 0 `DIR`, bit 1 `SCHEME`, bits 7 to 2 `RSV`, which must be 0; every other byte selects no
operation (30_encoding.md R91, R92, R93). -/
def decodeCommand (c : Byte) : Option Instr :=
  if c.extractLsb' 2 6 = 0#6 then
    match c.getLsbD 1, c.getLsbD 0 with
    | false, false => some .dcomp
    | false, true => some .dexp
    | true, false => some .rcomp
    | true, true => some .rexp
  else none

/-- A count: 0 is the escape marker, every other value a run (30_encoding.md R95, R96, R97). -/
def decodeCount (v : Nat) : Instr :=
  if v = 0 then .rleEsc else .rleRun (BitVec.ofNat 8 v)

/-- A code of width `cw`, `1 <= cw <= 8` (30_encoding.md R100, R102). -/
def decodeCode (cw v : Nat) : Option Instr :=
  match cw with
  | 1 => some (.dictCode1 (BitVec.ofNat 1 v))
  | 2 => some (.dictCode2 (BitVec.ofNat 2 v))
  | 3 => some (.dictCode3 (BitVec.ofNat 3 v))
  | 4 => some (.dictCode4 (BitVec.ofNat 4 v))
  | 5 => some (.dictCode5 (BitVec.ofNat 5 v))
  | 6 => some (.dictCode6 (BitVec.ofNat 6 v))
  | 7 => some (.dictCode7 (BitVec.ofNat 7 v))
  | 8 => some (.dictCode8 (BitVec.ofNat 8 v))
  | _ => none

/-- The instruction at the head of `bits`, read in the place `ctx`, and the bits after it. Total: `none` where the bits
are too few, the command byte is reserved, or the width is none of the table's. Padding bits are counted, never looked
at (43_dict_decoder.md R205). -/
def decode (ctx : Ctx) (bits : List Bool) : Option (Instr × List Bool) :=
  match ctx with
  | .command => (takeField 8 bits).bind fun f => (decodeCommand (BitVec.ofNat 8 f.1)).map fun i => (i, f.2)
  | .count => (takeField 8 bits).map fun f => (decodeCount f.1, f.2)
  | .header =>
    (takeField 3 bits).bind fun r => (takeField 8 r.2).map fun u =>
      (.dictHdr (BitVec.ofNat 3 r.1) (BitVec.ofNat 8 u.1), u.2)
  | .entry => (takeField 8 bits).map fun f => (.dictEnt (BitVec.ofNat 8 f.1), f.2)
  | .code cw => (takeField cw bits).bind fun f => (decodeCode cw f.1).map fun i => (i, f.2)
  | .padding pad =>
    if pad < 8 ∧ pad ≤ bits.length then some (.dictPad (BitVec.ofNat 3 pad), bits.drop pad) else none

/-- The place an instruction is read in. -/
def Instr.ctx : Instr → Ctx
  | .dcomp | .dexp | .rcomp | .rexp => .command
  | .rleEsc | .rleRun _ => .count
  | .dictHdr _ _ => .header
  | .dictEnt _ => .entry
  | .dictCode1 _ => .code 1
  | .dictCode2 _ => .code 2
  | .dictCode3 _ => .code 3
  | .dictCode4 _ => .code 4
  | .dictCode5 _ => .code 5
  | .dictCode6 _ => .code 6
  | .dictCode7 _ => .code 7
  | .dictCode8 _ => .code 8
  | .dictPad pad => .padding pad.toNat

/-- How many bits an instruction read in a place has (30_encoding.md R90). -/
def Ctx.width : Ctx → Nat
  | .command => 8
  | .count => 8
  | .header => 11
  | .entry => 8
  | .code cw => cw
  | .padding pad => pad

/-- The bits of an instruction in stream order (30_encoding.md R91, R95, R96, R99, R101, R102, R103). -/
def encode : Instr → List Bool
  | .dcomp => bitsOf 8 0x00
  | .dexp => bitsOf 8 0x01
  | .rcomp => bitsOf 8 0x02
  | .rexp => bitsOf 8 0x03
  | .rleEsc => bitsOf 8 0
  | .rleRun n => bitsOf 8 n.toNat
  | .dictHdr r u => bitsOf 3 r.toNat ++ bitsOf 8 u.toNat
  | .dictEnt b => bitsOf 8 b.toNat
  | .dictCode1 c => bitsOf 1 c.toNat
  | .dictCode2 c => bitsOf 2 c.toNat
  | .dictCode3 c => bitsOf 3 c.toNat
  | .dictCode4 c => bitsOf 4 c.toNat
  | .dictCode5 c => bitsOf 5 c.toNat
  | .dictCode6 c => bitsOf 6 c.toNat
  | .dictCode7 c => bitsOf 7 c.toNat
  | .dictCode8 c => bitsOf 8 c.toNat
  | .dictPad pad => List.replicate pad.toNat false

/-- The bytes of a table word: the first byte of the stream is bits 7 to 0 of the number, the second bits 15 to 8 (as many
as `nbits` needs). DESIGN CHOICE, log 11: the spec gives `DICT.HDR` a pattern in stream order and no number (30_encoding.md
R90, R99), so a header longer than one byte is numbered byte by byte, and `0x6860` is the stream `60 68`. -/
def wordBytes (nbits w : Nat) : List Byte :=
  (List.range ((nbits + 7) / 8)).map fun i => BitVec.ofNat 8 (w / 2 ^ (8 * i))

/-- The place a table word is read in: a word of up to one byte that is a command is the command of a START, the only
instruction a machine just reset can be given; any other word of up to one byte is a count; a longer word is a dictionary
header (log 11). -/
def tableCtx (nbits w : Nat) : Ctx :=
  if nbits ≤ 8 then (if (decodeCommand (BitVec.ofNat 8 w)).isSome then .command else .count) else .header

/-- The instruction the decoder reads from a table word, in the place `State.withFetchWord` puts it (log 11). -/
def decodeTableWord (nbits w : Nat) : Option Instr :=
  (decode (tableCtx nbits w) (bytesBits (wordBytes (max 8 nbits) w))).map (·.1)

end Sys2Proof
end

