-- ==== Sys2Proof/Config.lean ====
section
/-! DEFINITION. What an implementation fixes: the constants `LENGTH` and `MAX`, the two capacity parameters, and the
free values that stand for what the spec leaves unspecified after an error. -/

namespace Sys2Proof.Config

/-- Width of a count field (00_scope.md R12; 92_eei_decisions.md D5: only 8 is this hardware). -/
def LENGTH : Nat := 8

/-- `MAX = 2^(LENGTH-1) - 1`, that is 127 (00_scope.md R12). -/
def MAX : Nat := 2 ^ (LENGTH - 1) - 1

/-- The two capacities, in bytes, each a natural number or unbounded (`none`) (00_scope.md R14). -/
structure Caps where
  /-- `MSG_CAP`, the capacity of the dictionary encoder's message buffer. -/
  msgCap : Option Nat
  /-- `IN_CAP`, the capacity of the dictionary decoder's input buffer. -/
  inCap : Option Nat
deriving DecidableEq, Repr

/-- `MSG_CAP` of this implementation: the spec leaves it open (92_eei_decisions.md D11), log 9. -/
opaque msgCap : Option Nat

/-- `IN_CAP` of this implementation: the spec leaves it open (92_eei_decisions.md D11), log 9. -/
opaque inCap : Option Nat

/-- The capacities of this implementation. -/
def caps : Caps := { msgCap := msgCap, inCap := inCap }

/-- Unspecified `w`-bit register after an error (60_exceptions.md R252), log 6. `slot` tells the registers of one
draw apart, `k` is how many draws came before. -/
opaque freeReg (w slot k : Nat) : BitVec w

/-- Unspecified 1-bit flag after an error (60_exceptions.md R252), log 6. -/
opaque freeBit (slot k : Nat) : Bool

/-- Unspecified natural-number register after an error (60_exceptions.md R252), log 6. -/
opaque freeNat (slot k : Nat) : Nat

/-- Unspecified integer register after an error (60_exceptions.md R252), log 6. -/
opaque freeInt (slot k : Nat) : Int

/-- Unspecified contents of a table or buffer after an error (60_exceptions.md R252), log 6. -/
opaque freeCells (w slot k : Nat) : List (Nat × BitVec w)

/-- Unspecified output bytes, content and number, after an error (60_exceptions.md R252), log 6. -/
opaque freeOut (k : Nat) : List Byte

end Sys2Proof.Config
end

