-- ==== Sys2Proof/Machine/State.lean ====
section
/-! DEFINITION. The state of the block as plain data (10_state.md R20 to R50), the reasons a step can stop, and the
state after reset. -/

namespace Sys2Proof.Machine

/-- `STATUS`, with the number the host reads in each constructor's docstring (10_state.md R22). -/
inductive Status where
  /-- 0: no operation since reset. -/
  | idle
  /-- 1: an engine is running. -/
  | busy
  /-- 2: the last operation completed and the output is valid. -/
  | done
  /-- 3: the last operation aborted. -/
  | error
deriving DecidableEq, Repr

/-- `ERR`, the five values that are ever written (10_state.md R24, 60_exceptions.md R241, 93 U11). -/
inductive ErrCode where
  /-- 0: no error. -/
  | none
  /-- 1: `UsageError` (60_exceptions.md R242). -/
  | usage
  /-- 2: `MalformedStreamError` (60_exceptions.md R243). -/
  | malformed
  /-- 3: `FormatInvariantViolation` (60_exceptions.md R244). -/
  | format
  /-- 4: `CapacityExceeded` (60_exceptions.md R245). -/
  | capacity
deriving DecidableEq, Repr

/-- `PHASE`, symbolic (10_state.md R23). -/
inductive Phase where
  /-- No engine is running. -/
  | halt
  /-- `R_SCAN` (40_rle_encoder.md R120). -/
  | rScan
  /-- `R_FLUSH` (40_rle_encoder.md R120). -/
  | rFlush
  /-- `X_READ` (41_rle_decoder.md R140). -/
  | xRead
  /-- `D_LOAD` (42_dict_encoder.md R160). -/
  | dLoad
  /-- `D_CALC` (42_dict_encoder.md R160). -/
  | dCalc
  /-- `D_HDR` (42_dict_encoder.md R160). -/
  | dHdr
  /-- `D_DICT` (42_dict_encoder.md R160). -/
  | dDict
  /-- `D_CODE` (42_dict_encoder.md R160). -/
  | dCode
  /-- `D_CLOSE` (42_dict_encoder.md R160). -/
  | dClose
  /-- `E_LOAD` (43_dict_decoder.md R190). -/
  | eLoad
  /-- `E_HDR` (43_dict_decoder.md R190). -/
  | eHdr
  /-- `E_DICT` (43_dict_decoder.md R190). -/
  | eDict
  /-- `E_CALC` (43_dict_decoder.md R190). -/
  | eCalc
  /-- `E_CODE` (43_dict_decoder.md R190). -/
  | eCode
  /-- `E_EMIT` (43_dict_decoder.md R190). -/
  | eEmit
deriving DecidableEq, Repr

/-- The registers the host can read (44_control.md R220). -/
inductive HostReg where
  | status
  | err
  | cmd
deriving DecidableEq, Repr

/-- One turn of the host (44_control.md R220). -/
inductive HostTurn where
  /-- `RESET` (44_control.md R229). -/
  | reset
  /-- `START(c)` (44_control.md R221). -/
  | start (c : Byte)
  /-- The next input byte (44_control.md R220). -/
  | supply (b : Byte)
  /-- The end-of-input mark (44_control.md R220, 70_reset_and_hazards.md R280). -/
  | endInput
  /-- A read of `STATUS`, `ERR` or `CMD` (44_control.md R233). -/
  | read (r : HostReg)
  /-- The host does nothing and the block takes its step. -/
  | idle
deriving DecidableEq, Repr

/-- A table or buffer of `w`-bit entries: the (index, value) pairs that differ from what an unlisted entry reads as,
which is 0 (log 5). At `w = 8` this is a list of `Host.Cell`. -/
abbrev Table (w : Nat) := List (Nat × BitVec w)

/-- A buffer or table of bytes. -/
abbrev Memory := Table 8

/-- Everything the spec gives the machine (10_state.md R20), and the two fields of the model's own, last. -/
structure State where
  /-- `CMD` (10_state.md R21). -/
  cmd : Byte
  /-- `STATUS` (10_state.md R22). -/
  status : Status
  /-- `ERR` (10_state.md R24). -/
  err : ErrCode
  /-- `PHASE` (10_state.md R23). -/
  phase : Phase
  /-- `IN`, as far as the host has supplied it (10_state.md R25). -/
  inBytes : List Byte
  /-- Whether the host has marked the end of the input (44_control.md R220). -/
  inEnd : Bool
  /-- `ipos`, the input read position in bits (10_state.md R26). -/
  ipos : Nat
  /-- `obits`, the output stream (10_state.md R27). -/
  obits : List Bool
  /-- `closed` (10_state.md R28). -/
  closed : Bool
  /-- `lastValue` (10_state.md R30). -/
  lastValue : Bool
  /-- `valueCount` (10_state.md R31). -/
  valueCount : BitVec 7
  /-- `count` (10_state.md R32). -/
  count : BitVec 8
  /-- `seen[0..255]` (10_state.md R33). -/
  seen : Table 1
  /-- `dict[0..255]` (10_state.md R34). -/
  dict : Memory
  /-- `idx[0..255]` (10_state.md R35). -/
  idx : Memory
  /-- `unique` (10_state.md R36). -/
  unique : BitVec 9
  /-- `length` (10_state.md R37). -/
  length : Nat
  /-- `msg` (10_state.md R38). -/
  msg : Memory
  /-- `cw` (10_state.md R39). -/
  cw : BitVec 4
  /-- `rem` (10_state.md R40). -/
  rem : BitVec 3
  /-- `j` (10_state.md R41). -/
  j : Nat
  /-- `ibuf` (10_state.md R42). -/
  ibuf : Memory
  /-- `B` (10_state.md R43). -/
  B : Nat
  /-- `U` (10_state.md R44). -/
  U : BitVec 8
  /-- `pad` (10_state.md R45). -/
  pad : BitVec 3
  /-- `valid` (10_state.md R46). -/
  valid : Int
  /-- `payload` (10_state.md R46). -/
  payload : Int
  /-- `n` (10_state.md R46). -/
  n : Nat
  /-- `code` (10_state.md R47). -/
  code : BitVec 8
  /-- The MODEL's own: the host's coming turns, the next first; empty means the host does nothing more (log 2). -/
  host : List HostTurn
  /-- The MODEL's own: how many times unspecified values have been drawn (log 6). -/
  free : Nat
deriving DecidableEq, Repr

/-- Why a step stops with a fault. -/
inductive Fault where
  /-- Raised by the dictionary table's accesses at an index outside `0..255`, an entry the spec says does not exist
  (10_state.md R34, 20_memory.md R78). Safe: the engines never do it, and a run that would stops here. -/
  | noSuchEntry
  /-- Raised by a decoder's token fetch outside the loaded bytes or at a width outside 1 to 8, against the precondition
  of `BufBits` (43_dict_decoder.md R193). Safe: every call the engines make is guarded. -/
  | noSuchBits
deriving DecidableEq, Repr

/-- Why a step is refused. -/
inductive Refusal where
  /-- Raised by `exec`'s arm of an instruction that has no meaning yet; none is left. Safe. -/
  | notModelled (mnemonic : String)
  /-- Raised by `OutBits(n, v)` with `v >= 2^n`, which 93 U21 says to refuse (20_memory.md R69). Safe. -/
  | valueTooWide
  /-- Raised by `OutBits(n, v)` with `n` outside 1 to 32 (20_memory.md R69). Safe. -/
  | fieldWidth
  /-- Raised by a write to an output that is closed (20_memory.md R68, R69). Safe. -/
  | outputClosed
  /-- Raised by `RLE.RUN` with a count of 0, a term that is no instruction (30_encoding.md R96). Safe. -/
  | runOfZero
deriving DecidableEq, Repr

/-- The machine right after `RESET` (10_state.md R49, 70_reset_and_hazards.md R271). The registers whose reset value the
spec leaves unspecified (`count`, `dict`, `idx`, `msg`, `cw`, `rem`, `j`, `ibuf`, `U`, `pad`, `valid`, `payload`, `n`,
`code`) hold 0: DESIGN CHOICE, log 5. -/
def State.reset : State where
  cmd := 0x00#8
  status := .idle
  err := .none
  phase := .halt
  inBytes := []
  inEnd := false
  ipos := 0
  obits := []
  closed := false
  lastValue := false
  valueCount := 0#7
  count := 0#8
  seen := []
  dict := []
  idx := []
  unique := 0#9
  length := 0
  msg := []
  cw := 0#4
  rem := 0#3
  j := 0
  ibuf := []
  B := 0
  U := 0#8
  pad := 0#3
  valid := 0
  payload := 0
  n := 0
  code := 0#8
  host := []
  free := 0

end Sys2Proof.Machine
end

