-- ==== Sys2Proof/Machine/Flags.lean ====
section
/-! DEFINITION. The block's only condition flag, `lastValue` (10_state.md R30). -/

namespace Sys2Proof.Machine

/-- The toggle: `lastValue <- !lastValue` (10_state.md R30, 40_rle_encoder.md R123, 41_rle_decoder.md R144). -/
def State.flip (s : State) : State := { s with lastValue := !s.lastValue }

/-- `lastValue <- 0`, as START of either run-length engine does (10_state.md R30). -/
def State.clearLastValue (s : State) : State := { s with lastValue := false }

end Sys2Proof.Machine
end

