-- ==== Sys2Proof/Machine/Operands.lean ====
section
/-! DEFINITION. The values the dictionary format computes: code width, remainder, padding, the stored form of
`unique`, and the bit positions of the fields. -/

namespace Sys2Proof.Machine

/-- `clog2(u)`: the least `w >= 0` with `2^w >= u`, so `clog2(0) = 0` (30_encoding.md R100). -/
def clog2 (u : Nat) : Nat := (List.range (u + 1)).findIdx fun w => decide (u ≤ 2 ^ w)

/-- The code width, `max(1, clog2(unique))` (30_encoding.md R100). -/
def codeWidth (unique : Nat) : Nat := max 1 (clog2 unique)

/-- The remainder, `(3 + cw*length) mod 8` (30_encoding.md R103, 42_dict_encoder.md R167). -/
def remainder (cw length : Nat) : Nat := (3 + cw * length) % 8

/-- The number of padding bits, `(8 - rem) mod 8` (30_encoding.md R103, 43_dict_decoder.md R198). -/
def padOf (rem : Nat) : Nat := (8 - rem) % 8

/-- The stored form of `unique`, `unique mod 256` (30_encoding.md R104). -/
def storedUnique (unique : Nat) : Nat := unique % 256

/-- `unique` from its stored form and the stream length in bytes (43_dict_decoder.md R196). -/
def resolveUnique (U : BitVec 8) (B : Nat) : BitVec 9 :=
  if U ≠ 0#8 then U.setWidth 9 else if B = 2 then 0#9 else 256#9

/-- The bit position of dictionary entry `i` (30_encoding.md R98). -/
def entryAddr (i : Nat) : Nat := 11 + 8 * i

/-- The bit position of code `k` (30_encoding.md R98). -/
def codeAddr (unique cw k : Nat) : Nat := 11 + 8 * unique + cw * k

end Sys2Proof.Machine
end

