-- ==== Sys2Proof/Machine/Ops.lean ====
section
/-! DEFINITION. The named operations over tables, streams and registers, the abort sequence, START, RESET and normal
completion. The engines and the instructions are written over these. -/

namespace Sys2Proof.Machine

/-- The answer of a step. -/
abbrev Res := Host.Outcome State Fault Refusal

/-- `o`, and then `f` where `o` answers a next state. -/
def andThen (o : Res) (f : State → Res) : Res :=
  match o with
  | .next s => f s
  | .fault r => .fault r
  | .refused r => .refused r

/-! ## Named updates

Every write of the machine to its state is one of these (or `flip`, `clearLastValue` of Flags.lean), so that
Laws/State.lean can say once, field by field, what each leaves. -/

/-- `PHASE <- p` (10_state.md R23). -/
def State.setPhase (p : Phase) (s : State) : State := { s with phase := p }

/-- `STATUS <- v` (10_state.md R22). -/
def State.setStatus (v : Status) (s : State) : State := { s with status := v }

/-- `ERR <- e` (10_state.md R24). -/
def State.setErr (e : ErrCode) (s : State) : State := { s with err := e }

/-- `ipos <- ipos + n` (10_state.md R26). -/
def State.advance (n : Nat) (s : State) : State := { s with ipos := s.ipos + n }

/-- `obits <- obits ++ bs` (20_memory.md R68). -/
def State.emit (bs : List Bool) (s : State) : State := { s with obits := s.obits ++ bs }

/-- `valueCount <- v` (10_state.md R31). -/
def State.setValueCount (v : BitVec 7) (s : State) : State := { s with valueCount := v }

/-- `count <- v` (10_state.md R32). -/
def State.setCount (v : BitVec 8) (s : State) : State := { s with count := v }

/-- `j <- k` (10_state.md R41). -/
def State.setJ (k : Nat) (s : State) : State := { s with j := k }

/-- `code <- c` (10_state.md R47). -/
def State.setCode (c : BitVec 8) (s : State) : State := { s with code := c }

/-- `n <- k` (10_state.md R46). -/
def State.setN (k : Nat) (s : State) : State := { s with n := k }

/-- The next input byte is attached (10_state.md R25). -/
def State.addInput (b : Byte) (s : State) : State := { s with inBytes := s.inBytes ++ [b] }

/-- The end of the input is marked (44_control.md R220). -/
def State.endInput (s : State) : State := { s with inEnd := true }

/-- The host's turns still to come (log 2). -/
def State.setHost (h : List HostTurn) (s : State) : State := { s with host := h }

/-! ## Tables and buffers (20_memory.md R77, R78) -/

/-- Entry `i`; an unlisted entry reads as 0. -/
def Table.read {w : Nat} : Table w → Nat → BitVec w
  | [], _ => 0#w
  | (a, v) :: t, i => if i = a then v else Table.read t i

/-- Entry `i` becomes `v`, in canonical form: writing what an unlisted entry reads as leaves the entry unlisted. -/
def Table.write {w : Nat} : Table w → Nat → BitVec w → Table w
  | [], i, v => if v = 0#w then [] else [(i, v)]
  | (a, x) :: t, i, v =>
    if i < a then (if v = 0#w then (a, x) :: t else (i, v) :: (a, x) :: t)
    else if i = a then (if v = 0#w then t else (i, v) :: t)
    else (a, x) :: Table.write t i v

/-- The canonical form: indices strictly rising, no entry equal to what an unlisted one reads as. -/
abbrev Table.wf {w : Nat} (t : Table w) : Prop :=
  t.Pairwise (fun x y => x.1 < y.1) ∧ ∀ c ∈ t, c.2 ≠ 0#w

/-- `Table.wf` for the byte tables and buffers. -/
abbrev Memory.wf (m : Memory) : Prop := Table.wf m

/-- A table with the entries of `cells` whose index is allowed, in canonical form. -/
def Table.ofCells {w : Nat} (allowed : Nat → Bool) (cells : List (Nat × BitVec w)) : Table w :=
  cells.foldl (fun t c => if allowed c.1 then Table.write t c.1 c.2 else t) []

/-- The tables indexed by a byte value or a code have entries 0 to 255 (10_state.md R33 to R35); another index does
not exist. -/
def withEntry (i : Nat) (r : Res) : Res := if i < 256 then r else .fault .noSuchEntry

/-- Whether a buffer that holds `k` bytes is at its capacity (00_scope.md R14). -/
def atCap (cap : Option Nat) (k : Nat) : Bool :=
  match cap with
  | none => false
  | some c => decide (c ≤ k)

/-! ## The input stream (20_memory.md R62 to R67) -/

/-- Input bit `k`: bit `7 - (k mod 8)` of byte `k div 8` (20_memory.md R63). -/
def State.inBit (s : State) (k : Nat) : Bool := (s.inBytes.getD (k / 8) 0#8).getLsbD (7 - k % 8)

/-- `InEmpty()`: the end of the input is marked and `ipos = 8*B_in` (20_memory.md R64). -/
def State.inEmpty (s : State) : Bool := s.inEnd && s.ipos == 8 * s.inBytes.length

/-- `InBits(n)`: the next `n` bits and the state past them, where the host has supplied that many
(20_memory.md R66). -/
def inBits (n : Nat) (s : State) : Option (List Bool × State) :=
  if s.ipos + n ≤ 8 * s.inBytes.length then
    some ((List.range n).map (fun i => s.inBit (s.ipos + i)), s.advance n)
  else none

/-! ## The dictionary decoder's input buffer (43_dict_decoder.md R193) -/

/-- Bit `k` of `ibuf`: bit `7 - (k mod 8)` of byte `k div 8` (43_dict_decoder.md R193). -/
def State.bufBit (s : State) (k : Nat) : Bool := (Table.read s.ibuf (k / 8)).getLsbD (7 - k % 8)

/-- `BufBits(addr, n)` as bits, first bit first. No bits where the range leaves the loaded bytes, so that the decoder
reads no instruction there (43_dict_decoder.md R193, 20_memory.md R77). -/
def bufBits (addr n : Nat) (s : State) : List Bool :=
  if addr + n ≤ 8 * s.B then (List.range n).map (fun i => s.bufBit (addr + i)) else []

/-! ## The output stream (20_memory.md R68 to R71) -/

/-- `opos = |obits|` (10_state.md R27). -/
def State.opos (s : State) : Nat := s.obits.length

/-- Append bits to an output that is open (20_memory.md R68). -/
def outAppend (bs : List Bool) (s : State) : Res :=
  if s.closed then .refused .outputClosed else .next (s.emit bs)

/-- `OutBits(n, v)`, for `1 <= n <= 32` and `v < 2^n` (20_memory.md R69, 93 U21). -/
def outBits (n v : Nat) (s : State) : Res :=
  if n = 0 ∨ 32 < n then .refused .fieldWidth
  else if v < 2 ^ n then outAppend (bitsOf n v) s
  else .refused .valueTooWide

/-- `OutBit(b)`, `k` times (20_memory.md R68, 41_rle_decoder.md R144). -/
def outRep (b : Bool) (k : Nat) (s : State) : Res := outAppend (List.replicate k b) s

/-- `OutClose()`: zero bits up to a whole byte, then closed (20_memory.md R70). -/
def outClose (s : State) : State :=
  { s with obits := s.obits ++ List.replicate ((8 - s.opos % 8) % 8) false, closed := true }

/-- The whole bytes of the output: all of `out_bytes` once the output is closed (20_memory.md R71), before that the
most the host may have received (20_memory.md R80). -/
def State.outBytes (s : State) : List Byte := packBytes s.obits

/-! ## Ending a run -/

/-- Normal completion: `OutClose()`, `PHASE <- HALT`, `STATUS <- DONE` (44_control.md R225). -/
def complete (s : State) : Res := .next (((outClose s).setPhase .halt).setStatus .done)

/-- The working registers and tables take unspecified values: a fresh draw of free values (60_exceptions.md R252,
92_eei_decisions.md D16), log 6. -/
def State.forget (s : State) : State :=
  { s with
    lastValue := Config.freeBit 0 s.free
    valueCount := Config.freeReg 7 1 s.free
    count := Config.freeReg 8 2 s.free
    seen := Table.ofCells (fun i => decide (i < 256)) (Config.freeCells 1 3 s.free)
    dict := Table.ofCells (fun i => decide (i < 256)) (Config.freeCells 8 4 s.free)
    idx := Table.ofCells (fun i => decide (i < 256)) (Config.freeCells 8 5 s.free)
    unique := Config.freeReg 9 6 s.free
    length := Config.freeNat 7 s.free
    msg := Table.ofCells (fun _ => true) (Config.freeCells 8 8 s.free)
    cw := Config.freeReg 4 9 s.free
    rem := Config.freeReg 3 10 s.free
    j := Config.freeNat 11 s.free
    ibuf := Table.ofCells (fun _ => true) (Config.freeCells 8 12 s.free)
    B := Config.freeNat 13 s.free
    U := Config.freeReg 8 14 s.free
    pad := Config.freeReg 3 15 s.free
    valid := Config.freeInt 16 s.free
    payload := Config.freeInt 17 s.free
    n := Config.freeNat 18 s.free
    code := Config.freeReg 8 19 s.free
    free := s.free + 1 }

/-- What an error leaves: the engine takes no further step, the streams are closed and the rest of the input discarded,
`ERR` holds the code, `PHASE` is `HALT`, `STATUS` is `ERROR` (60_exceptions.md R250); the output is some whole bytes
and the working registers are unspecified (60_exceptions.md R252), log 6, 7. -/
def State.abort (e : ErrCode) (s : State) : State :=
  State.forget
    { s with
      inBytes := s.inBytes.take ((s.ipos + 7) / 8)
      obits := bytesBits (Config.freeOut s.free)
      closed := true
      err := e
      phase := .halt
      status := .error }

/-- `raise X`: taking an error is the abort sequence, and its answer is a next state (60_exceptions.md R250). -/
def raise (e : ErrCode) (s : State) : Res := .next (s.abort e)

/-- `InBits` finds too few bits: `MalformedStreamError` where the end is marked (20_memory.md R65, R66), else the engine
has no step to take and waits (44_control.md R224, log 4). -/
def onShort (s : State) : Res := if s.inEnd then raise .malformed s else .next s

/-! ## The host's operations (44_control.md R220) -/

/-- What an accepted START does before dispatch: `CMD <- c`, `ERR <- 0`, a new input stream, an empty output
(44_control.md R221). -/
def State.accept (c : Byte) (s : State) : State :=
  { s with cmd := c, err := .none, ipos := 0, inBytes := [], inEnd := false, obits := [], closed := false }

/-- `START(c)` with a command that selects an engine: ignored while BUSY (44_control.md R227), else accepted,
`STATUS <- BUSY`, and the engine's own initialisation `init` (44_control.md R221, R222). -/
def startEngine (c : Byte) (init : State → State) (s : State) : Res :=
  if s.status = .busy then .next s else .next (init ((s.accept c).setStatus .busy))

/-- `START(c)` with a reserved command: ignored while BUSY (44_control.md R227), else `UsageError`: no engine starts, no
bit is moved, the empty output is closed (44_control.md R223); the working registers are unspecified
(60_exceptions.md R252), log 8. -/
def usageError (c : Byte) (s : State) : Res :=
  if s.status = .busy then .next s
  else .next ((((outClose (s.accept c)).forget.setErr .usage).setPhase .halt).setStatus .error)

/-- `RESET`, accepted in every state: every piece of the block's state takes its reset value (44_control.md R229). The
model's own two fields are not the block's (log 2, 6). -/
def resetBlock (s : State) : State := { State.reset with host := s.host, free := s.free }

/-- The next input byte: taken while a run's input is still open, else nothing takes it (20_memory.md R81, log 3). -/
def supply (b : Byte) (s : State) : State :=
  if s.status = .busy ∧ s.inEnd = false then s.addInput b else s

/-- The end-of-input mark: taken while a run is on (44_control.md R220, log 3). -/
def markEnd (s : State) : State := if s.status = .busy then s.endInput else s

/-- The number the host reads for `STATUS` (10_state.md R22). -/
def Status.code : Status → BitVec 2
  | .idle => 0#2
  | .busy => 1#2
  | .done => 2#2
  | .error => 3#2

/-- The number the host reads for `ERR` (60_exceptions.md R241). -/
def ErrCode.code : ErrCode → BitVec 3
  | .none => 0#3
  | .usage => 1#3
  | .malformed => 2#3
  | .format => 3#3
  | .capacity => 4#3

/-- What a host's read of a register gives (44_control.md R220, R233). -/
def hostRead (r : HostReg) (s : State) : Byte :=
  match r with
  | .status => s.status.code.setWidth 8
  | .err => s.err.code.setWidth 8
  | .cmd => s.cmd

/-- The result of a run, (`STATUS`, `ERR`, `out_bytes`), once it has ended; `out_bytes` only where it is meaningful
(44_control.md R230, 60_exceptions.md R252). -/
def State.result (s : State) : Option (Status × ErrCode × Option (List Byte)) :=
  match s.status with
  | .done => some (.done, s.err, some s.outBytes)
  | .error => some (.error, s.err, none)
  | .idle | .busy => none

end Sys2Proof.Machine
end

