-- ==== Sys2Proof/Machine/DictDecoder.lean ====
section
/-! DEFINITION. The dictionary decoder: `DEXP`, the dictionary tokens, and the phases that read no token
(43_dict_decoder.md). The phases that fetch the tokens are in Engine.lean. -/

namespace Sys2Proof.Machine

/-- `B <- 0` (43_dict_decoder.md R191). -/
def State.clearB (s : State) : State := { s with B := 0 }

/-- `DEXP`: START with command byte 0x01. `B <- 0`, `PHASE <- E_LOAD` (43_dict_decoder.md R191; 44_control.md R221, R222,
R227). The operation then runs as the steps `eLoad` to `eEmit`. -/
def execDexp (s : State) : Res := startEngine 0x01#8 (fun t => t.clearB.setPhase .eLoad) s

/-- The header's registers (43_dict_decoder.md R195, R196). -/
def eHeader (rem : BitVec 3) (u : BitVec 8) (s : State) : State :=
  { s with rem := rem, U := u, unique := resolveUnique u s.B }

/-- `DICT.HDR`: `rem` and `U` are read, `unique` is resolved, and the dictionary is next, from entry 0
(43_dict_decoder.md R195, R196). -/
def execDictHdr (rem : BitVec 3) (u : BitVec 8) (s : State) : Res :=
  .next (((eHeader rem u s).setJ 0).setPhase .eDict)

/-- `dict[j] <- b` (43_dict_decoder.md R197). -/
def eEntry (b : BitVec 8) (s : State) : State := { s with dict := Table.write s.dict s.j b }

/-- `DICT.ENT`: `dict[j]` is read (43_dict_decoder.md R197). -/
def execDictEnt (b : BitVec 8) (s : State) : Res :=
  withEntry s.j (.next ((eEntry b s).setJ (s.j + 1)))

/-- A code in the validation pass: `FormatInvariantViolation` where it is not below `unique` (43_dict_decoder.md R203). -/
def validateCode (c : Byte) (s : State) : Res :=
  if s.unique.toNat ≤ c.toNat then raise .format (s.setCode c) else .next ((s.setCode c).setJ (s.j + 1))

/-- A code in the output pass: `OutBits(8, dict[code])` (43_dict_decoder.md R204). -/
def emitCode (c : Byte) (s : State) : Res :=
  andThen (outBits 8 (Table.read s.dict c.toNat).toNat (s.setCode c)) fun t => .next (t.setJ (t.j + 1))

/-- A code token: validated in `E_CODE`, written out in the output pass (43_dict_decoder.md R203, R204; log 13). -/
def codeToken (c : Byte) (s : State) : Res := if s.phase = .eCode then validateCode c s else emitCode c s

/-- `DICT.CODE1` (43_dict_decoder.md R203, R204). -/
def execDictCode1 (c : BitVec 1) (s : State) : Res := codeToken (c.setWidth 8) s

/-- `DICT.CODE2` (43_dict_decoder.md R203, R204). -/
def execDictCode2 (c : BitVec 2) (s : State) : Res := codeToken (c.setWidth 8) s

/-- `DICT.CODE3` (43_dict_decoder.md R203, R204). -/
def execDictCode3 (c : BitVec 3) (s : State) : Res := codeToken (c.setWidth 8) s

/-- `DICT.CODE4` (43_dict_decoder.md R203, R204). -/
def execDictCode4 (c : BitVec 4) (s : State) : Res := codeToken (c.setWidth 8) s

/-- `DICT.CODE5` (43_dict_decoder.md R203, R204). -/
def execDictCode5 (c : BitVec 5) (s : State) : Res := codeToken (c.setWidth 8) s

/-- `DICT.CODE6` (43_dict_decoder.md R203, R204). -/
def execDictCode6 (c : BitVec 6) (s : State) : Res := codeToken (c.setWidth 8) s

/-- `DICT.CODE7` (43_dict_decoder.md R203, R204). -/
def execDictCode7 (c : BitVec 7) (s : State) : Res := codeToken (c.setWidth 8) s

/-- `DICT.CODE8` (43_dict_decoder.md R203, R204). -/
def execDictCode8 (c : BitVec 8) (s : State) : Res := codeToken c s

/-- `DICT.PAD`, the stream's last token: its bits are skipped whatever they are (43_dict_decoder.md R205), and the run
completes (43_dict_decoder.md R204; log 13). -/
def execDictPad (_pad : BitVec 3) (s : State) : Res := complete s

/-- `ibuf[B] <- b`, `B <- B + 1` (43_dict_decoder.md R192). -/
def eStore (b : Byte) (s : State) : State := { s with ibuf := Table.write s.ibuf s.B b, B := s.B + 1 }

/-- `E_LOAD`: the end test, the capacity check, then one byte into `ibuf` (43_dict_decoder.md R192). -/
def eLoad (caps : Config.Caps) (s : State) : Res :=
  if s.inEmpty then .next (s.setPhase .eHdr)
  else match inBits 8 s with
    | none => onShort s
    | some (bits, t) =>
      if atCap caps.inCap s.B then raise .capacity s
      else .next (eStore (BitVec.ofNat 8 (natOf bits)) t)

/-- The registers `E_CALC` computes before its checks (43_dict_decoder.md R198). -/
def eWidths (s : State) : State :=
  { s with
    cw := BitVec.ofNat 4 (codeWidth s.unique.toNat)
    pad := BitVec.ofNat 3 (padOf s.rem.toNat)
    valid := 8 * (s.B : Int) - padOf s.rem.toNat
    payload := 8 * (s.B : Int) - padOf s.rem.toNat - 11 - 8 * s.unique.toNat }

/-- `E_CALC`: widths, the three checks in their order, and the code count (43_dict_decoder.md R198 to R202, R208). -/
def eCalc (s : State) : Res :=
  let t := eWidths s
  if t.payload < 0 then raise .format t
  else if t.unique = 0#9 ∧ t.payload ≠ 0 then raise .format t
  else if t.payload % t.cw.toNat ≠ 0 then raise .malformed t
  else .next (((t.setN (t.payload / t.cw.toNat).toNat).setJ 0).setPhase .eCode)

end Sys2Proof.Machine
end

