-- ==== Sys2Proof/Machine/DictEncoder.lean ====
section
/-! DEFINITION. The dictionary encoder: `DCOMP` and its phases (42_dict_encoder.md). -/

namespace Sys2Proof.Machine

/-- `unique <- 0`, `length <- 0`, every `seen[v] <- 0` (42_dict_encoder.md R161). -/
def State.clearMessage (s : State) : State := { s with unique := 0#9, length := 0, seen := [] }

/-- `DCOMP`: START with command byte 0x00. `unique <- 0`, `length <- 0`, every `seen[v] <- 0`, `PHASE <- D_LOAD`
(42_dict_encoder.md R161; 44_control.md R221, R222, R227). The operation then runs as the steps `dLoad` to `dClose`. -/
def execDcomp (s : State) : Res :=
  startEngine 0x00#8 (fun t => t.clearMessage.setPhase .dLoad) s

/-- The byte counter and message buffer: `msg[length] <- b`, `length <- length + 1` (42_dict_encoder.md R162). -/
def dStore (b : Byte) (s : State) : State :=
  { s with msg := Table.write s.msg s.length b, length := s.length + 1 }

/-- A byte value met for the first time takes the next code (42_dict_encoder.md R163). -/
def dAssign (b : Byte) (s : State) : State :=
  { s with
    seen := Table.write s.seen b.toNat 1#1
    dict := Table.write s.dict s.unique.toNat b
    idx := Table.write s.idx b.toNat (s.unique.setWidth 8)
    unique := s.unique + 1#9 }

/-- The distinct-value tracker (42_dict_encoder.md R163). -/
def dTrack (b : Byte) (s : State) : Res :=
  if Table.read s.seen b.toNat = 0#1 then
    withEntry s.unique.toNat (.next (dAssign b s))
  else .next s

/-- `D_LOAD`: the end test, then one message byte, checked against the capacity, stored and tracked
(42_dict_encoder.md R162 to R164). -/
def dLoad (caps : Config.Caps) (s : State) : Res :=
  if s.inEmpty then .next (s.setPhase .dCalc)
  else match inBits 8 s with
    | none => onShort s
    | some (bits, t) =>
      if atCap caps.msgCap t.length then raise .capacity t
      else dTrack (BitVec.ofNat 8 (natOf bits)) (dStore (BitVec.ofNat 8 (natOf bits)) t)

/-- The registers `D_CALC` computes (42_dict_encoder.md R166, R167). -/
def dWidths (s : State) : State :=
  { s with
    cw := BitVec.ofNat 4 (codeWidth s.unique.toNat)
    rem := BitVec.ofNat 3 (remainder (codeWidth s.unique.toNat) s.length) }

/-- `D_CALC`: code width and remainder (42_dict_encoder.md R166, R167). -/
def dCalc (s : State) : Res :=
  .next ((dWidths s).setPhase .dHdr)

/-- `D_HDR`: the remainder field and the unique field, then `j <- 0` (42_dict_encoder.md R168, R169). -/
def dHdr (s : State) : Res :=
  andThen (outBits 3 s.rem.toNat s) fun t =>
    andThen (outBits 8 (storedUnique t.unique.toNat) t) fun u => .next ((u.setJ 0).setPhase .dDict)

/-- `D_DICT`: one dictionary entry, or on to the codes (42_dict_encoder.md R170). -/
def dDict (s : State) : Res :=
  if s.j < s.unique.toNat then
    withEntry s.j (andThen (outBits 8 (Table.read s.dict s.j).toNat s) fun t => .next (t.setJ (t.j + 1)))
  else .next ((s.setJ 0).setPhase .dCode)

/-- `D_CODE`: one code, `idx[msg[j]]` in `cw` bits, or on to the close (42_dict_encoder.md R171). -/
def dCode (s : State) : Res :=
  if s.j < s.length then
    andThen (outBits s.cw.toNat (Table.read s.idx (Table.read s.msg s.j).toNat).toNat s) fun t =>
      .next (t.setJ (t.j + 1))
  else .next (s.setPhase .dClose)

/-- `D_CLOSE` (42_dict_encoder.md R172). -/
def dClose (s : State) : Res := complete s

end Sys2Proof.Machine
end

