-- ==== Sys2Proof/Machine/RleDecoder.lean ====
section
/-! DEFINITION. The run-length decoder: `REXP` and the two run-length tokens (41_rle_decoder.md). The phase `X_READ`,
which fetches the tokens, is in Engine.lean. -/

namespace Sys2Proof.Machine

/-- `REXP`: START with command byte 0x03. `lastValue <- 0`, `PHASE <- X_READ` (41_rle_decoder.md R141; 44_control.md
R221, R222, R227). The operation then runs as the steps `xRead`. -/
def execRexp (s : State) : Res := startEngine 0x03#8 (fun t => t.clearLastValue.setPhase .xRead) s

/-- `RLE.ESC`: `MAX` copies of `lastValue`, no flip; the count read is 0 (41_rle_decoder.md R143, R146). -/
def execRleEsc (s : State) : Res := outRep s.lastValue Config.MAX (s.setCount 0#8)

/-- `RLE.RUN n`: `n` copies of `lastValue`, then the flip; the count read is `n` (41_rle_decoder.md R143, R144, R145). A
run of zero is no token (30_encoding.md R96). -/
def execRleRun (n : BitVec 8) (s : State) : Res :=
  if n = 0#8 then .refused .runOfZero
  else andThen (outRep s.lastValue n.toNat (s.setCount n)) fun t => .next t.flip

end Sys2Proof.Machine
end

