-- ==== Sys2Proof/Machine/RleEncoder.lean ====
section
/-! DEFINITION. The run-length encoder: `RCOMP` and its phases (40_rle_encoder.md). -/

namespace Sys2Proof.Machine

/-- `RCOMP`: START with command byte 0x02. `lastValue <- 0`, `valueCount <- 0`, `PHASE <- R_SCAN` (40_rle_encoder.md R121;
44_control.md R221, R222, R227). The operation then runs as the steps `rScan` and `rFlush`. -/
def execRcomp (s : State) : Res :=
  startEngine 0x02#8 (fun t => (t.clearLastValue.setValueCount 0#7).setPhase .rScan) s

/-- A bit that differs: the count of the run that ended is written, the value flips, the new run has one bit
(40_rle_encoder.md R123). -/
def rChange (s : State) : Res :=
  andThen (outBits Config.LENGTH s.valueCount.toNat s) fun t => .next (t.flip.setValueCount 1#7)

/-- A bit that is the same: counted (40_rle_encoder.md R124), and an escape the moment the count reaches `MAX`
(40_rle_encoder.md R125). -/
def rSame (s : State) : Res :=
  if (s.valueCount + 1#7).toNat = Config.MAX then
    andThen (outBits Config.LENGTH 0 s) fun t => .next (t.setValueCount 0#7)
  else .next (s.setValueCount (s.valueCount + 1#7))

/-- `R_SCAN`: the end test, then one input bit (40_rle_encoder.md R122 to R125). -/
def rScan (s : State) : Res :=
  if s.inEmpty then .next (s.setPhase .rFlush)
  else match inBits 1 s with
    | none => onShort s
    | some (bits, t) => if (natOf bits == 1) != t.lastValue then rChange t else rSame t

/-- `R_FLUSH`: the final count unless it is 0, then completion (40_rle_encoder.md R126, R127). -/
def rFlush (s : State) : Res :=
  if s.valueCount ≠ 0#7 then andThen (outBits Config.LENGTH s.valueCount.toNat s) complete else complete s

end Sys2Proof.Machine
end

