-- ==== Sys2Proof/Machine/Dispatch.lean ====
section
/-! DEFINITION. One arm per instruction, each one direct call of its meaning. -/

namespace Sys2Proof.Machine

def exec (i : Instr) (s : State) : Host.Outcome State Fault Refusal :=
  match i with
  | .dcomp => Sys2Proof.Machine.execDcomp s
  | .dexp => Sys2Proof.Machine.execDexp s
  | .rcomp => Sys2Proof.Machine.execRcomp s
  | .rexp => Sys2Proof.Machine.execRexp s
  | .rleEsc => Sys2Proof.Machine.execRleEsc s
  | .rleRun n => Sys2Proof.Machine.execRleRun n s
  | .dictHdr rem u => Sys2Proof.Machine.execDictHdr rem u s
  | .dictEnt b => Sys2Proof.Machine.execDictEnt b s
  | .dictCode1 c => Sys2Proof.Machine.execDictCode1 c s
  | .dictCode2 c => Sys2Proof.Machine.execDictCode2 c s
  | .dictCode3 c => Sys2Proof.Machine.execDictCode3 c s
  | .dictCode4 c => Sys2Proof.Machine.execDictCode4 c s
  | .dictCode5 c => Sys2Proof.Machine.execDictCode5 c s
  | .dictCode6 c => Sys2Proof.Machine.execDictCode6 c s
  | .dictCode7 c => Sys2Proof.Machine.execDictCode7 c s
  | .dictCode8 c => Sys2Proof.Machine.execDictCode8 c s
  | .dictPad pad => Sys2Proof.Machine.execDictPad pad s

end Sys2Proof.Machine
end

