-- ==== Sys2Proof/Machine/Engine.lean ====
section
/-! DEFINITION. The phases that fetch a token, the engines' step by `PHASE`, and the step of the whole block: the host's
turn, or the running engine's. -/

namespace Sys2Proof.Machine

/-- The instruction read from `bits` in the place `ctx`, run. Bits that hold none (a range outside the loaded bytes, a
width outside 1 to 8) are outside `BufBits`'s precondition (43_dict_decoder.md R193). -/
def runToken (ctx : Ctx) (bits : List Bool) (s : State) : Res :=
  match decode ctx bits with
  | some (i, _) => exec i s
  | none => .fault .noSuchBits

/-- `START(c)`: the command's instruction, or `UsageError` where `c` selects none (44_control.md R222, R223). -/
def runCommand (c : Byte) (s : State) : Res :=
  match decode .command (byteBits c) with
  | some (i, _) => exec i s
  | none => usageError c s

/-- `X_READ`: the end test and completion, or one count, read and run (41_rle_decoder.md R142, R143, R147, R148). A run on the
empty input reads no count, and `count`, which R149 then calls unspecified, keeps its value: DESIGN CHOICE, log 17. -/
def xRead (s : State) : Res :=
  if s.inEmpty then complete s
  else match inBits Config.LENGTH s with
    | none => onShort s
    | some (bits, t) => runToken .count bits t

/-- `E_HDR`: the length check, then the header, read and run (43_dict_decoder.md R194, R195). -/
def eHdr (s : State) : Res :=
  if 8 * s.B < 11 then raise .malformed s else runToken .header (bufBits 0 11 s) s

/-- `E_DICT`: the length check, then one entry, read and run, or on to the counts (43_dict_decoder.md R197). -/
def eDict (s : State) : Res :=
  if 8 * s.B < 11 + 8 * s.unique.toNat then raise .malformed s
  else if s.j < s.unique.toNat then runToken .entry (bufBits (entryAddr s.j) 8 s) s
  else .next (s.setPhase .eCalc)

/-- The bits of code `j` (30_encoding.md R106). -/
def codeBits (s : State) : List Bool := bufBits (codeAddr s.unique.toNat s.cw.toNat s.j) s.cw.toNat s

/-- The bits after the last code (30_encoding.md R98). -/
def padBits (s : State) : List Bool := bufBits (codeAddr s.unique.toNat s.cw.toNat s.n) s.pad.toNat s

/-- `E_CODE`, the validation pass: one code, read and run, or on to the output pass (43_dict_decoder.md R203).
With `n = 0` no code is read, and `code`, which R211 then calls unspecified after the run, keeps its value: DESIGN CHOICE, log
17. -/
def eCode (s : State) : Res :=
  if s.j < s.n then runToken (.code s.cw.toNat) (codeBits s) s else .next ((s.setJ 0).setPhase .eEmit)

/-- `E_EMIT`, the output pass: one code, read and run, and at the end the padding, which closes the run
(43_dict_decoder.md R204, R205). With `n = 0` `code` keeps its value here too: DESIGN CHOICE, log 17. -/
def eEmit (s : State) : Res :=
  if s.j < s.n then runToken (.code s.cw.toNat) (codeBits s) s
  else runToken (.padding s.pad.toNat) (padBits s) s

/-- One step of the running engine, the row of its phase table that `PHASE` names (44_control.md R224). With no engine
running there is no step to take. -/
def engineStep (caps : Config.Caps) (s : State) : Res :=
  if s.status ≠ .busy then .next s
  else match s.phase with
    | .halt => .next s
    | .rScan => rScan s
    | .rFlush => rFlush s
    | .xRead => xRead s
    | .dLoad => dLoad caps s
    | .dCalc => dCalc s
    | .dHdr => dHdr s
    | .dDict => dDict s
    | .dCode => dCode s
    | .dClose => dClose s
    | .eLoad => eLoad caps s
    | .eHdr => eHdr s
    | .eDict => eDict s
    | .eCalc => eCalc s
    | .eCode => eCode s
    | .eEmit => eEmit s

/-- One turn of the host (44_control.md R220), the turn already taken off the list. -/
def hostTurn (caps : Config.Caps) (h : HostTurn) (s : State) : Res :=
  match h with
  | .reset => .next (resetBlock s)
  | .start c => runCommand c s
  | .supply b => .next (supply b s)
  | .endInput => .next (markEnd s)
  | .read _ => .next s
  | .idle => engineStep caps s

/-- One step of the block at given capacities: the host's next turn, or the engine's where the host has none left
(log 2). -/
def stepWith (caps : Config.Caps) (s : State) : Res :=
  match s.host with
  | [] => engineStep caps s
  | h :: rest => hostTurn caps h (s.setHost rest)

/-- `START(c)` as the host's next turn (log 11). -/
def placeCommand (c : Byte) (s : State) : State := s.setHost (.start c :: s.host)

/-- A dictionary decoder that has loaded these bytes and is about to parse its header (log 11). -/
def placeHeader (bytes : List Byte) (s : State) : State :=
  { s with
    host := []
    cmd := 0x01#8
    status := .busy
    phase := .eHdr
    ibuf := (bytes.zipIdx).foldl (fun t c => Table.write t c.2 c.1) s.ibuf
    B := bytes.length }

/-- A run-length decoder whose next count is this byte (log 11). -/
def placeCount (b : Byte) (s : State) : State :=
  { s with
    host := []
    cmd := 0x03#8
    status := .busy
    phase := .xRead
    inBytes := [b]
    inEnd := false
    ipos := 0
    closed := false }

/-- A table word placed where the next step reads its instruction: as the command of a START, as the next count of a
run-length stream, or as the head of a loaded dictionary stream (log 11). -/
def placeWord (s : State) (nbits w : Nat) : State :=
  match tableCtx nbits w with
  | .command => placeCommand (BitVec.ofNat 8 w) s
  | .count => placeCount (BitVec.ofNat 8 w) s
  | .header | .entry | .code _ | .padding _ => placeHeader (wordBytes nbits w) s

end Sys2Proof.Machine
end

