-- ==== Sys2Proof/Machine/Step.lean ====
section
/-! DEFINITION. The step of the block at this implementation's capacities, and where its next instruction is placed. -/

namespace Sys2Proof.Machine

/-- One step (44_control.md R224), at this implementation's `MSG_CAP` and `IN_CAP` (00_scope.md R14). -/
def step (s : State) : Host.Outcome State Fault Refusal := stepWith Config.caps s

/-- `s` with the table word `w` placed where `step` reads its next instruction (log 11). -/
def State.withFetchWord (s : State) (nbits w : Nat) : State := placeWord s nbits w

end Sys2Proof.Machine
end

