-- ==== Sys2Proof/Safety.lean ====
section
/-! DEFINITION. The terms statements about runs use: runs, the invariant of the block, and the four operations as
functions of their input (30_encoding.md R98; 40_rle_encoder.md R130; 41_rle_decoder.md R149; 43_dict_decoder.md
R211). -/

namespace Sys2Proof.Machine

/-! ## Runs -/

/-- `k` steps of the block at given capacities, stopping where a step does not answer a next state. -/
def runWith (caps : Config.Caps) : Nat → State → Res
  | 0, s => .next s
  | k + 1, s => andThen (stepWith caps s) (runWith caps k)

/-- The host's turns for one run: START, the input bytes in order, the end mark (70_reset_and_hazards.md R273). -/
def runTurns (c : Byte) (input : List Byte) : List HostTurn := .start c :: (input.map .supply ++ [.endInput])

/-- A turn on which the host does something to the block: no idle turn and no read. -/
def HostTurn.acts : HostTurn → Bool
  | .reset | .start _ | .supply _ | .endInput => true
  | .read _ | .idle => false

/-- `h` is a schedule of one run: the turns of `runTurns`, with idle turns, on which the engine moves, and reads wherever
the host likes (20_memory.md R81, 44_control.md R224, R233; log 2). -/
abbrev IsSchedule (c : Byte) (input : List Byte) (h : List HostTurn) : Prop :=
  h.filter HostTurn.acts = runTurns c input

/-- From `s`, the block reaches `t` in some number of steps. -/
def Reaches (caps : Config.Caps) (s t : State) : Prop := ∃ k, runWith caps k s = .next t

/-! ## The invariant -/

/-- The command whose engine a phase belongs to (10_state.md R23). -/
def Phase.engine : Phase → Option Byte
  | .halt => none
  | .dLoad | .dCalc | .dHdr | .dDict | .dCode | .dClose => some 0x00#8
  | .eLoad | .eHdr | .eDict | .eCalc | .eCode | .eEmit => some 0x01#8
  | .rScan | .rFlush => some 0x02#8
  | .xRead => some 0x03#8

/-- The phases an engine enters only when its whole input has been read (20_memory.md R83). -/
def Phase.afterInput : Phase → Bool
  | .rFlush | .dCalc | .dHdr | .dDict | .dCode | .dClose | .eHdr | .eDict | .eCalc | .eCode | .eEmit => true
  | .halt | .rScan | .xRead | .dLoad | .eLoad => false

/-- Tables and buffers keep their canonical form, and the tables of 256 entries list no entry that does not exist
(10_state.md R33 to R35). -/
structure TablesOk (s : State) : Prop where
  seen_wf : Table.wf s.seen
  dict_wf : Memory.wf s.dict
  idx_wf : Memory.wf s.idx
  msg_wf : Memory.wf s.msg
  ibuf_wf : Memory.wf s.ibuf
  seen_lt : ∀ c ∈ s.seen, c.1 < 256
  dict_lt : ∀ c ∈ s.dict, c.1 < 256
  idx_lt : ∀ c ∈ s.idx, c.1 < 256

/-- `0 <= ipos <= 8*B_in` (10_state.md R26), and a closed output is whole bytes (10_state.md R28). -/
structure StreamsOk (s : State) : Prop where
  ipos_le : s.ipos ≤ 8 * s.inBytes.length
  closed_whole : s.closed = true → s.obits.length % 8 = 0

/-- `CMD`, `STATUS`, `ERR`, `PHASE` and `closed` fit together (10_state.md R22 to R24; 44_control.md R225, R226, R231). -/
structure ControlOk (s : State) : Prop where
  busy_iff : s.status = .busy ↔ s.phase ≠ .halt
  busy_open : s.status = .busy → s.closed = false
  busy_engine : s.status = .busy → s.phase.engine = some s.cmd
  error_iff : s.status = .error ↔ s.err ≠ .none
  ended_closed : s.status = .done ∨ s.status = .error → s.closed = true
  input_read : s.status = .done ∨ s.phase.afterInput = true → s.inEmpty = true

/-- What the dictionary encoder has collected from the bytes read so far (42_dict_encoder.md R165). -/
structure DictOk (s : State) : Prop where
  unique_eq : s.unique.toNat = s.seen.length
  msg_seen : ∀ k < s.length, Table.read s.seen (Table.read s.msg k).toNat = 1#1
  seen_code : ∀ v < 256, Table.read s.seen v = 1#1 →
    (Table.read s.idx v).toNat < s.unique.toNat ∧ (Table.read s.dict (Table.read s.idx v).toNat).toNat = v
  code_seen : ∀ i < s.unique.toNat, Table.read s.seen (Table.read s.dict i).toNat = 1#1 ∧
    (Table.read s.idx (Table.read s.dict i).toNat).toNat = i

/-- The dictionary encoder's computed registers (42_dict_encoder.md R166, R167). -/
structure EncWidthsOk (s : State) : Prop where
  cw_eq : s.cw.toNat = codeWidth s.unique.toNat
  rem_eq : s.rem.toNat = remainder s.cw.toNat s.length

/-- The dictionary decoder's stream holds its dictionary (43_dict_decoder.md R196, R197). -/
structure DecDictOk (s : State) : Prop where
  unique_eq : s.unique = resolveUnique s.U s.B
  fits : 11 + 8 * s.unique.toNat ≤ 8 * s.B

/-- The dictionary decoder's computed registers: the stream is the header, the dictionary, `n` codes and the padding
(43_dict_decoder.md R198 to R202). -/
structure DecWidthsOk (s : State) : Prop where
  cw_eq : s.cw.toNat = codeWidth s.unique.toNat
  pad_eq : s.pad.toNat = padOf s.rem.toNat
  total : 11 + 8 * s.unique.toNat + s.cw.toNat * s.n + s.pad.toNat = 8 * s.B
  nonempty : 0 < s.n → 0 < s.unique.toNat

/-- What holds of the running engine's registers between steps, by `PHASE`. -/
def PhaseOk (s : State) : Prop :=
  match s.phase with
  | .halt => True
  | .rScan => s.valueCount.toNat < Config.MAX ∧ s.obits.length % 8 = 0
  | .rFlush => s.valueCount.toNat < Config.MAX ∧ s.obits.length % 8 = 0
  | .xRead => s.ipos % 8 = 0
  | .dLoad => s.ipos = 8 * s.length ∧ s.obits = [] ∧ DictOk s
  | .dCalc => s.obits = [] ∧ DictOk s
  | .dHdr => s.obits = [] ∧ DictOk s ∧ EncWidthsOk s
  | .dDict => s.j ≤ s.unique.toNat ∧ s.obits.length = entryAddr s.j ∧ DictOk s ∧ EncWidthsOk s
  | .dCode => s.j ≤ s.length ∧ s.obits.length = codeAddr s.unique.toNat s.cw.toNat s.j ∧ DictOk s ∧ EncWidthsOk s
  | .dClose => s.obits.length = codeAddr s.unique.toNat s.cw.toNat s.length ∧ DictOk s ∧ EncWidthsOk s
  | .eLoad => s.ipos = 8 * s.B ∧ s.obits = []
  | .eHdr => s.ipos = 8 * s.B ∧ s.obits = []
  | .eDict => s.obits = [] ∧ 2 ≤ s.B ∧ s.unique = resolveUnique s.U s.B ∧ s.j ≤ s.unique.toNat
  | .eCalc => s.obits = [] ∧ DecDictOk s
  | .eCode => s.obits = [] ∧ DecDictOk s ∧ DecWidthsOk s ∧ s.j ≤ s.n
  | .eEmit => s.obits.length = 8 * s.j ∧ DecDictOk s ∧ DecWidthsOk s ∧ s.j ≤ s.n

/-- The invariant of the block between steps. -/
structure Invariant (s : State) : Prop where
  tables : TablesOk s
  streams : StreamsOk s
  control : ControlOk s
  phase_ok : PhaseOk s

/-! ## The operations as functions of their input -/

/-- The bit sequence whose maximal runs have these lengths, the first of value `v` (40_rle_encoder.md R130). -/
def expandRuns : Bool → List Nat → List Bool
  | _, [] => []
  | v, L :: Ls => List.replicate L v ++ expandRuns (!v) Ls

/-- The counts of R130's points 2 and 3 for the runs of these lengths. -/
def runCounts : List Nat → List Nat
  | [] => []
  | [L] => List.replicate (L / Config.MAX) 0 ++ (if L % Config.MAX = 0 then [] else [L % Config.MAX])
  | L :: Ls => List.replicate (L / Config.MAX) 0 ++ L % Config.MAX :: runCounts Ls

/-- All the counts of R130: one escape first where the input begins with a 1 bit. -/
def rcompCounts (v : Bool) (Ls : List Nat) : List Nat :=
  (if v = true ∧ Ls ≠ [] then [0] else []) ++ runCounts Ls

/-- The bits a run-length stream decodes to, the first run of value `v` (41_rle_decoder.md R149). -/
def rexpBits : Bool → List Byte → List Bool
  | _, [] => []
  | v, c :: cs =>
    if c = 0#8 then List.replicate Config.MAX v ++ rexpBits v cs else List.replicate c.toNat v ++ rexpBits (!v) cs

/-- The distinct bytes of a message in first-occurrence order (10_state.md R34). -/
def firstOccurrences (m : List Byte) : List Byte := m.foldl (fun d b => if b ∈ d then d else d ++ [b]) []

/-- Zero bits up to a whole byte (20_memory.md R70). -/
def padToByte (bits : List Bool) : List Bool := bits ++ List.replicate ((8 - bits.length % 8) % 8) false

/-- The dictionary stream of a message before its padding (30_encoding.md R98). -/
def dictStream (m : List Byte) : List Bool :=
  let d := firstOccurrences m
  bitsOf 3 (remainder (codeWidth d.length) m.length) ++ bitsOf 8 (storedUnique d.length) ++
    d.flatMap (fun b => bitsOf 8 b.toNat) ++ m.flatMap (fun b => bitsOf (codeWidth d.length) (d.idxOf b))

/-- The unsigned value of the `n` stream bits from `addr` (00_scope.md R18, 43_dict_decoder.md R193). -/
def fieldAt (bits : List Bool) (addr n : Nat) : Nat := natOf ((bits.drop addr).take n)

/-- The message of a stream whose counts have been checked: `dict[c_0], ..., dict[c_{n-1}]`, or the error of the first
code that is not below `unique` (43_dict_decoder.md R203, R204, R211). -/
def expandCodes (bits : List Bool) (unique n : Nat) : Except ErrCode (List Byte) :=
  let cw := codeWidth unique
  let codes := (List.range n).map fun k => fieldAt bits (codeAddr unique cw k) cw
  if codes.all (fun c => decide (c < unique)) then
    .ok (codes.map fun c => BitVec.ofNat 8 (fieldAt bits (entryAddr c) 8))
  else .error .format

/-- The dictionary decoder as a function of a stream within the capacity: the checks in their order, then the message
(43_dict_decoder.md R208, R211). -/
def expandDict (stream : List Byte) : Except ErrCode (List Byte) :=
  let bits := bytesBits stream
  let u := (resolveUnique (BitVec.ofNat 8 (fieldAt bits 3 8)) stream.length).toNat
  let payload : Int := (bits.length : Int) - padOf (fieldAt bits 0 3) - 11 - 8 * u
  if bits.length < 11 then .error .malformed
  else if bits.length < 11 + 8 * u then .error .malformed
  else if payload < 0 then .error .format
  else if u = 0 ∧ payload ≠ 0 then .error .format
  else if payload % codeWidth u ≠ 0 then .error .malformed
  else expandCodes bits u (payload / codeWidth u).toNat

/-- An ended run has this result: the message with `DONE`, or the error with `ERROR` (44_control.md R230). -/
def State.hasResult (s : State) (r : Except ErrCode (List Byte)) : Prop :=
  match r with
  | .ok out => s.result = some (.done, .none, some out)
  | .error e => s.result = some (.error, e, none)

/-- The inputs on which the run-length pair is lossless: none, or a first run of 0 bits and no run but the last of a
length divisible by `MAX` (41_rle_decoder.md R150). -/
def RunLengthDomain (v : Bool) (Ls : List Nat) : Prop :=
  Ls = [] ∨ (v = false ∧ ∀ L ∈ Ls.dropLast, L % Config.MAX ≠ 0)

end Sys2Proof.Machine
end

