-- ==== Sys2Proof/Certificates/Slice0/Obligations.lean ====
section
/-! DEFINITION. The statements for the provers, about the model of Sys2Proof/Machine. Rows of the phase tables are stated
of `engineStep`, which is the block's step whenever it is the engine's turn (`StepRunsTheDecodedInstruction`). -/

open Sys2Proof Sys2Proof.Machine

/-! ## Encodings -/

/-- 30_encoding.md R91, R92: the command byte is read by its three fields, and `RSV != 0` selects nothing. -/
def Obligations.CommandByteSelectsTheOperation : Prop :=
  ∀ (c : Byte) (rest : List Bool),
    decode .command (byteBits c ++ rest) =
      if c.extractLsb' 2 6 ≠ 0#6 then none
      else if c.getLsbD 1 = false then
        (if c.getLsbD 0 = false then some (Instr.dcomp, rest) else some (Instr.dexp, rest))
      else (if c.getLsbD 0 = false then some (Instr.rcomp, rest) else some (Instr.rexp, rest))

/-- A few words, written out bit by bit from 30_encoding.md and 42_dict_encoder.md R179. -/
def Obligations.WordsReadAsTheSpecEncodesThem : Prop :=
  decode .command [false, false, false, false, false, false, true, false] = some (.rcomp, []) ∧
  decode .count [false, false, false, true, false, false, false, false] = some (.rleRun 16#8, []) ∧
  decode .header [false, true, true, false, false, false, false, false, false, true, true] =
    some (.dictHdr 3#3 3#8, []) ∧
  decode .entry [false, true, false, false, false, false, true, true] = some (.dictEnt 0x43#8, []) ∧
  decode (.code 2) [true, false] = some (.dictCode2 2#2, []) ∧
  decode (.padding 5) [false, false, false, false, false] = some (.dictPad 5#3, [])

/-- Decoding an encoded well-formed instruction, in the place it is read, gives it back, with every bit after it
(30_encoding.md sections 2 to 4). -/
def Obligations.DecodeInvertsEncode : Prop :=
  ∀ (i : Instr) (rest : List Bool), i.wellFormed = true → decode i.ctx (encode i ++ rest) = some (i, rest)

/-- What the decoder reads is well-formed, belongs to the place, has the place's width, and, but for padding bits, which
are not examined, is the only instruction with that encoding (30_encoding.md sections 2 to 4; 43_dict_decoder.md R205). -/
def Obligations.EncodeInvertsDecode : Prop :=
  ∀ (ctx : Ctx) (bits rest : List Bool) (i : Instr), decode ctx bits = some (i, rest) →
    i.wellFormed = true ∧ i.ctx = ctx ∧ ctx.width ≤ bits.length ∧ rest = bits.drop ctx.width ∧
      ((∀ p, i ≠ .dictPad p) → bits = encode i ++ rest)

/-- 30_encoding.md R100: `clog2` is the least width that suffices, and the code width is the table's. -/
def Obligations.CodeWidthIsTheTables : Prop :=
  (∀ u, u ≤ 2 ^ clog2 u ∧ ∀ w, u ≤ 2 ^ w → clog2 u ≤ w) ∧
  (∀ u, codeWidth u = max 1 (clog2 u)) ∧
  ∀ u ≤ 256, codeWidth u =
    if u ≤ 2 then 1 else if u ≤ 4 then 2 else if u ≤ 8 then 3 else if u ≤ 16 then 4 else if u ≤ 32 then 5
    else if u ≤ 64 then 6 else if u ≤ 128 then 7 else 8

/-- 30_encoding.md R103: the remainder is the number of data bits in the last byte, and the padding fills it. -/
def Obligations.RemainderAndPaddingFillTheLastByte : Prop :=
  ∀ u length : Nat,
    codeAddr u (codeWidth u) length % 8 = remainder (codeWidth u) length ∧
    (codeAddr u (codeWidth u) length + padOf (remainder (codeWidth u) length)) % 8 = 0 ∧
    padOf (remainder (codeWidth u) length) < 8

/-- 30_encoding.md R104: the stored form of `unique` and the stream length give `unique` back, for a stream that is two
bytes long exactly when `unique` is 0. -/
def Obligations.StoredUniqueResolves : Prop :=
  ∀ u B : Nat, u ≤ 256 → (u = 0 ↔ B = 2) →
    (resolveUnique (BitVec.ofNat 8 (storedUnique u)) B).toNat = u

/-! ## Streams -/

/-- 20_memory.md R66: where the bits are there, the value is the sum with the first bit most significant and `ipos`
moves past them; where they are not, nothing is transferred, and at the end of the input that is a
`MalformedStreamError`. -/
def Obligations.InBitsReadsMostSignificantFirst : Prop :=
  ∀ (n : Nat) (s : State),
    (s.ipos + n ≤ 8 * s.inBytes.length →
      ∃ bs, inBits n s = some (bs, { s with ipos := s.ipos + n }) ∧
        natOf bs = ∑ i ∈ Finset.range n, (s.inBit (s.ipos + i)).toNat * 2 ^ (n - 1 - i)) ∧
    (8 * s.inBytes.length < s.ipos + n →
      inBits n s = none ∧
        (s.inEnd = true → ∃ t, onShort s = .next t ∧ t.status = .error ∧ t.err = .malformed ∧ t.ipos = s.ipos))

/-- 20_memory.md R63: the first bit of the stream is the most significant bit of the first byte; and reading bytes as bits
and packing bits as bytes (R71) are inverse. -/
def Obligations.BytesAreReadMostSignificantFirst : Prop :=
  (∀ (s : State) (k : Nat) (h : k / 8 < s.inBytes.length),
    s.inBit k = (s.inBytes[k / 8]).getLsbD (7 - k % 8) ∧ (bytesBits s.inBytes)[k]? = some (s.inBit k)) ∧
  (∀ bs : List Byte, packBytes (bytesBits bs) = bs) ∧
  ∀ bits : List Bool, bits.length % 8 = 0 → bytesBits (packBytes bits) = bits

/-- 20_memory.md R69: the bits are appended most significant first. Everything else is unchanged. -/
def Obligations.OutBitsAppendsMostSignificantFirst : Prop :=
  ∀ (n v : Nat) (s : State), 1 ≤ n → n ≤ 32 → v < 2 ^ n → s.closed = false →
    outBits n v s = .next { s with obits := s.obits ++ (List.range n).map fun i => v.testBit (n - 1 - i) }

/-- Where a precondition the spec puts on an operation is broken, the model stops by name (log 12): a width or a value
`OutBits` has no meaning for (20_memory.md R69, 93 U21), a write to a closed output (R68), a run of zero (30_encoding.md
R96), a dictionary entry past 255 (10_state.md R34), bits outside the loaded bytes (43_dict_decoder.md R193).
`NoStepStopsTheMachine` says that no engine comes here. -/
def Obligations.BrokenPreconditionsStopByName : Prop :=
  (∀ n v s, n = 0 ∨ 32 < n → outBits n v s = .refused .fieldWidth) ∧
  (∀ n v s, 1 ≤ n → n ≤ 32 → 2 ^ n ≤ v → outBits n v s = .refused .valueTooWide) ∧
  (∀ n v s, 1 ≤ n → n ≤ 32 → v < 2 ^ n → s.closed = true → outBits n v s = .refused .outputClosed) ∧
  (∀ s, s.closed = true → exec .rleEsc s = .refused .outputClosed) ∧
  (∀ n s, n ≠ 0#8 → s.closed = true → exec (.rleRun n) s = .refused .outputClosed) ∧
  (∀ s, exec (.rleRun 0#8) s = .refused .runOfZero) ∧
  (∀ i cw s, i.ctx = .code cw → s.phase ≠ .eCode → s.closed = true → exec i s = .refused .outputClosed) ∧
  (∀ b s, 256 ≤ s.j → exec (.dictEnt b) s = .fault .noSuchEntry) ∧
  ∀ ctx bits s, decode ctx bits = none → runToken ctx bits s = .fault .noSuchBits

/-- 20_memory.md R70: closing fills the last byte with zero bits, appends nothing to whole bytes, and closes. -/
def Obligations.OutCloseFillsTheLastByte : Prop :=
  ∀ s : State,
    outClose s = { s with obits := padToByte s.obits, closed := true } ∧
    (padToByte s.obits).length % 8 = 0 ∧ (s.opos % 8 = 0 → (outClose s).obits = s.obits)

/-- 20_memory.md R71: `out_bytes` packs the output bits, the first of each byte the most significant. -/
def Obligations.OutBytesPackMostSignificantFirst : Prop :=
  ∀ s : State, s.outBytes.length = s.opos / 8 ∧
    ∀ i, ∀ h : i < s.outBytes.length,
      (s.outBytes[i]).toNat = ∑ k ∈ Finset.range 8, (s.obits.getD (8 * i + k) false).toNat * 2 ^ (7 - k)

/-! ## The host's operations -/

/-- When the bits read decode to an instruction, the step is that instruction's meaning: a command where the host offers
one (its turn is taken off the list), a count at `ipos` (which moves past it), the dictionary tokens at their positions in
the loaded stream. That the engine moves on an idle turn of the host and when the host has no turn left is the model's
choice (log 2). -/
def Obligations.StepRunsTheDecodedInstruction : Prop :=
  (∀ s, step s = stepWith Config.caps s) ∧
  (∀ caps s, s.host = [] → stepWith caps s = engineStep caps s) ∧
  (∀ caps s rest, s.host = .idle :: rest → stepWith caps s = engineStep caps { s with host := rest }) ∧
  (∀ caps s c rest i r, s.host = .start c :: rest → decode .command (byteBits c) = some (i, r) →
    stepWith caps s = exec i { s with host := rest }) ∧
  (∀ caps s i r, s.status = .busy → s.phase = .xRead → s.ipos + 8 ≤ 8 * s.inBytes.length →
    decode .count ((List.range 8).map fun k => s.inBit (s.ipos + k)) = some (i, r) →
    engineStep caps s = exec i { s with ipos := s.ipos + 8 }) ∧
  (∀ caps s i r, s.status = .busy → s.phase = .eHdr → 11 ≤ 8 * s.B →
    decode .header (bufBits 0 11 s) = some (i, r) → engineStep caps s = exec i s) ∧
  (∀ caps s i r, s.status = .busy → s.phase = .eDict → 11 + 8 * s.unique.toNat ≤ 8 * s.B → s.j < s.unique.toNat →
    decode .entry (bufBits (11 + 8 * s.j) 8 s) = some (i, r) → engineStep caps s = exec i s) ∧
  (∀ caps s i r, s.status = .busy → s.phase = .eCode ∨ s.phase = .eEmit → s.j < s.n →
    decode (.code s.cw.toNat) (bufBits (11 + 8 * s.unique.toNat + s.cw.toNat * s.j) s.cw.toNat s) = some (i, r) →
    engineStep caps s = exec i s) ∧
  (∀ caps s i r, s.status = .busy → s.phase = .eEmit → s.n ≤ s.j →
    decode (.padding s.pad.toNat) (bufBits (11 + 8 * s.unique.toNat + s.cw.toNat * s.n) s.pad.toNat s) = some (i, r) →
    engineStep caps s = exec i s)

/-- `DCOMP` accepted: 42_dict_encoder.md R161, 44_control.md R221. Everything else is unchanged. -/
def Obligations.DcompStartsTheDictionaryEncoder : Prop :=
  ∀ s : State, s.status ≠ .busy →
    exec .dcomp s = .next
      { s with
        cmd := 0x00#8, status := .busy, err := .none, phase := .dLoad, inBytes := [], inEnd := false, ipos := 0,
        obits := [], closed := false, unique := 0#9, length := 0, seen := [] } ∧
    ∀ v, Table.read ([] : Table 1) v = 0#1

/-- `DEXP` accepted: 43_dict_decoder.md R191, 44_control.md R221. Everything else is unchanged. -/
def Obligations.DexpStartsTheDictionaryDecoder : Prop :=
  ∀ s : State, s.status ≠ .busy →
    exec .dexp s = .next
      { s with
        cmd := 0x01#8, status := .busy, err := .none, phase := .eLoad, inBytes := [], inEnd := false, ipos := 0,
        obits := [], closed := false, B := 0 }

/-- `RCOMP` accepted: 40_rle_encoder.md R121, 44_control.md R221. Everything else is unchanged. -/
def Obligations.RcompStartsTheRunLengthEncoder : Prop :=
  ∀ s : State, s.status ≠ .busy →
    exec .rcomp s = .next
      { s with
        cmd := 0x02#8, status := .busy, err := .none, phase := .rScan, inBytes := [], inEnd := false, ipos := 0,
        obits := [], closed := false, lastValue := false, valueCount := 0#7 }

/-- `REXP` accepted: 41_rle_decoder.md R141, 44_control.md R221. Everything else is unchanged. -/
def Obligations.RexpStartsTheRunLengthDecoder : Prop :=
  ∀ s : State, s.status ≠ .busy →
    exec .rexp s = .next
      { s with
        cmd := 0x03#8, status := .busy, err := .none, phase := .xRead, inBytes := [], inEnd := false, ipos := 0,
        obits := [], closed := false, lastValue := false }

/-- 44_control.md R223: a START whose command has a reserved bit set, while no engine runs. -/
def Obligations.ReservedCommandIsAUsageError : Prop :=
  ∀ caps s c rest, s.host = .start c :: rest → s.status ≠ .busy → c.extractLsb' 2 6 ≠ 0#6 →
    ∃ t, stepWith caps s = .next t ∧ t.phase = .halt ∧ t.status = .error ∧ t.err = .usage ∧ t.cmd = c ∧
      t.ipos = 0 ∧ t.obits = [] ∧ t.outBytes = [] ∧ t.closed = true ∧ t.host = rest

/-- 44_control.md R227: any START while BUSY changes nothing but that the host's turn is over. -/
def Obligations.StartWhileBusyIsIgnored : Prop :=
  (∀ s, s.status = .busy → exec .dcomp s = .next s ∧ exec .dexp s = .next s ∧ exec .rcomp s = .next s ∧
    exec .rexp s = .next s) ∧
  ∀ caps s c rest, s.host = .start c :: rest → s.status = .busy → stepWith caps s = .next { s with host := rest }

/-- 44_control.md R229: RESET in any state; the registers whose reset value the spec gives have it. The host's turns to
come are the model's own field (log 2). -/
def Obligations.ResetIsAcceptedInEveryState : Prop :=
  ∀ caps s rest, s.host = .reset :: rest →
    ∃ t, stepWith caps s = .next t ∧ t.status = .idle ∧ t.err = .none ∧ t.cmd = 0x00#8 ∧ t.phase = .halt ∧
      t.inBytes = [] ∧ t.ipos = 0 ∧ t.obits = [] ∧ t.closed = false ∧ t.lastValue = false ∧ t.valueCount = 0#7 ∧
      t.unique = 0#9 ∧ t.length = 0 ∧ t.B = 0 ∧ (∀ v, Table.read t.seen v = 0#1) ∧ t.host = rest

/-- 70_reset_and_hazards.md R271: the values the spec gives, and nothing runs until START: with no engine running, in any
state, there is no step for an engine to take (44_control.md R224, R231). -/
def Obligations.ResetLeavesTheSpecifiedValues : Prop :=
  (State.reset.status = .idle ∧ State.reset.err = .none ∧ State.reset.cmd = 0x00#8 ∧ State.reset.phase = .halt ∧
    State.reset.inBytes = [] ∧ State.reset.ipos = 0 ∧ State.reset.obits = [] ∧ State.reset.opos = 0 ∧
    State.reset.closed = false ∧ State.reset.lastValue = false ∧ State.reset.valueCount = 0#7 ∧
    State.reset.unique = 0#9 ∧ State.reset.length = 0 ∧ State.reset.B = 0 ∧
    (∀ v, Table.read State.reset.seen v = 0#1) ∧ ∀ caps, stepWith caps State.reset = .next State.reset) ∧
  ∀ caps s, s.status ≠ .busy → engineStep caps s = .next s

/-- 44_control.md R233: a read has no side effect, and `ERR` keeps its value while no engine runs until the next START or
RESET. What is read is `CMD`, `STATUS` as 0 to 3 (10_state.md R22) and `ERR` as 0 to 4 (60_exceptions.md R241). -/
def Obligations.ReadsChangeNothingAndErrHolds : Prop :=
  (∀ caps s r rest, s.host = .read r :: rest → stepWith caps s = .next { s with host := rest }) ∧
  (∀ s, hostRead .cmd s = s.cmd ∧
    (s.status = .idle → hostRead .status s = 0#8) ∧ (s.status = .busy → hostRead .status s = 1#8) ∧
    (s.status = .done → hostRead .status s = 2#8) ∧ (s.status = .error → hostRead .status s = 3#8) ∧
    (s.err = .none → hostRead .err s = 0#8) ∧ (s.err = .usage → hostRead .err s = 1#8) ∧
    (s.err = .malformed → hostRead .err s = 2#8) ∧ (s.err = .format → hostRead .err s = 3#8) ∧
    (s.err = .capacity → hostRead .err s = 4#8)) ∧
  ∀ caps s t, s.status ≠ .busy → stepWith caps s = .next t →
    t.err = s.err ∨ ∃ rest, s.host = .reset :: rest ∨ ∃ c, s.host = .start c :: rest

/-- The host's input arrives while a run's input is open (44_control.md R220); that the block takes no byte after the end
mark, and neither bytes nor a mark while no engine runs, is the model's choice (log 3). -/
def Obligations.InputArrivesWhileARunIsOpen : Prop :=
  ∀ caps s rest,
    (∀ b, s.host = .supply b :: rest → stepWith caps s = .next
      (if s.status = .busy ∧ s.inEnd = false then { s with inBytes := s.inBytes ++ [b], host := rest }
        else { s with host := rest })) ∧
    (s.host = .endInput :: rest → stepWith caps s = .next
      (if s.status = .busy then { s with inEnd := true, host := rest } else { s with host := rest }))

/-- 44_control.md R228: a run ends only by completion (R225), by an error (R226) or by RESET. -/
def Obligations.ARunEndsOnlyByCompletionErrorOrReset : Prop :=
  ∀ caps s t, Invariant s → s.status = .busy → stepWith caps s = .next t → t.status ≠ .busy →
    (t.status = .done ∧ t.phase = .halt ∧ t.err = .none ∧ t.closed = true ∧ t.inEnd = true ∧
      t.ipos = 8 * t.inBytes.length) ∨
    (t.status = .error ∧ t.phase = .halt ∧ t.err ≠ .none ∧ t.closed = true) ∨
    (t.status = .idle ∧ ∃ rest, s.host = .reset :: rest)

/-- 44_control.md R224: an engine at the end of the bytes supplied, with no end mark yet, waits. -/
def Obligations.AnEngineWaitsForInput : Prop :=
  ∀ caps s, s.status = .busy → (s.phase = .rScan ∨ s.phase = .xRead ∨ s.phase = .dLoad ∨ s.phase = .eLoad) →
    s.ipos = 8 * s.inBytes.length → s.inEnd = false → engineStep caps s = .next s

/-! ## Errors -/

/-- 60_exceptions.md R250: the abort sequence. The output's content and the working registers are left open
(R252); that `ipos` stays is read from R250 (log 7). -/
def Obligations.RaisePerformsTheAbortSequence : Prop :=
  ∀ (e : ErrCode) (s : State), ∃ t, raise e s = .next t ∧ t.err = e ∧ t.phase = .halt ∧ t.status = .error ∧
    t.closed = true ∧ t.ipos = s.ipos ∧ t.inBytes = s.inBytes.take ((s.ipos + 7) / 8) ∧ t.cmd = s.cmd ∧
    t.host = s.host ∧ t.obits.length % 8 = 0 ∧ ∀ caps, engineStep caps t = .next t

/-- 60_exceptions.md R246: which operation can raise what. -/
def Obligations.ErrorsComeFromTheirOperations : Prop :=
  ∀ caps s t, Invariant s → stepWith caps s = .next t → s.status ≠ .error → t.status = .error →
    (s.status ≠ .busy → t.err = .usage ∧ ∃ c rest, s.host = .start c :: rest) ∧
    (s.status = .busy → s.cmd = 0x00#8 → t.err = .capacity) ∧
    (s.status = .busy → s.cmd = 0x01#8 → t.err = .malformed ∨ t.err = .format ∨ t.err = .capacity) ∧
    (s.status = .busy → s.cmd = 0x00#8 ∨ s.cmd = 0x01#8)

/-! ## The run-length encoder -/

/-- 40_rle_encoder.md R122 to R125: the end test, then one input bit: a bit that differs writes the count and flips, a bit
that is the same is counted, with the escape at the `MAX`-th. -/
def Obligations.RScanTakesOneBit : Prop :=
  ∀ caps s, s.status = .busy → s.phase = .rScan → s.closed = false → s.valueCount.toNat < 127 →
    (s.inEnd = true → s.ipos = 8 * s.inBytes.length → engineStep caps s = .next { s with phase := .rFlush }) ∧
    (s.ipos < 8 * s.inBytes.length → s.inBit s.ipos ≠ s.lastValue →
      engineStep caps s = .next
        { s with
          ipos := s.ipos + 1, obits := s.obits ++ bitsOf 8 s.valueCount.toNat, lastValue := s.inBit s.ipos,
          valueCount := 1#7 }) ∧
    (s.ipos < 8 * s.inBytes.length → s.inBit s.ipos = s.lastValue →
      engineStep caps s = .next
        (if s.valueCount.toNat + 1 = 127 then
          { s with ipos := s.ipos + 1, obits := s.obits ++ bitsOf 8 0, valueCount := 0#7 }
        else { s with ipos := s.ipos + 1, valueCount := BitVec.ofNat 7 (s.valueCount.toNat + 1) }))

/-- 40_rle_encoder.md R126: the final count, unless it is 0, then completion; `lastValue` and `valueCount` are kept. -/
def Obligations.RFlushWritesTheFinalCount : Prop :=
  ∀ caps s, s.status = .busy → s.phase = .rFlush → s.closed = false →
    engineStep caps s = .next
      { s with
        obits := padToByte (s.obits ++ if s.valueCount = 0#7 then [] else bitsOf 8 s.valueCount.toNat),
        closed := true, phase := .halt, status := .done }

/-- 40_rle_encoder.md R129: every count written is 0 to 126; an engine's turn of `RCOMP` writes one count or none. -/
def Obligations.RcompWritesOnlyCountsBelowMax : Prop :=
  ∀ caps s t, Invariant s → s.status = .busy → s.cmd = 0x02#8 → engineStep caps s = .next t →
    t.valueCount.toNat ≤ 126 ∧ (t.obits = s.obits ∨ ∃ v ≤ 126, t.obits = s.obits ++ bitsOf 8 v)

/-! ## The run-length decoder -/

/-- 41_rle_decoder.md R146: the escape writes 127 bits and does not flip. Everything else is unchanged. -/
def Obligations.RleEscRepeatsWithoutFlip : Prop :=
  ∀ s : State, s.closed = false →
    exec .rleEsc s = .next { s with count := 0#8, obits := s.obits ++ List.replicate 127 s.lastValue }

/-- 41_rle_decoder.md R144, R145: a run of 1 to 255 bits, then the flip. Everything else is unchanged. -/
def Obligations.RleRunRepeatsThenFlips : Prop :=
  ∀ (n : BitVec 8) (s : State), n ≠ 0#8 → s.closed = false →
    exec (.rleRun n) s = .next
      { s with count := n, obits := s.obits ++ List.replicate n.toNat s.lastValue, lastValue := !s.lastValue }

/-- 41_rle_decoder.md R147, 42_dict_encoder.md R172, 43_dict_decoder.md R204: at the end of the input the run-length
decoder, in `D_CLOSE` the dictionary encoder, and at the padding, whatever its bits and their number, the dictionary
decoder close the output and are done. Everything else is unchanged. That the token `DICT.PAD` itself completes the run, in
whatever phase and status it is executed, is the model's reading (log 13): the spec skips the padding (R205) and closes at
the end of `E_EMIT` (R204). That `count` after the empty input, and `code` after a stream of no codes, keep their values is the
model's choice (log 17). -/
def Obligations.EnginesCloseAndComplete : Prop :=
  (∀ caps s, s.status = .busy →
    (s.phase = .xRead ∧ s.inEnd = true ∧ s.ipos = 8 * s.inBytes.length ∨ s.phase = .dClose) →
    engineStep caps s = .next
      { s with obits := padToByte s.obits, closed := true, phase := .halt, status := .done }) ∧
  ∀ (pad : BitVec 3) (s : State),
    exec (.dictPad pad) s = .next
      { s with obits := padToByte s.obits, closed := true, phase := .halt, status := .done }

/-! ## The dictionary encoder -/

/-- 42_dict_encoder.md R162 to R164: the next message byte `b`: over the capacity, `CapacityExceeded`; else it is stored,
and, where it is new, takes the next code (only then is there a code to take: `unique <= 255`, R163). At the end of the
input, on to `D_CALC`. Everything else is unchanged. -/
def Obligations.DLoadStoresAndTracksAByte : Prop :=
  (∀ (caps : Config.Caps) (s : State) (b : Byte), s.status = .busy → s.phase = .dLoad → s.ipos % 8 = 0 →
    s.inBytes[s.ipos / 8]? = some b →
    if atCap caps.msgCap s.length = true then
      ∃ t, engineStep caps s = .next t ∧ t.status = .error ∧ t.err = .capacity ∧ t.phase = .halt ∧ t.cmd = s.cmd
    else if Table.read s.seen b.toNat = 0#1 then
      s.unique.toNat < 256 → engineStep caps s = .next
        { s with
          ipos := s.ipos + 8, msg := Table.write s.msg s.length b, length := s.length + 1,
          seen := Table.write s.seen b.toNat 1#1, dict := Table.write s.dict s.unique.toNat b,
          idx := Table.write s.idx b.toNat (BitVec.ofNat 8 s.unique.toNat),
          unique := BitVec.ofNat 9 (s.unique.toNat + 1) }
    else
      engineStep caps s = .next
        { s with ipos := s.ipos + 8, msg := Table.write s.msg s.length b, length := s.length + 1 }) ∧
  ∀ caps s, s.status = .busy → s.phase = .dLoad → s.inEnd = true → s.ipos = 8 * s.inBytes.length →
    engineStep caps s = .next { s with phase := .dCalc }

/-- 42_dict_encoder.md R166, R167: code width and remainder. -/
def Obligations.DCalcComputesWidthAndRemainder : Prop :=
  ∀ caps s, s.status = .busy → s.phase = .dCalc → s.unique.toNat ≤ 256 →
    ∃ cw rem, engineStep caps s = .next { s with cw := cw, rem := rem, phase := .dHdr } ∧
      cw.toNat = max 1 (clog2 s.unique.toNat) ∧ rem.toNat = (3 + cw.toNat * s.length) % 8

/-- 42_dict_encoder.md R168, R169: the header fields, then the dictionary from entry 0. -/
def Obligations.DHdrWritesTheHeader : Prop :=
  ∀ caps s, s.status = .busy → s.phase = .dHdr → s.closed = false →
    engineStep caps s = .next
      { s with
        obits := s.obits ++ encode (.dictHdr s.rem (BitVec.ofNat 8 (s.unique.toNat % 256))), j := 0,
        phase := .dDict }

/-- 42_dict_encoder.md R170: one entry, or on to the codes. -/
def Obligations.DDictWritesOneEntry : Prop :=
  ∀ caps s, s.status = .busy → s.phase = .dDict → s.closed = false → s.unique.toNat ≤ 256 →
    engineStep caps s = .next
      (if s.j < s.unique.toNat then
        { s with obits := s.obits ++ encode (.dictEnt (Table.read s.dict s.j)), j := s.j + 1 }
      else { s with j := 0, phase := .dCode })

/-- 42_dict_encoder.md R171: one code in `cw` bits, or on to the close; the code fits, as R165 says it does. -/
def Obligations.DCodeWritesOneCode : Prop :=
  ∀ caps s, s.status = .busy → s.phase = .dCode → s.closed = false → 1 ≤ s.cw.toNat → s.cw.toNat ≤ 8 →
    (Table.read s.idx (Table.read s.msg s.j).toNat).toNat < 2 ^ s.cw.toNat →
    engineStep caps s = .next
      (if s.j < s.length then
        { s with
          obits := s.obits ++ bitsOf s.cw.toNat (Table.read s.idx (Table.read s.msg s.j).toNat).toNat, j := s.j + 1 }
      else { s with phase := .dClose })

/-! ## The dictionary decoder -/

/-- 43_dict_decoder.md R192: over the capacity, `CapacityExceeded`; else the byte goes into `ibuf`. At the end of the input,
on to `E_HDR`. Everything else is unchanged. -/
def Obligations.ELoadStoresAByte : Prop :=
  (∀ (caps : Config.Caps) (s : State) (b : Byte), s.status = .busy → s.phase = .eLoad → s.ipos % 8 = 0 →
    s.inBytes[s.ipos / 8]? = some b →
    if atCap caps.inCap s.B = true then
      ∃ t, engineStep caps s = .next t ∧ t.status = .error ∧ t.err = .capacity ∧ t.phase = .halt ∧ t.cmd = s.cmd
    else engineStep caps s = .next { s with ipos := s.ipos + 8, ibuf := Table.write s.ibuf s.B b, B := s.B + 1 }) ∧
  ∀ caps s, s.status = .busy → s.phase = .eLoad → s.inEnd = true → s.ipos = 8 * s.inBytes.length →
    engineStep caps s = .next { s with phase := .eHdr }

/-- 43_dict_decoder.md R194, R197: a stream too short for its header or its dictionary is a `MalformedStreamError`; where the
dictionary fits and its last entry is read, `E_DICT` goes on to `E_CALC` and nothing else changes. -/
def Obligations.ShortStreamsAreMalformed : Prop :=
  (∀ caps s, s.status = .busy →
    (s.phase = .eHdr ∧ 8 * s.B < 11 ∨ s.phase = .eDict ∧ 8 * s.B < 11 + 8 * s.unique.toNat) →
    ∃ t, engineStep caps s = .next t ∧ t.status = .error ∧ t.err = .malformed ∧ t.phase = .halt ∧ t.cmd = s.cmd) ∧
  ∀ caps s, s.status = .busy → s.phase = .eDict → 11 + 8 * s.unique.toNat ≤ 8 * s.B → s.unique.toNat ≤ s.j →
    engineStep caps s = .next { s with phase := .eCalc }

/-- 43_dict_decoder.md R195, R196: the header is read and `unique` resolved. Everything else is unchanged. -/
def Obligations.DictHdrResolvesUnique : Prop :=
  ∀ (rem : BitVec 3) (u : BitVec 8) (s : State),
    exec (.dictHdr rem u) s = .next
      { s with
        rem := rem, U := u,
        unique := if u ≠ 0#8 then BitVec.ofNat 9 u.toNat else if s.B = 2 then 0#9 else 256#9,
        j := 0, phase := .eDict }

/-- 43_dict_decoder.md R197: one entry of the dictionary is read. Every other entry, and everything else, is unchanged. -/
def Obligations.DictEntFillsOneEntry : Prop :=
  ∀ (b : BitVec 8) (s : State), s.j < 256 → Memory.wf s.dict →
    ∃ d, exec (.dictEnt b) s = .next { s with dict := d, j := s.j + 1 } ∧ Memory.wf d ∧
      Table.read d s.j = b ∧ ∀ k, k ≠ s.j → Table.read d k = Table.read s.dict k

/-- 43_dict_decoder.md R198 to R202, R208: the computed registers, the three checks in their order, the code count. -/
def Obligations.ECalcChecksInOrder : Prop :=
  ∀ caps s (cw pad : Nat) (payload : Int), s.status = .busy → s.phase = .eCalc → s.unique.toNat ≤ 256 →
    cw = max 1 (clog2 s.unique.toNat) → pad = (8 - s.rem.toNat) % 8 →
    payload = 8 * (s.B : Int) - pad - 11 - 8 * s.unique.toNat →
    if payload < 0 ∨ (s.unique = 0#9 ∧ payload ≠ 0) then
      ∃ t, engineStep caps s = .next t ∧ t.status = .error ∧ t.err = .format ∧ t.phase = .halt ∧ t.cmd = s.cmd
    else if payload % cw ≠ 0 then
      ∃ t, engineStep caps s = .next t ∧ t.status = .error ∧ t.err = .malformed ∧ t.phase = .halt ∧ t.cmd = s.cmd
    else
      engineStep caps s = .next
        { s with
          cw := BitVec.ofNat 4 cw, pad := BitVec.ofNat 3 pad, valid := 8 * (s.B : Int) - pad, payload := payload,
          n := (payload / cw).toNat, j := 0, phase := .eCode }

/-- 43_dict_decoder.md R203: in the validation pass a code below `unique` is passed, any other is a
`FormatInvariantViolation`; for each of the eight widths. When every code has passed, `E_CODE` goes on to the output
pass, from code 0, and nothing else changes; that with `n = 0` `code` keeps its value is the model's choice (log 17). -/
def Obligations.CodesAreValidated : Prop :=
  (∀ (s : State) (i : Instr) (c : Nat), s.phase = .eCode →
    ((∃ x, i = .dictCode1 x ∧ c = x.toNat) ∨ (∃ x, i = .dictCode2 x ∧ c = x.toNat) ∨
      (∃ x, i = .dictCode3 x ∧ c = x.toNat) ∨ (∃ x, i = .dictCode4 x ∧ c = x.toNat) ∨
      (∃ x, i = .dictCode5 x ∧ c = x.toNat) ∨ (∃ x, i = .dictCode6 x ∧ c = x.toNat) ∨
      (∃ x, i = .dictCode7 x ∧ c = x.toNat) ∨ (∃ x, i = .dictCode8 x ∧ c = x.toNat)) →
    if c < s.unique.toNat then exec i s = .next { s with code := BitVec.ofNat 8 c, j := s.j + 1 }
    else ∃ t, exec i s = .next t ∧ t.status = .error ∧ t.err = .format ∧ t.phase = .halt ∧ t.cmd = s.cmd) ∧
  ∀ caps s, s.status = .busy → s.phase = .eCode → s.n ≤ s.j →
    engineStep caps s = .next { s with j := 0, phase := .eEmit }

/-- 43_dict_decoder.md R204: in the output pass (and wherever it is not the validation pass, log 13) a code writes its
dictionary byte; for each of the eight widths. Everything else is unchanged. -/
def Obligations.CodesAreWrittenOut : Prop :=
  ∀ (s : State) (i : Instr) (c : Nat), s.phase ≠ .eCode → s.closed = false →
    ((∃ x, i = .dictCode1 x ∧ c = x.toNat) ∨ (∃ x, i = .dictCode2 x ∧ c = x.toNat) ∨
      (∃ x, i = .dictCode3 x ∧ c = x.toNat) ∨ (∃ x, i = .dictCode4 x ∧ c = x.toNat) ∨
      (∃ x, i = .dictCode5 x ∧ c = x.toNat) ∨ (∃ x, i = .dictCode6 x ∧ c = x.toNat) ∨
      (∃ x, i = .dictCode7 x ∧ c = x.toNat) ∨ (∃ x, i = .dictCode8 x ∧ c = x.toNat)) →
    exec i s = .next
      { s with
        code := BitVec.ofNat 8 c, obits := s.obits ++ bitsOf 8 (Table.read s.dict c).toNat, j := s.j + 1 }

/-- 43_dict_decoder.md R205: two streams of one length that agree on everything but the padding bits are decoded alike, to
the same message or to the same error, wherever the padding is there at all (`payload >= 0`, the check before is R199's); by
the decoder function, and by runs of `DEXP` in any schedules. -/
def Obligations.PaddingBitsAreNotExamined : Prop :=
  ∀ (a b : List Byte) (pad u : Nat), a.length = b.length → pad = padOf (fieldAt (bytesBits a) 0 3) →
    u = (resolveUnique (BitVec.ofNat 8 (fieldAt (bytesBits a) 3 8)) a.length).toNat →
    11 + 8 * u + pad ≤ 8 * a.length →
    (bytesBits a).take (8 * a.length - pad) = (bytesBits b).take (8 * a.length - pad) →
    expandDict b = expandDict a ∧
    ∀ (caps : Config.Caps) (s s' : State), Invariant s → Invariant s' → s.status ≠ .busy → s'.status ≠ .busy →
      IsSchedule 0x01#8 a s.host → IsSchedule 0x01#8 b s'.host → (∀ c, caps.inCap = some c → a.length ≤ c) →
      ∃ t t', Reaches caps s t ∧ Reaches caps s' t' ∧ t.host = [] ∧ t'.host = [] ∧ t.hasResult (expandDict a) ∧
        t'.result = t.result

/-! ## Invariants and whole-machine rules -/

/-- The invariant of Safety.lean holds after reset. -/
def Obligations.ResetMeetsTheInvariant : Prop := Invariant State.reset

/-- Every step keeps the invariant, at any capacities. -/
def Obligations.EveryStepKeepsTheInvariant : Prop :=
  (∀ caps s t, Invariant s → stepWith caps s = .next t → Invariant t) ∧ ∀ s t, Invariant s → step s = .next t → Invariant t

/-- From the invariant, no step ends in a fault or a refusal: every precondition the spec puts on its operations is met
wherever the engines use them (20_memory.md R69, R77, R78; 43_dict_decoder.md R193). -/
def Obligations.NoStepStopsTheMachine : Prop :=
  (∀ caps s, Invariant s → ∃ t, stepWith caps s = .next t) ∧ ∀ s, Invariant s → ∃ t, step s = .next t

/-- While no error is taken and no RESET or START is accepted, the output only grows (20_memory.md R68) and the read
position only moves forward (10_state.md R26). -/
def Obligations.StreamsOnlyMoveForward : Prop :=
  ∀ caps s t, engineStep caps s = .next t → s.ipos ≤ t.ipos ∧ (t.status ≠ .error → s.obits <+: t.obits)

/-- 10_state.md R30: on an engine's turn that takes no error, only the run-length engines change `lastValue`. -/
def Obligations.LastValueBelongsToTheRunLengthEngines : Prop :=
  ∀ caps s t, s.status = .busy → engineStep caps s = .next t → t.status ≠ .error → t.lastValue ≠ s.lastValue →
    t.lastValue = (!s.lastValue) ∧ (s.phase = .rScan ∨ s.phase = .xRead)

/-- 70_reset_and_hazards.md R281: the dictionary engines write nothing before the end of the input is marked. -/
def Obligations.NoDictionaryOutputBeforeTheEndOfInput : Prop :=
  ∀ s, Invariant s → s.status = .busy → s.cmd = 0x00#8 ∨ s.cmd = 0x01#8 → s.inEnd = false → s.obits = []

/-- 44_control.md R232: from any two states with no engine running, the same command byte and the same input, each in a
schedule of its own, end with the same `STATUS`, `ERR` and `CMD` and the same result; and the same START and the same later
turns of the host, whatever they are, give the same ones after any number of steps. -/
def Obligations.ResultsDependOnCommandAndInputOnly : Prop :=
  (∀ caps s₁ s₂ c input, Invariant s₁ → Invariant s₂ → s₁.status ≠ .busy → s₂.status ≠ .busy →
    IsSchedule c input s₁.host → IsSchedule c input s₂.host →
    ∃ t₁ t₂, Reaches caps s₁ t₁ ∧ Reaches caps s₂ t₂ ∧ t₁.host = [] ∧ t₂.host = [] ∧ t₁.status ≠ .busy ∧
      t₁.status = t₂.status ∧ t₁.err = t₂.err ∧ t₁.cmd = t₂.cmd ∧ t₁.result = t₂.result) ∧
  ∀ caps s₁ s₂ c rest k, Invariant s₁ → Invariant s₂ → s₁.status ≠ .busy → s₂.status ≠ .busy →
    s₁.host = .start c :: rest → s₂.host = .start c :: rest →
    ∃ t₁ t₂, runWith caps (k + 1) s₁ = .next t₁ ∧ runWith caps (k + 1) s₂ = .next t₂ ∧
      t₁.status = t₂.status ∧ t₁.err = t₂.err ∧ t₁.cmd = t₂.cmd ∧ t₁.result = t₂.result

/-! ## The four operations -/

/-- 41_rle_decoder.md R149: a run of `REXP`, in any schedule, computes the decoder function, with the end state the rule
gives. -/
def Obligations.RexpComputesTheDecoderFunction : Prop :=
  ∀ (caps : Config.Caps) (s : State) (input : List Byte), s.status ≠ .busy → IsSchedule 0x03#8 input s.host →
    ∃ t, Reaches caps s t ∧ t.host = [] ∧ t.status = .done ∧ t.err = .none ∧
      t.obits = padToByte (rexpBits false input) ∧
      t.lastValue = input.foldl (fun v c => if c = 0#8 then v else !v) false ∧
      (∀ c, input.getLast? = some c → t.count = c) ∧ t.ipos = 8 * input.length

/-- 40_rle_encoder.md R130: a run of `RCOMP`, in any schedule, writes the counts of the closed form, with the end state the
rule gives. -/
def Obligations.RcompWritesTheClosedForm : Prop :=
  ∀ (caps : Config.Caps) (s : State) (input : List Byte) (v : Bool) (Ls : List Nat), s.status ≠ .busy →
    IsSchedule 0x02#8 input s.host → (∀ L ∈ Ls, 0 < L) → bytesBits input = expandRuns v Ls →
    ∃ t, Reaches caps s t ∧ t.host = [] ∧ t.status = .done ∧ t.err = .none ∧
      t.obits = (rcompCounts v Ls).flatMap (bitsOf 8) ∧
      t.lastValue = (if Ls = [] then false else if Ls.length % 2 = 1 then v else !v) ∧
      t.valueCount.toNat = (Ls.getLast?.getD 0) % 127 ∧ t.ipos = 8 * input.length

/-- 42_dict_encoder.md R173: a run of `DCOMP`, in any schedule, on a message that fits writes the stream of 30_encoding.md
R98, closed. -/
def Obligations.DcompWritesTheDictionaryStream : Prop :=
  ∀ (caps : Config.Caps) (s : State) (m : List Byte), Invariant s → s.status ≠ .busy → IsSchedule 0x00#8 m s.host →
    (∀ c, caps.msgCap = some c → m.length ≤ c) →
    ∃ t, Reaches caps s t ∧ t.host = [] ∧ t.status = .done ∧ t.err = .none ∧ t.obits = padToByte (dictStream m) ∧
      t.unique.toNat = (firstOccurrences m).length ∧ t.length = m.length ∧
      (dictStream m).length = 11 + 8 * t.unique.toNat + t.cw.toNat * t.length ∧
      (dictStream m).length % 8 = t.rem.toNat ∧
      t.outBytes.length = ((dictStream m).length + padOf t.rem.toNat) / 8

/-- 43_dict_decoder.md R208, R211: a run of `DEXP`, in any schedule, on a stream that fits ends with the decoder function's
result, the message or the first error in the order of the checks. That `ipos` is at the end of the stream after an error
too is the model's reading of 60_exceptions.md R250 (log 7): R211 says it of success only, and R252 leaves it open. -/
def Obligations.DexpComputesTheDecoderFunction : Prop :=
  ∀ (caps : Config.Caps) (s : State) (stream : List Byte), Invariant s → s.status ≠ .busy →
    IsSchedule 0x01#8 stream s.host → (∀ c, caps.inCap = some c → stream.length ≤ c) →
    ∃ t, Reaches caps s t ∧ t.host = [] ∧ t.ipos = 8 * stream.length ∧ t.hasResult (expandDict stream)

/-- 43_dict_decoder.md R209: `DEXP(DCOMP(m)) = m`, and both runs, in any schedules, are done, for a message and an encoding
that fit. -/
def Obligations.DictionaryRoundTrip : Prop :=
  ∀ (caps : Config.Caps) (s : State) (m : List Byte), Invariant s → s.status ≠ .busy → IsSchedule 0x00#8 m s.host →
    (∀ c, caps.msgCap = some c → m.length ≤ c) →
    ∃ t, Reaches caps s t ∧ t.host = [] ∧ t.status = .done ∧
      ((∀ c, caps.inCap = some c → t.outBytes.length ≤ c) →
        ∀ s', Invariant s' → s'.status ≠ .busy → IsSchedule 0x01#8 t.outBytes s'.host →
          ∃ u, Reaches caps s' u ∧ u.host = [] ∧ u.result = some (.done, .none, some m))

/-- 41_rle_decoder.md R150: decoding the counts of a bit sequence gives it back exactly on the round-trip domain, and so,
for an input of whole bytes, does `REXP` of the output of `RCOMP`, in any schedules. -/
def Obligations.RunLengthRoundTripExactlyOnItsDomain : Prop :=
  (∀ (v : Bool) (Ls : List Nat), (∀ L ∈ Ls, 0 < L) →
    (rexpBits false ((rcompCounts v Ls).map (BitVec.ofNat 8)) = expandRuns v Ls ↔ RunLengthDomain v Ls)) ∧
  ∀ (caps : Config.Caps) (s : State) (b : List Byte) (v : Bool) (Ls : List Nat), s.status ≠ .busy →
    IsSchedule 0x02#8 b s.host → (∀ L ∈ Ls, 0 < L) → bytesBits b = expandRuns v Ls →
    ∃ t, Reaches caps s t ∧ t.host = [] ∧ t.status = .done ∧
      ∀ s', s'.status ≠ .busy → IsSchedule 0x03#8 t.outBytes s'.host →
        ∃ u, Reaches caps s' u ∧ u.host = [] ∧ u.status = .done ∧ (u.outBytes = b ↔ RunLengthDomain v Ls)
end

