-- ==== Sys2Proof/Laws/Bits.lean ====
section
/-! SUPPORT. The laws of bit fields: `natOf` and `bitsOf` are inverse on fields of one width. -/

namespace Sys2Proof

@[simp] theorem length_bitsOf (n v : Nat) : (bitsOf n v).length = n := by
  induction n with
  | zero => rfl
  | succ n ih => simp [bitsOf, ih]

@[simp] theorem bitsOf_zero (v : Nat) : bitsOf 0 v = [] := rfl

@[simp] theorem length_byteBits (b : Byte) : (byteBits b).length = 8 := length_bitsOf 8 _

theorem testBit_toNat_mod (n v : Nat) : (v.testBit n).toNat * 2 ^ n + v % 2 ^ n = v % 2 ^ (n + 1) := by
  rw [Nat.testBit_eq_decide_div_mod_eq, Nat.pow_succ, Nat.mod_mul]
  rcases Nat.mod_two_eq_zero_or_one (v / 2 ^ n) with h | h <;> simp [h, Nat.add_comm]

theorem natOf_bitsOf (n v : Nat) : natOf (bitsOf n v) = v % 2 ^ n := by
  induction n with
  | zero => simp [bitsOf, natOf, Nat.mod_one]
  | succ n ih => rw [bitsOf, natOf, length_bitsOf, ih, testBit_toNat_mod]

theorem natOf_bitsOf_of_lt {n v : Nat} (h : v < 2 ^ n) : natOf (bitsOf n v) = v := by
  rw [natOf_bitsOf, Nat.mod_eq_of_lt h]

theorem natOf_lt (bs : List Bool) : natOf bs < 2 ^ bs.length := by
  induction bs with
  | nil => simp [natOf]
  | cons b bs ih =>
    rw [natOf, List.length_cons, Nat.pow_succ]
    cases b <;> simp <;> omega

theorem bitsOf_mod (n v : Nat) : bitsOf n (v % 2 ^ n) = bitsOf n v := by
  suffices h : ∀ k ≤ n, bitsOf k (v % 2 ^ n) = bitsOf k v from h n (Nat.le_refl n)
  intro k hk
  induction k with
  | zero => rfl
  | succ k ih => rw [bitsOf, bitsOf, ih (by omega), Nat.testBit_mod_two_pow]; simp [show k < n by omega]

theorem bitsOf_natOf (bs : List Bool) : bitsOf bs.length (natOf bs) = bs := by
  induction bs with
  | nil => rfl
  | cons b bs ih =>
    rw [List.length_cons, bitsOf, natOf]
    congr 1
    · have := natOf_lt bs
      rw [Nat.testBit_eq_decide_div_mod_eq]
      cases b <;> simp [Nat.div_eq_of_lt this, Nat.add_div_left]
    · rw [← bitsOf_mod, Nat.mul_comm, Nat.mul_add_mod, Nat.mod_eq_of_lt (natOf_lt bs), ih]

@[simp] theorem length_bytesBits (bs : List Byte) : (bytesBits bs).length = 8 * bs.length := by
  induction bs with
  | nil => rfl
  | cons b bs ih =>
    rw [bytesBits, List.flatMap_cons, List.length_append, length_byteBits, List.length_cons]
    rw [bytesBits] at ih
    omega

theorem takeField_append (bs rest : List Bool) : takeField bs.length (bs ++ rest) = some (natOf bs, rest) := by
  simp [takeField]

theorem takeField_bitsOf (n v : Nat) (rest : List Bool) :
    takeField n (bitsOf n v ++ rest) = some (v % 2 ^ n, rest) := by
  have h := takeField_append (bitsOf n v) rest
  rwa [length_bitsOf, natOf_bitsOf] at h

theorem takeField_eq_none {n : Nat} {bits : List Bool} : takeField n bits = none ↔ bits.length < n := by
  simp [takeField]

end Sys2Proof
end

