-- ==== Sys2Proof/Laws/State.lean ====
section
/-! SUPPORT. One lemma per field per update of the state, so that no later proof unfolds a record update. The fields an
error leaves unspecified have none: what they hold is the free value of their definition (60_exceptions.md R252). -/

namespace Sys2Proof.Machine

/-! ## `flip` -/
@[simp] theorem flip_cmd (s : State) : s.flip.cmd = s.cmd := rfl
@[simp] theorem flip_status (s : State) : s.flip.status = s.status := rfl
@[simp] theorem flip_err (s : State) : s.flip.err = s.err := rfl
@[simp] theorem flip_phase (s : State) : s.flip.phase = s.phase := rfl
@[simp] theorem flip_inBytes (s : State) : s.flip.inBytes = s.inBytes := rfl
@[simp] theorem flip_inEnd (s : State) : s.flip.inEnd = s.inEnd := rfl
@[simp] theorem flip_ipos (s : State) : s.flip.ipos = s.ipos := rfl
@[simp] theorem flip_obits (s : State) : s.flip.obits = s.obits := rfl
@[simp] theorem flip_closed (s : State) : s.flip.closed = s.closed := rfl
@[simp] theorem flip_lastValue (s : State) : s.flip.lastValue = !s.lastValue := rfl
@[simp] theorem flip_valueCount (s : State) : s.flip.valueCount = s.valueCount := rfl
@[simp] theorem flip_count (s : State) : s.flip.count = s.count := rfl
@[simp] theorem flip_seen (s : State) : s.flip.seen = s.seen := rfl
@[simp] theorem flip_dict (s : State) : s.flip.dict = s.dict := rfl
@[simp] theorem flip_idx (s : State) : s.flip.idx = s.idx := rfl
@[simp] theorem flip_unique (s : State) : s.flip.unique = s.unique := rfl
@[simp] theorem flip_length (s : State) : s.flip.length = s.length := rfl
@[simp] theorem flip_msg (s : State) : s.flip.msg = s.msg := rfl
@[simp] theorem flip_cw (s : State) : s.flip.cw = s.cw := rfl
@[simp] theorem flip_rem (s : State) : s.flip.rem = s.rem := rfl
@[simp] theorem flip_j (s : State) : s.flip.j = s.j := rfl
@[simp] theorem flip_ibuf (s : State) : s.flip.ibuf = s.ibuf := rfl
@[simp] theorem flip_B (s : State) : s.flip.B = s.B := rfl
@[simp] theorem flip_U (s : State) : s.flip.U = s.U := rfl
@[simp] theorem flip_pad (s : State) : s.flip.pad = s.pad := rfl
@[simp] theorem flip_valid (s : State) : s.flip.valid = s.valid := rfl
@[simp] theorem flip_payload (s : State) : s.flip.payload = s.payload := rfl
@[simp] theorem flip_n (s : State) : s.flip.n = s.n := rfl
@[simp] theorem flip_code (s : State) : s.flip.code = s.code := rfl
@[simp] theorem flip_host (s : State) : s.flip.host = s.host := rfl
@[simp] theorem flip_free (s : State) : s.flip.free = s.free := rfl
@[simp] theorem flip_inEmpty (s : State) : s.flip.inEmpty = s.inEmpty := rfl
@[simp] theorem flip_inBit (s : State) (k : Nat) : s.flip.inBit k = s.inBit k := rfl

/-! ## `clearLastValue` -/
@[simp] theorem clearLastValue_cmd (s : State) : s.clearLastValue.cmd = s.cmd := rfl
@[simp] theorem clearLastValue_status (s : State) : s.clearLastValue.status = s.status := rfl
@[simp] theorem clearLastValue_err (s : State) : s.clearLastValue.err = s.err := rfl
@[simp] theorem clearLastValue_phase (s : State) : s.clearLastValue.phase = s.phase := rfl
@[simp] theorem clearLastValue_inBytes (s : State) : s.clearLastValue.inBytes = s.inBytes := rfl
@[simp] theorem clearLastValue_inEnd (s : State) : s.clearLastValue.inEnd = s.inEnd := rfl
@[simp] theorem clearLastValue_ipos (s : State) : s.clearLastValue.ipos = s.ipos := rfl
@[simp] theorem clearLastValue_obits (s : State) : s.clearLastValue.obits = s.obits := rfl
@[simp] theorem clearLastValue_closed (s : State) : s.clearLastValue.closed = s.closed := rfl
@[simp] theorem clearLastValue_lastValue (s : State) : s.clearLastValue.lastValue = false := rfl
@[simp] theorem clearLastValue_valueCount (s : State) : s.clearLastValue.valueCount = s.valueCount := rfl
@[simp] theorem clearLastValue_count (s : State) : s.clearLastValue.count = s.count := rfl
@[simp] theorem clearLastValue_seen (s : State) : s.clearLastValue.seen = s.seen := rfl
@[simp] theorem clearLastValue_dict (s : State) : s.clearLastValue.dict = s.dict := rfl
@[simp] theorem clearLastValue_idx (s : State) : s.clearLastValue.idx = s.idx := rfl
@[simp] theorem clearLastValue_unique (s : State) : s.clearLastValue.unique = s.unique := rfl
@[simp] theorem clearLastValue_length (s : State) : s.clearLastValue.length = s.length := rfl
@[simp] theorem clearLastValue_msg (s : State) : s.clearLastValue.msg = s.msg := rfl
@[simp] theorem clearLastValue_cw (s : State) : s.clearLastValue.cw = s.cw := rfl
@[simp] theorem clearLastValue_rem (s : State) : s.clearLastValue.rem = s.rem := rfl
@[simp] theorem clearLastValue_j (s : State) : s.clearLastValue.j = s.j := rfl
@[simp] theorem clearLastValue_ibuf (s : State) : s.clearLastValue.ibuf = s.ibuf := rfl
@[simp] theorem clearLastValue_B (s : State) : s.clearLastValue.B = s.B := rfl
@[simp] theorem clearLastValue_U (s : State) : s.clearLastValue.U = s.U := rfl
@[simp] theorem clearLastValue_pad (s : State) : s.clearLastValue.pad = s.pad := rfl
@[simp] theorem clearLastValue_valid (s : State) : s.clearLastValue.valid = s.valid := rfl
@[simp] theorem clearLastValue_payload (s : State) : s.clearLastValue.payload = s.payload := rfl
@[simp] theorem clearLastValue_n (s : State) : s.clearLastValue.n = s.n := rfl
@[simp] theorem clearLastValue_code (s : State) : s.clearLastValue.code = s.code := rfl
@[simp] theorem clearLastValue_host (s : State) : s.clearLastValue.host = s.host := rfl
@[simp] theorem clearLastValue_free (s : State) : s.clearLastValue.free = s.free := rfl
@[simp] theorem clearLastValue_inEmpty (s : State) : s.clearLastValue.inEmpty = s.inEmpty := rfl
@[simp] theorem clearLastValue_inBit (s : State) (k : Nat) : s.clearLastValue.inBit k = s.inBit k := rfl

/-! ## `setPhase` -/
@[simp] theorem setPhase_cmd (p : Phase) (s : State) : (s.setPhase p).cmd = s.cmd := rfl
@[simp] theorem setPhase_status (p : Phase) (s : State) : (s.setPhase p).status = s.status := rfl
@[simp] theorem setPhase_err (p : Phase) (s : State) : (s.setPhase p).err = s.err := rfl
@[simp] theorem setPhase_phase (p : Phase) (s : State) : (s.setPhase p).phase = p := rfl
@[simp] theorem setPhase_inBytes (p : Phase) (s : State) : (s.setPhase p).inBytes = s.inBytes := rfl
@[simp] theorem setPhase_inEnd (p : Phase) (s : State) : (s.setPhase p).inEnd = s.inEnd := rfl
@[simp] theorem setPhase_ipos (p : Phase) (s : State) : (s.setPhase p).ipos = s.ipos := rfl
@[simp] theorem setPhase_obits (p : Phase) (s : State) : (s.setPhase p).obits = s.obits := rfl
@[simp] theorem setPhase_closed (p : Phase) (s : State) : (s.setPhase p).closed = s.closed := rfl
@[simp] theorem setPhase_lastValue (p : Phase) (s : State) : (s.setPhase p).lastValue = s.lastValue := rfl
@[simp] theorem setPhase_valueCount (p : Phase) (s : State) : (s.setPhase p).valueCount = s.valueCount := rfl
@[simp] theorem setPhase_count (p : Phase) (s : State) : (s.setPhase p).count = s.count := rfl
@[simp] theorem setPhase_seen (p : Phase) (s : State) : (s.setPhase p).seen = s.seen := rfl
@[simp] theorem setPhase_dict (p : Phase) (s : State) : (s.setPhase p).dict = s.dict := rfl
@[simp] theorem setPhase_idx (p : Phase) (s : State) : (s.setPhase p).idx = s.idx := rfl
@[simp] theorem setPhase_unique (p : Phase) (s : State) : (s.setPhase p).unique = s.unique := rfl
@[simp] theorem setPhase_length (p : Phase) (s : State) : (s.setPhase p).length = s.length := rfl
@[simp] theorem setPhase_msg (p : Phase) (s : State) : (s.setPhase p).msg = s.msg := rfl
@[simp] theorem setPhase_cw (p : Phase) (s : State) : (s.setPhase p).cw = s.cw := rfl
@[simp] theorem setPhase_rem (p : Phase) (s : State) : (s.setPhase p).rem = s.rem := rfl
@[simp] theorem setPhase_j (p : Phase) (s : State) : (s.setPhase p).j = s.j := rfl
@[simp] theorem setPhase_ibuf (p : Phase) (s : State) : (s.setPhase p).ibuf = s.ibuf := rfl
@[simp] theorem setPhase_B (p : Phase) (s : State) : (s.setPhase p).B = s.B := rfl
@[simp] theorem setPhase_U (p : Phase) (s : State) : (s.setPhase p).U = s.U := rfl
@[simp] theorem setPhase_pad (p : Phase) (s : State) : (s.setPhase p).pad = s.pad := rfl
@[simp] theorem setPhase_valid (p : Phase) (s : State) : (s.setPhase p).valid = s.valid := rfl
@[simp] theorem setPhase_payload (p : Phase) (s : State) : (s.setPhase p).payload = s.payload := rfl
@[simp] theorem setPhase_n (p : Phase) (s : State) : (s.setPhase p).n = s.n := rfl
@[simp] theorem setPhase_code (p : Phase) (s : State) : (s.setPhase p).code = s.code := rfl
@[simp] theorem setPhase_host (p : Phase) (s : State) : (s.setPhase p).host = s.host := rfl
@[simp] theorem setPhase_free (p : Phase) (s : State) : (s.setPhase p).free = s.free := rfl
@[simp] theorem setPhase_inEmpty (p : Phase) (s : State) : (s.setPhase p).inEmpty = s.inEmpty := rfl
@[simp] theorem setPhase_inBit (p : Phase) (s : State) (k : Nat) : (s.setPhase p).inBit k = s.inBit k := rfl

/-! ## `setStatus` -/
@[simp] theorem setStatus_cmd (v : Status) (s : State) : (s.setStatus v).cmd = s.cmd := rfl
@[simp] theorem setStatus_status (v : Status) (s : State) : (s.setStatus v).status = v := rfl
@[simp] theorem setStatus_err (v : Status) (s : State) : (s.setStatus v).err = s.err := rfl
@[simp] theorem setStatus_phase (v : Status) (s : State) : (s.setStatus v).phase = s.phase := rfl
@[simp] theorem setStatus_inBytes (v : Status) (s : State) : (s.setStatus v).inBytes = s.inBytes := rfl
@[simp] theorem setStatus_inEnd (v : Status) (s : State) : (s.setStatus v).inEnd = s.inEnd := rfl
@[simp] theorem setStatus_ipos (v : Status) (s : State) : (s.setStatus v).ipos = s.ipos := rfl
@[simp] theorem setStatus_obits (v : Status) (s : State) : (s.setStatus v).obits = s.obits := rfl
@[simp] theorem setStatus_closed (v : Status) (s : State) : (s.setStatus v).closed = s.closed := rfl
@[simp] theorem setStatus_lastValue (v : Status) (s : State) : (s.setStatus v).lastValue = s.lastValue := rfl
@[simp] theorem setStatus_valueCount (v : Status) (s : State) : (s.setStatus v).valueCount = s.valueCount := rfl
@[simp] theorem setStatus_count (v : Status) (s : State) : (s.setStatus v).count = s.count := rfl
@[simp] theorem setStatus_seen (v : Status) (s : State) : (s.setStatus v).seen = s.seen := rfl
@[simp] theorem setStatus_dict (v : Status) (s : State) : (s.setStatus v).dict = s.dict := rfl
@[simp] theorem setStatus_idx (v : Status) (s : State) : (s.setStatus v).idx = s.idx := rfl
@[simp] theorem setStatus_unique (v : Status) (s : State) : (s.setStatus v).unique = s.unique := rfl
@[simp] theorem setStatus_length (v : Status) (s : State) : (s.setStatus v).length = s.length := rfl
@[simp] theorem setStatus_msg (v : Status) (s : State) : (s.setStatus v).msg = s.msg := rfl
@[simp] theorem setStatus_cw (v : Status) (s : State) : (s.setStatus v).cw = s.cw := rfl
@[simp] theorem setStatus_rem (v : Status) (s : State) : (s.setStatus v).rem = s.rem := rfl
@[simp] theorem setStatus_j (v : Status) (s : State) : (s.setStatus v).j = s.j := rfl
@[simp] theorem setStatus_ibuf (v : Status) (s : State) : (s.setStatus v).ibuf = s.ibuf := rfl
@[simp] theorem setStatus_B (v : Status) (s : State) : (s.setStatus v).B = s.B := rfl
@[simp] theorem setStatus_U (v : Status) (s : State) : (s.setStatus v).U = s.U := rfl
@[simp] theorem setStatus_pad (v : Status) (s : State) : (s.setStatus v).pad = s.pad := rfl
@[simp] theorem setStatus_valid (v : Status) (s : State) : (s.setStatus v).valid = s.valid := rfl
@[simp] theorem setStatus_payload (v : Status) (s : State) : (s.setStatus v).payload = s.payload := rfl
@[simp] theorem setStatus_n (v : Status) (s : State) : (s.setStatus v).n = s.n := rfl
@[simp] theorem setStatus_code (v : Status) (s : State) : (s.setStatus v).code = s.code := rfl
@[simp] theorem setStatus_host (v : Status) (s : State) : (s.setStatus v).host = s.host := rfl
@[simp] theorem setStatus_free (v : Status) (s : State) : (s.setStatus v).free = s.free := rfl
@[simp] theorem setStatus_inEmpty (v : Status) (s : State) : (s.setStatus v).inEmpty = s.inEmpty := rfl
@[simp] theorem setStatus_inBit (v : Status) (s : State) (k : Nat) : (s.setStatus v).inBit k = s.inBit k := rfl

/-! ## `setErr` -/
@[simp] theorem setErr_cmd (e : ErrCode) (s : State) : (s.setErr e).cmd = s.cmd := rfl
@[simp] theorem setErr_status (e : ErrCode) (s : State) : (s.setErr e).status = s.status := rfl
@[simp] theorem setErr_err (e : ErrCode) (s : State) : (s.setErr e).err = e := rfl
@[simp] theorem setErr_phase (e : ErrCode) (s : State) : (s.setErr e).phase = s.phase := rfl
@[simp] theorem setErr_inBytes (e : ErrCode) (s : State) : (s.setErr e).inBytes = s.inBytes := rfl
@[simp] theorem setErr_inEnd (e : ErrCode) (s : State) : (s.setErr e).inEnd = s.inEnd := rfl
@[simp] theorem setErr_ipos (e : ErrCode) (s : State) : (s.setErr e).ipos = s.ipos := rfl
@[simp] theorem setErr_obits (e : ErrCode) (s : State) : (s.setErr e).obits = s.obits := rfl
@[simp] theorem setErr_closed (e : ErrCode) (s : State) : (s.setErr e).closed = s.closed := rfl
@[simp] theorem setErr_lastValue (e : ErrCode) (s : State) : (s.setErr e).lastValue = s.lastValue := rfl
@[simp] theorem setErr_valueCount (e : ErrCode) (s : State) : (s.setErr e).valueCount = s.valueCount := rfl
@[simp] theorem setErr_count (e : ErrCode) (s : State) : (s.setErr e).count = s.count := rfl
@[simp] theorem setErr_seen (e : ErrCode) (s : State) : (s.setErr e).seen = s.seen := rfl
@[simp] theorem setErr_dict (e : ErrCode) (s : State) : (s.setErr e).dict = s.dict := rfl
@[simp] theorem setErr_idx (e : ErrCode) (s : State) : (s.setErr e).idx = s.idx := rfl
@[simp] theorem setErr_unique (e : ErrCode) (s : State) : (s.setErr e).unique = s.unique := rfl
@[simp] theorem setErr_length (e : ErrCode) (s : State) : (s.setErr e).length = s.length := rfl
@[simp] theorem setErr_msg (e : ErrCode) (s : State) : (s.setErr e).msg = s.msg := rfl
@[simp] theorem setErr_cw (e : ErrCode) (s : State) : (s.setErr e).cw = s.cw := rfl
@[simp] theorem setErr_rem (e : ErrCode) (s : State) : (s.setErr e).rem = s.rem := rfl
@[simp] theorem setErr_j (e : ErrCode) (s : State) : (s.setErr e).j = s.j := rfl
@[simp] theorem setErr_ibuf (e : ErrCode) (s : State) : (s.setErr e).ibuf = s.ibuf := rfl
@[simp] theorem setErr_B (e : ErrCode) (s : State) : (s.setErr e).B = s.B := rfl
@[simp] theorem setErr_U (e : ErrCode) (s : State) : (s.setErr e).U = s.U := rfl
@[simp] theorem setErr_pad (e : ErrCode) (s : State) : (s.setErr e).pad = s.pad := rfl
@[simp] theorem setErr_valid (e : ErrCode) (s : State) : (s.setErr e).valid = s.valid := rfl
@[simp] theorem setErr_payload (e : ErrCode) (s : State) : (s.setErr e).payload = s.payload := rfl
@[simp] theorem setErr_n (e : ErrCode) (s : State) : (s.setErr e).n = s.n := rfl
@[simp] theorem setErr_code (e : ErrCode) (s : State) : (s.setErr e).code = s.code := rfl
@[simp] theorem setErr_host (e : ErrCode) (s : State) : (s.setErr e).host = s.host := rfl
@[simp] theorem setErr_free (e : ErrCode) (s : State) : (s.setErr e).free = s.free := rfl
@[simp] theorem setErr_inEmpty (e : ErrCode) (s : State) : (s.setErr e).inEmpty = s.inEmpty := rfl
@[simp] theorem setErr_inBit (e : ErrCode) (s : State) (k : Nat) : (s.setErr e).inBit k = s.inBit k := rfl

/-! ## `advance` -/
@[simp] theorem advance_cmd (m : Nat) (s : State) : (s.advance m).cmd = s.cmd := rfl
@[simp] theorem advance_status (m : Nat) (s : State) : (s.advance m).status = s.status := rfl
@[simp] theorem advance_err (m : Nat) (s : State) : (s.advance m).err = s.err := rfl
@[simp] theorem advance_phase (m : Nat) (s : State) : (s.advance m).phase = s.phase := rfl
@[simp] theorem advance_inBytes (m : Nat) (s : State) : (s.advance m).inBytes = s.inBytes := rfl
@[simp] theorem advance_inEnd (m : Nat) (s : State) : (s.advance m).inEnd = s.inEnd := rfl
@[simp] theorem advance_ipos (m : Nat) (s : State) : (s.advance m).ipos = s.ipos + m := rfl
@[simp] theorem advance_obits (m : Nat) (s : State) : (s.advance m).obits = s.obits := rfl
@[simp] theorem advance_closed (m : Nat) (s : State) : (s.advance m).closed = s.closed := rfl
@[simp] theorem advance_lastValue (m : Nat) (s : State) : (s.advance m).lastValue = s.lastValue := rfl
@[simp] theorem advance_valueCount (m : Nat) (s : State) : (s.advance m).valueCount = s.valueCount := rfl
@[simp] theorem advance_count (m : Nat) (s : State) : (s.advance m).count = s.count := rfl
@[simp] theorem advance_seen (m : Nat) (s : State) : (s.advance m).seen = s.seen := rfl
@[simp] theorem advance_dict (m : Nat) (s : State) : (s.advance m).dict = s.dict := rfl
@[simp] theorem advance_idx (m : Nat) (s : State) : (s.advance m).idx = s.idx := rfl
@[simp] theorem advance_unique (m : Nat) (s : State) : (s.advance m).unique = s.unique := rfl
@[simp] theorem advance_length (m : Nat) (s : State) : (s.advance m).length = s.length := rfl
@[simp] theorem advance_msg (m : Nat) (s : State) : (s.advance m).msg = s.msg := rfl
@[simp] theorem advance_cw (m : Nat) (s : State) : (s.advance m).cw = s.cw := rfl
@[simp] theorem advance_rem (m : Nat) (s : State) : (s.advance m).rem = s.rem := rfl
@[simp] theorem advance_j (m : Nat) (s : State) : (s.advance m).j = s.j := rfl
@[simp] theorem advance_ibuf (m : Nat) (s : State) : (s.advance m).ibuf = s.ibuf := rfl
@[simp] theorem advance_B (m : Nat) (s : State) : (s.advance m).B = s.B := rfl
@[simp] theorem advance_U (m : Nat) (s : State) : (s.advance m).U = s.U := rfl
@[simp] theorem advance_pad (m : Nat) (s : State) : (s.advance m).pad = s.pad := rfl
@[simp] theorem advance_valid (m : Nat) (s : State) : (s.advance m).valid = s.valid := rfl
@[simp] theorem advance_payload (m : Nat) (s : State) : (s.advance m).payload = s.payload := rfl
@[simp] theorem advance_n (m : Nat) (s : State) : (s.advance m).n = s.n := rfl
@[simp] theorem advance_code (m : Nat) (s : State) : (s.advance m).code = s.code := rfl
@[simp] theorem advance_host (m : Nat) (s : State) : (s.advance m).host = s.host := rfl
@[simp] theorem advance_free (m : Nat) (s : State) : (s.advance m).free = s.free := rfl

/-! ## `emit` -/
@[simp] theorem emit_cmd (bs : List Bool) (s : State) : (s.emit bs).cmd = s.cmd := rfl
@[simp] theorem emit_status (bs : List Bool) (s : State) : (s.emit bs).status = s.status := rfl
@[simp] theorem emit_err (bs : List Bool) (s : State) : (s.emit bs).err = s.err := rfl
@[simp] theorem emit_phase (bs : List Bool) (s : State) : (s.emit bs).phase = s.phase := rfl
@[simp] theorem emit_inBytes (bs : List Bool) (s : State) : (s.emit bs).inBytes = s.inBytes := rfl
@[simp] theorem emit_inEnd (bs : List Bool) (s : State) : (s.emit bs).inEnd = s.inEnd := rfl
@[simp] theorem emit_ipos (bs : List Bool) (s : State) : (s.emit bs).ipos = s.ipos := rfl
@[simp] theorem emit_obits (bs : List Bool) (s : State) : (s.emit bs).obits = s.obits ++ bs := rfl
@[simp] theorem emit_closed (bs : List Bool) (s : State) : (s.emit bs).closed = s.closed := rfl
@[simp] theorem emit_lastValue (bs : List Bool) (s : State) : (s.emit bs).lastValue = s.lastValue := rfl
@[simp] theorem emit_valueCount (bs : List Bool) (s : State) : (s.emit bs).valueCount = s.valueCount := rfl
@[simp] theorem emit_count (bs : List Bool) (s : State) : (s.emit bs).count = s.count := rfl
@[simp] theorem emit_seen (bs : List Bool) (s : State) : (s.emit bs).seen = s.seen := rfl
@[simp] theorem emit_dict (bs : List Bool) (s : State) : (s.emit bs).dict = s.dict := rfl
@[simp] theorem emit_idx (bs : List Bool) (s : State) : (s.emit bs).idx = s.idx := rfl
@[simp] theorem emit_unique (bs : List Bool) (s : State) : (s.emit bs).unique = s.unique := rfl
@[simp] theorem emit_length (bs : List Bool) (s : State) : (s.emit bs).length = s.length := rfl
@[simp] theorem emit_msg (bs : List Bool) (s : State) : (s.emit bs).msg = s.msg := rfl
@[simp] theorem emit_cw (bs : List Bool) (s : State) : (s.emit bs).cw = s.cw := rfl
@[simp] theorem emit_rem (bs : List Bool) (s : State) : (s.emit bs).rem = s.rem := rfl
@[simp] theorem emit_j (bs : List Bool) (s : State) : (s.emit bs).j = s.j := rfl
@[simp] theorem emit_ibuf (bs : List Bool) (s : State) : (s.emit bs).ibuf = s.ibuf := rfl
@[simp] theorem emit_B (bs : List Bool) (s : State) : (s.emit bs).B = s.B := rfl
@[simp] theorem emit_U (bs : List Bool) (s : State) : (s.emit bs).U = s.U := rfl
@[simp] theorem emit_pad (bs : List Bool) (s : State) : (s.emit bs).pad = s.pad := rfl
@[simp] theorem emit_valid (bs : List Bool) (s : State) : (s.emit bs).valid = s.valid := rfl
@[simp] theorem emit_payload (bs : List Bool) (s : State) : (s.emit bs).payload = s.payload := rfl
@[simp] theorem emit_n (bs : List Bool) (s : State) : (s.emit bs).n = s.n := rfl
@[simp] theorem emit_code (bs : List Bool) (s : State) : (s.emit bs).code = s.code := rfl
@[simp] theorem emit_host (bs : List Bool) (s : State) : (s.emit bs).host = s.host := rfl
@[simp] theorem emit_free (bs : List Bool) (s : State) : (s.emit bs).free = s.free := rfl
@[simp] theorem emit_inEmpty (bs : List Bool) (s : State) : (s.emit bs).inEmpty = s.inEmpty := rfl
@[simp] theorem emit_inBit (bs : List Bool) (s : State) (k : Nat) : (s.emit bs).inBit k = s.inBit k := rfl

/-! ## `setValueCount` -/
@[simp] theorem setValueCount_cmd (v : BitVec 7) (s : State) : (s.setValueCount v).cmd = s.cmd := rfl
@[simp] theorem setValueCount_status (v : BitVec 7) (s : State) : (s.setValueCount v).status = s.status := rfl
@[simp] theorem setValueCount_err (v : BitVec 7) (s : State) : (s.setValueCount v).err = s.err := rfl
@[simp] theorem setValueCount_phase (v : BitVec 7) (s : State) : (s.setValueCount v).phase = s.phase := rfl
@[simp] theorem setValueCount_inBytes (v : BitVec 7) (s : State) : (s.setValueCount v).inBytes = s.inBytes := rfl
@[simp] theorem setValueCount_inEnd (v : BitVec 7) (s : State) : (s.setValueCount v).inEnd = s.inEnd := rfl
@[simp] theorem setValueCount_ipos (v : BitVec 7) (s : State) : (s.setValueCount v).ipos = s.ipos := rfl
@[simp] theorem setValueCount_obits (v : BitVec 7) (s : State) : (s.setValueCount v).obits = s.obits := rfl
@[simp] theorem setValueCount_closed (v : BitVec 7) (s : State) : (s.setValueCount v).closed = s.closed := rfl
@[simp] theorem setValueCount_lastValue (v : BitVec 7) (s : State) : (s.setValueCount v).lastValue = s.lastValue := rfl
@[simp] theorem setValueCount_valueCount (v : BitVec 7) (s : State) : (s.setValueCount v).valueCount = v := rfl
@[simp] theorem setValueCount_count (v : BitVec 7) (s : State) : (s.setValueCount v).count = s.count := rfl
@[simp] theorem setValueCount_seen (v : BitVec 7) (s : State) : (s.setValueCount v).seen = s.seen := rfl
@[simp] theorem setValueCount_dict (v : BitVec 7) (s : State) : (s.setValueCount v).dict = s.dict := rfl
@[simp] theorem setValueCount_idx (v : BitVec 7) (s : State) : (s.setValueCount v).idx = s.idx := rfl
@[simp] theorem setValueCount_unique (v : BitVec 7) (s : State) : (s.setValueCount v).unique = s.unique := rfl
@[simp] theorem setValueCount_length (v : BitVec 7) (s : State) : (s.setValueCount v).length = s.length := rfl
@[simp] theorem setValueCount_msg (v : BitVec 7) (s : State) : (s.setValueCount v).msg = s.msg := rfl
@[simp] theorem setValueCount_cw (v : BitVec 7) (s : State) : (s.setValueCount v).cw = s.cw := rfl
@[simp] theorem setValueCount_rem (v : BitVec 7) (s : State) : (s.setValueCount v).rem = s.rem := rfl
@[simp] theorem setValueCount_j (v : BitVec 7) (s : State) : (s.setValueCount v).j = s.j := rfl
@[simp] theorem setValueCount_ibuf (v : BitVec 7) (s : State) : (s.setValueCount v).ibuf = s.ibuf := rfl
@[simp] theorem setValueCount_B (v : BitVec 7) (s : State) : (s.setValueCount v).B = s.B := rfl
@[simp] theorem setValueCount_U (v : BitVec 7) (s : State) : (s.setValueCount v).U = s.U := rfl
@[simp] theorem setValueCount_pad (v : BitVec 7) (s : State) : (s.setValueCount v).pad = s.pad := rfl
@[simp] theorem setValueCount_valid (v : BitVec 7) (s : State) : (s.setValueCount v).valid = s.valid := rfl
@[simp] theorem setValueCount_payload (v : BitVec 7) (s : State) : (s.setValueCount v).payload = s.payload := rfl
@[simp] theorem setValueCount_n (v : BitVec 7) (s : State) : (s.setValueCount v).n = s.n := rfl
@[simp] theorem setValueCount_code (v : BitVec 7) (s : State) : (s.setValueCount v).code = s.code := rfl
@[simp] theorem setValueCount_host (v : BitVec 7) (s : State) : (s.setValueCount v).host = s.host := rfl
@[simp] theorem setValueCount_free (v : BitVec 7) (s : State) : (s.setValueCount v).free = s.free := rfl
@[simp] theorem setValueCount_inEmpty (v : BitVec 7) (s : State) : (s.setValueCount v).inEmpty = s.inEmpty := rfl
@[simp] theorem setValueCount_inBit (v : BitVec 7) (s : State) (k : Nat) : (s.setValueCount v).inBit k = s.inBit k := rfl

/-! ## `setCount` -/
@[simp] theorem setCount_cmd (v : BitVec 8) (s : State) : (s.setCount v).cmd = s.cmd := rfl
@[simp] theorem setCount_status (v : BitVec 8) (s : State) : (s.setCount v).status = s.status := rfl
@[simp] theorem setCount_err (v : BitVec 8) (s : State) : (s.setCount v).err = s.err := rfl
@[simp] theorem setCount_phase (v : BitVec 8) (s : State) : (s.setCount v).phase = s.phase := rfl
@[simp] theorem setCount_inBytes (v : BitVec 8) (s : State) : (s.setCount v).inBytes = s.inBytes := rfl
@[simp] theorem setCount_inEnd (v : BitVec 8) (s : State) : (s.setCount v).inEnd = s.inEnd := rfl
@[simp] theorem setCount_ipos (v : BitVec 8) (s : State) : (s.setCount v).ipos = s.ipos := rfl
@[simp] theorem setCount_obits (v : BitVec 8) (s : State) : (s.setCount v).obits = s.obits := rfl
@[simp] theorem setCount_closed (v : BitVec 8) (s : State) : (s.setCount v).closed = s.closed := rfl
@[simp] theorem setCount_lastValue (v : BitVec 8) (s : State) : (s.setCount v).lastValue = s.lastValue := rfl
@[simp] theorem setCount_valueCount (v : BitVec 8) (s : State) : (s.setCount v).valueCount = s.valueCount := rfl
@[simp] theorem setCount_count (v : BitVec 8) (s : State) : (s.setCount v).count = v := rfl
@[simp] theorem setCount_seen (v : BitVec 8) (s : State) : (s.setCount v).seen = s.seen := rfl
@[simp] theorem setCount_dict (v : BitVec 8) (s : State) : (s.setCount v).dict = s.dict := rfl
@[simp] theorem setCount_idx (v : BitVec 8) (s : State) : (s.setCount v).idx = s.idx := rfl
@[simp] theorem setCount_unique (v : BitVec 8) (s : State) : (s.setCount v).unique = s.unique := rfl
@[simp] theorem setCount_length (v : BitVec 8) (s : State) : (s.setCount v).length = s.length := rfl
@[simp] theorem setCount_msg (v : BitVec 8) (s : State) : (s.setCount v).msg = s.msg := rfl
@[simp] theorem setCount_cw (v : BitVec 8) (s : State) : (s.setCount v).cw = s.cw := rfl
@[simp] theorem setCount_rem (v : BitVec 8) (s : State) : (s.setCount v).rem = s.rem := rfl
@[simp] theorem setCount_j (v : BitVec 8) (s : State) : (s.setCount v).j = s.j := rfl
@[simp] theorem setCount_ibuf (v : BitVec 8) (s : State) : (s.setCount v).ibuf = s.ibuf := rfl
@[simp] theorem setCount_B (v : BitVec 8) (s : State) : (s.setCount v).B = s.B := rfl
@[simp] theorem setCount_U (v : BitVec 8) (s : State) : (s.setCount v).U = s.U := rfl
@[simp] theorem setCount_pad (v : BitVec 8) (s : State) : (s.setCount v).pad = s.pad := rfl
@[simp] theorem setCount_valid (v : BitVec 8) (s : State) : (s.setCount v).valid = s.valid := rfl
@[simp] theorem setCount_payload (v : BitVec 8) (s : State) : (s.setCount v).payload = s.payload := rfl
@[simp] theorem setCount_n (v : BitVec 8) (s : State) : (s.setCount v).n = s.n := rfl
@[simp] theorem setCount_code (v : BitVec 8) (s : State) : (s.setCount v).code = s.code := rfl
@[simp] theorem setCount_host (v : BitVec 8) (s : State) : (s.setCount v).host = s.host := rfl
@[simp] theorem setCount_free (v : BitVec 8) (s : State) : (s.setCount v).free = s.free := rfl
@[simp] theorem setCount_inEmpty (v : BitVec 8) (s : State) : (s.setCount v).inEmpty = s.inEmpty := rfl
@[simp] theorem setCount_inBit (v : BitVec 8) (s : State) (k : Nat) : (s.setCount v).inBit k = s.inBit k := rfl

/-! ## `setJ` -/
@[simp] theorem setJ_cmd (k : Nat) (s : State) : (s.setJ k).cmd = s.cmd := rfl
@[simp] theorem setJ_status (k : Nat) (s : State) : (s.setJ k).status = s.status := rfl
@[simp] theorem setJ_err (k : Nat) (s : State) : (s.setJ k).err = s.err := rfl
@[simp] theorem setJ_phase (k : Nat) (s : State) : (s.setJ k).phase = s.phase := rfl
@[simp] theorem setJ_inBytes (k : Nat) (s : State) : (s.setJ k).inBytes = s.inBytes := rfl
@[simp] theorem setJ_inEnd (k : Nat) (s : State) : (s.setJ k).inEnd = s.inEnd := rfl
@[simp] theorem setJ_ipos (k : Nat) (s : State) : (s.setJ k).ipos = s.ipos := rfl
@[simp] theorem setJ_obits (k : Nat) (s : State) : (s.setJ k).obits = s.obits := rfl
@[simp] theorem setJ_closed (k : Nat) (s : State) : (s.setJ k).closed = s.closed := rfl
@[simp] theorem setJ_lastValue (k : Nat) (s : State) : (s.setJ k).lastValue = s.lastValue := rfl
@[simp] theorem setJ_valueCount (k : Nat) (s : State) : (s.setJ k).valueCount = s.valueCount := rfl
@[simp] theorem setJ_count (k : Nat) (s : State) : (s.setJ k).count = s.count := rfl
@[simp] theorem setJ_seen (k : Nat) (s : State) : (s.setJ k).seen = s.seen := rfl
@[simp] theorem setJ_dict (k : Nat) (s : State) : (s.setJ k).dict = s.dict := rfl
@[simp] theorem setJ_idx (k : Nat) (s : State) : (s.setJ k).idx = s.idx := rfl
@[simp] theorem setJ_unique (k : Nat) (s : State) : (s.setJ k).unique = s.unique := rfl
@[simp] theorem setJ_length (k : Nat) (s : State) : (s.setJ k).length = s.length := rfl
@[simp] theorem setJ_msg (k : Nat) (s : State) : (s.setJ k).msg = s.msg := rfl
@[simp] theorem setJ_cw (k : Nat) (s : State) : (s.setJ k).cw = s.cw := rfl
@[simp] theorem setJ_rem (k : Nat) (s : State) : (s.setJ k).rem = s.rem := rfl
@[simp] theorem setJ_j (k : Nat) (s : State) : (s.setJ k).j = k := rfl
@[simp] theorem setJ_ibuf (k : Nat) (s : State) : (s.setJ k).ibuf = s.ibuf := rfl
@[simp] theorem setJ_B (k : Nat) (s : State) : (s.setJ k).B = s.B := rfl
@[simp] theorem setJ_U (k : Nat) (s : State) : (s.setJ k).U = s.U := rfl
@[simp] theorem setJ_pad (k : Nat) (s : State) : (s.setJ k).pad = s.pad := rfl
@[simp] theorem setJ_valid (k : Nat) (s : State) : (s.setJ k).valid = s.valid := rfl
@[simp] theorem setJ_payload (k : Nat) (s : State) : (s.setJ k).payload = s.payload := rfl
@[simp] theorem setJ_n (k : Nat) (s : State) : (s.setJ k).n = s.n := rfl
@[simp] theorem setJ_code (k : Nat) (s : State) : (s.setJ k).code = s.code := rfl
@[simp] theorem setJ_host (k : Nat) (s : State) : (s.setJ k).host = s.host := rfl
@[simp] theorem setJ_free (k : Nat) (s : State) : (s.setJ k).free = s.free := rfl
@[simp] theorem setJ_inEmpty (k : Nat) (s : State) : (s.setJ k).inEmpty = s.inEmpty := rfl
@[simp] theorem setJ_inBit (k : Nat) (s : State) (i : Nat) : (s.setJ k).inBit i = s.inBit i := rfl

/-! ## `setCode` -/
@[simp] theorem setCode_cmd (c : BitVec 8) (s : State) : (s.setCode c).cmd = s.cmd := rfl
@[simp] theorem setCode_status (c : BitVec 8) (s : State) : (s.setCode c).status = s.status := rfl
@[simp] theorem setCode_err (c : BitVec 8) (s : State) : (s.setCode c).err = s.err := rfl
@[simp] theorem setCode_phase (c : BitVec 8) (s : State) : (s.setCode c).phase = s.phase := rfl
@[simp] theorem setCode_inBytes (c : BitVec 8) (s : State) : (s.setCode c).inBytes = s.inBytes := rfl
@[simp] theorem setCode_inEnd (c : BitVec 8) (s : State) : (s.setCode c).inEnd = s.inEnd := rfl
@[simp] theorem setCode_ipos (c : BitVec 8) (s : State) : (s.setCode c).ipos = s.ipos := rfl
@[simp] theorem setCode_obits (c : BitVec 8) (s : State) : (s.setCode c).obits = s.obits := rfl
@[simp] theorem setCode_closed (c : BitVec 8) (s : State) : (s.setCode c).closed = s.closed := rfl
@[simp] theorem setCode_lastValue (c : BitVec 8) (s : State) : (s.setCode c).lastValue = s.lastValue := rfl
@[simp] theorem setCode_valueCount (c : BitVec 8) (s : State) : (s.setCode c).valueCount = s.valueCount := rfl
@[simp] theorem setCode_count (c : BitVec 8) (s : State) : (s.setCode c).count = s.count := rfl
@[simp] theorem setCode_seen (c : BitVec 8) (s : State) : (s.setCode c).seen = s.seen := rfl
@[simp] theorem setCode_dict (c : BitVec 8) (s : State) : (s.setCode c).dict = s.dict := rfl
@[simp] theorem setCode_idx (c : BitVec 8) (s : State) : (s.setCode c).idx = s.idx := rfl
@[simp] theorem setCode_unique (c : BitVec 8) (s : State) : (s.setCode c).unique = s.unique := rfl
@[simp] theorem setCode_length (c : BitVec 8) (s : State) : (s.setCode c).length = s.length := rfl
@[simp] theorem setCode_msg (c : BitVec 8) (s : State) : (s.setCode c).msg = s.msg := rfl
@[simp] theorem setCode_cw (c : BitVec 8) (s : State) : (s.setCode c).cw = s.cw := rfl
@[simp] theorem setCode_rem (c : BitVec 8) (s : State) : (s.setCode c).rem = s.rem := rfl
@[simp] theorem setCode_j (c : BitVec 8) (s : State) : (s.setCode c).j = s.j := rfl
@[simp] theorem setCode_ibuf (c : BitVec 8) (s : State) : (s.setCode c).ibuf = s.ibuf := rfl
@[simp] theorem setCode_B (c : BitVec 8) (s : State) : (s.setCode c).B = s.B := rfl
@[simp] theorem setCode_U (c : BitVec 8) (s : State) : (s.setCode c).U = s.U := rfl
@[simp] theorem setCode_pad (c : BitVec 8) (s : State) : (s.setCode c).pad = s.pad := rfl
@[simp] theorem setCode_valid (c : BitVec 8) (s : State) : (s.setCode c).valid = s.valid := rfl
@[simp] theorem setCode_payload (c : BitVec 8) (s : State) : (s.setCode c).payload = s.payload := rfl
@[simp] theorem setCode_n (c : BitVec 8) (s : State) : (s.setCode c).n = s.n := rfl
@[simp] theorem setCode_code (c : BitVec 8) (s : State) : (s.setCode c).code = c := rfl
@[simp] theorem setCode_host (c : BitVec 8) (s : State) : (s.setCode c).host = s.host := rfl
@[simp] theorem setCode_free (c : BitVec 8) (s : State) : (s.setCode c).free = s.free := rfl
@[simp] theorem setCode_inEmpty (c : BitVec 8) (s : State) : (s.setCode c).inEmpty = s.inEmpty := rfl
@[simp] theorem setCode_inBit (c : BitVec 8) (s : State) (k : Nat) : (s.setCode c).inBit k = s.inBit k := rfl

/-! ## `setN` -/
@[simp] theorem setN_cmd (k : Nat) (s : State) : (s.setN k).cmd = s.cmd := rfl
@[simp] theorem setN_status (k : Nat) (s : State) : (s.setN k).status = s.status := rfl
@[simp] theorem setN_err (k : Nat) (s : State) : (s.setN k).err = s.err := rfl
@[simp] theorem setN_phase (k : Nat) (s : State) : (s.setN k).phase = s.phase := rfl
@[simp] theorem setN_inBytes (k : Nat) (s : State) : (s.setN k).inBytes = s.inBytes := rfl
@[simp] theorem setN_inEnd (k : Nat) (s : State) : (s.setN k).inEnd = s.inEnd := rfl
@[simp] theorem setN_ipos (k : Nat) (s : State) : (s.setN k).ipos = s.ipos := rfl
@[simp] theorem setN_obits (k : Nat) (s : State) : (s.setN k).obits = s.obits := rfl
@[simp] theorem setN_closed (k : Nat) (s : State) : (s.setN k).closed = s.closed := rfl
@[simp] theorem setN_lastValue (k : Nat) (s : State) : (s.setN k).lastValue = s.lastValue := rfl
@[simp] theorem setN_valueCount (k : Nat) (s : State) : (s.setN k).valueCount = s.valueCount := rfl
@[simp] theorem setN_count (k : Nat) (s : State) : (s.setN k).count = s.count := rfl
@[simp] theorem setN_seen (k : Nat) (s : State) : (s.setN k).seen = s.seen := rfl
@[simp] theorem setN_dict (k : Nat) (s : State) : (s.setN k).dict = s.dict := rfl
@[simp] theorem setN_idx (k : Nat) (s : State) : (s.setN k).idx = s.idx := rfl
@[simp] theorem setN_unique (k : Nat) (s : State) : (s.setN k).unique = s.unique := rfl
@[simp] theorem setN_length (k : Nat) (s : State) : (s.setN k).length = s.length := rfl
@[simp] theorem setN_msg (k : Nat) (s : State) : (s.setN k).msg = s.msg := rfl
@[simp] theorem setN_cw (k : Nat) (s : State) : (s.setN k).cw = s.cw := rfl
@[simp] theorem setN_rem (k : Nat) (s : State) : (s.setN k).rem = s.rem := rfl
@[simp] theorem setN_j (k : Nat) (s : State) : (s.setN k).j = s.j := rfl
@[simp] theorem setN_ibuf (k : Nat) (s : State) : (s.setN k).ibuf = s.ibuf := rfl
@[simp] theorem setN_B (k : Nat) (s : State) : (s.setN k).B = s.B := rfl
@[simp] theorem setN_U (k : Nat) (s : State) : (s.setN k).U = s.U := rfl
@[simp] theorem setN_pad (k : Nat) (s : State) : (s.setN k).pad = s.pad := rfl
@[simp] theorem setN_valid (k : Nat) (s : State) : (s.setN k).valid = s.valid := rfl
@[simp] theorem setN_payload (k : Nat) (s : State) : (s.setN k).payload = s.payload := rfl
@[simp] theorem setN_n (k : Nat) (s : State) : (s.setN k).n = k := rfl
@[simp] theorem setN_code (k : Nat) (s : State) : (s.setN k).code = s.code := rfl
@[simp] theorem setN_host (k : Nat) (s : State) : (s.setN k).host = s.host := rfl
@[simp] theorem setN_free (k : Nat) (s : State) : (s.setN k).free = s.free := rfl
@[simp] theorem setN_inEmpty (k : Nat) (s : State) : (s.setN k).inEmpty = s.inEmpty := rfl
@[simp] theorem setN_inBit (k : Nat) (s : State) (i : Nat) : (s.setN k).inBit i = s.inBit i := rfl

/-! ## `addInput` -/
@[simp] theorem addInput_cmd (b : Byte) (s : State) : (s.addInput b).cmd = s.cmd := rfl
@[simp] theorem addInput_status (b : Byte) (s : State) : (s.addInput b).status = s.status := rfl
@[simp] theorem addInput_err (b : Byte) (s : State) : (s.addInput b).err = s.err := rfl
@[simp] theorem addInput_phase (b : Byte) (s : State) : (s.addInput b).phase = s.phase := rfl
@[simp] theorem addInput_inBytes (b : Byte) (s : State) : (s.addInput b).inBytes = s.inBytes ++ [b] := rfl
@[simp] theorem addInput_inEnd (b : Byte) (s : State) : (s.addInput b).inEnd = s.inEnd := rfl
@[simp] theorem addInput_ipos (b : Byte) (s : State) : (s.addInput b).ipos = s.ipos := rfl
@[simp] theorem addInput_obits (b : Byte) (s : State) : (s.addInput b).obits = s.obits := rfl
@[simp] theorem addInput_closed (b : Byte) (s : State) : (s.addInput b).closed = s.closed := rfl
@[simp] theorem addInput_lastValue (b : Byte) (s : State) : (s.addInput b).lastValue = s.lastValue := rfl
@[simp] theorem addInput_valueCount (b : Byte) (s : State) : (s.addInput b).valueCount = s.valueCount := rfl
@[simp] theorem addInput_count (b : Byte) (s : State) : (s.addInput b).count = s.count := rfl
@[simp] theorem addInput_seen (b : Byte) (s : State) : (s.addInput b).seen = s.seen := rfl
@[simp] theorem addInput_dict (b : Byte) (s : State) : (s.addInput b).dict = s.dict := rfl
@[simp] theorem addInput_idx (b : Byte) (s : State) : (s.addInput b).idx = s.idx := rfl
@[simp] theorem addInput_unique (b : Byte) (s : State) : (s.addInput b).unique = s.unique := rfl
@[simp] theorem addInput_length (b : Byte) (s : State) : (s.addInput b).length = s.length := rfl
@[simp] theorem addInput_msg (b : Byte) (s : State) : (s.addInput b).msg = s.msg := rfl
@[simp] theorem addInput_cw (b : Byte) (s : State) : (s.addInput b).cw = s.cw := rfl
@[simp] theorem addInput_rem (b : Byte) (s : State) : (s.addInput b).rem = s.rem := rfl
@[simp] theorem addInput_j (b : Byte) (s : State) : (s.addInput b).j = s.j := rfl
@[simp] theorem addInput_ibuf (b : Byte) (s : State) : (s.addInput b).ibuf = s.ibuf := rfl
@[simp] theorem addInput_B (b : Byte) (s : State) : (s.addInput b).B = s.B := rfl
@[simp] theorem addInput_U (b : Byte) (s : State) : (s.addInput b).U = s.U := rfl
@[simp] theorem addInput_pad (b : Byte) (s : State) : (s.addInput b).pad = s.pad := rfl
@[simp] theorem addInput_valid (b : Byte) (s : State) : (s.addInput b).valid = s.valid := rfl
@[simp] theorem addInput_payload (b : Byte) (s : State) : (s.addInput b).payload = s.payload := rfl
@[simp] theorem addInput_n (b : Byte) (s : State) : (s.addInput b).n = s.n := rfl
@[simp] theorem addInput_code (b : Byte) (s : State) : (s.addInput b).code = s.code := rfl
@[simp] theorem addInput_host (b : Byte) (s : State) : (s.addInput b).host = s.host := rfl
@[simp] theorem addInput_free (b : Byte) (s : State) : (s.addInput b).free = s.free := rfl

/-! ## `endInput` -/
@[simp] theorem endInput_cmd (s : State) : s.endInput.cmd = s.cmd := rfl
@[simp] theorem endInput_status (s : State) : s.endInput.status = s.status := rfl
@[simp] theorem endInput_err (s : State) : s.endInput.err = s.err := rfl
@[simp] theorem endInput_phase (s : State) : s.endInput.phase = s.phase := rfl
@[simp] theorem endInput_inBytes (s : State) : s.endInput.inBytes = s.inBytes := rfl
@[simp] theorem endInput_inEnd (s : State) : s.endInput.inEnd = true := rfl
@[simp] theorem endInput_ipos (s : State) : s.endInput.ipos = s.ipos := rfl
@[simp] theorem endInput_obits (s : State) : s.endInput.obits = s.obits := rfl
@[simp] theorem endInput_closed (s : State) : s.endInput.closed = s.closed := rfl
@[simp] theorem endInput_lastValue (s : State) : s.endInput.lastValue = s.lastValue := rfl
@[simp] theorem endInput_valueCount (s : State) : s.endInput.valueCount = s.valueCount := rfl
@[simp] theorem endInput_count (s : State) : s.endInput.count = s.count := rfl
@[simp] theorem endInput_seen (s : State) : s.endInput.seen = s.seen := rfl
@[simp] theorem endInput_dict (s : State) : s.endInput.dict = s.dict := rfl
@[simp] theorem endInput_idx (s : State) : s.endInput.idx = s.idx := rfl
@[simp] theorem endInput_unique (s : State) : s.endInput.unique = s.unique := rfl
@[simp] theorem endInput_length (s : State) : s.endInput.length = s.length := rfl
@[simp] theorem endInput_msg (s : State) : s.endInput.msg = s.msg := rfl
@[simp] theorem endInput_cw (s : State) : s.endInput.cw = s.cw := rfl
@[simp] theorem endInput_rem (s : State) : s.endInput.rem = s.rem := rfl
@[simp] theorem endInput_j (s : State) : s.endInput.j = s.j := rfl
@[simp] theorem endInput_ibuf (s : State) : s.endInput.ibuf = s.ibuf := rfl
@[simp] theorem endInput_B (s : State) : s.endInput.B = s.B := rfl
@[simp] theorem endInput_U (s : State) : s.endInput.U = s.U := rfl
@[simp] theorem endInput_pad (s : State) : s.endInput.pad = s.pad := rfl
@[simp] theorem endInput_valid (s : State) : s.endInput.valid = s.valid := rfl
@[simp] theorem endInput_payload (s : State) : s.endInput.payload = s.payload := rfl
@[simp] theorem endInput_n (s : State) : s.endInput.n = s.n := rfl
@[simp] theorem endInput_code (s : State) : s.endInput.code = s.code := rfl
@[simp] theorem endInput_host (s : State) : s.endInput.host = s.host := rfl
@[simp] theorem endInput_free (s : State) : s.endInput.free = s.free := rfl

/-! ## `setHost` -/
@[simp] theorem setHost_cmd (h : List HostTurn) (s : State) : (s.setHost h).cmd = s.cmd := rfl
@[simp] theorem setHost_status (h : List HostTurn) (s : State) : (s.setHost h).status = s.status := rfl
@[simp] theorem setHost_err (h : List HostTurn) (s : State) : (s.setHost h).err = s.err := rfl
@[simp] theorem setHost_phase (h : List HostTurn) (s : State) : (s.setHost h).phase = s.phase := rfl
@[simp] theorem setHost_inBytes (h : List HostTurn) (s : State) : (s.setHost h).inBytes = s.inBytes := rfl
@[simp] theorem setHost_inEnd (h : List HostTurn) (s : State) : (s.setHost h).inEnd = s.inEnd := rfl
@[simp] theorem setHost_ipos (h : List HostTurn) (s : State) : (s.setHost h).ipos = s.ipos := rfl
@[simp] theorem setHost_obits (h : List HostTurn) (s : State) : (s.setHost h).obits = s.obits := rfl
@[simp] theorem setHost_closed (h : List HostTurn) (s : State) : (s.setHost h).closed = s.closed := rfl
@[simp] theorem setHost_lastValue (h : List HostTurn) (s : State) : (s.setHost h).lastValue = s.lastValue := rfl
@[simp] theorem setHost_valueCount (h : List HostTurn) (s : State) : (s.setHost h).valueCount = s.valueCount := rfl
@[simp] theorem setHost_count (h : List HostTurn) (s : State) : (s.setHost h).count = s.count := rfl
@[simp] theorem setHost_seen (h : List HostTurn) (s : State) : (s.setHost h).seen = s.seen := rfl
@[simp] theorem setHost_dict (h : List HostTurn) (s : State) : (s.setHost h).dict = s.dict := rfl
@[simp] theorem setHost_idx (h : List HostTurn) (s : State) : (s.setHost h).idx = s.idx := rfl
@[simp] theorem setHost_unique (h : List HostTurn) (s : State) : (s.setHost h).unique = s.unique := rfl
@[simp] theorem setHost_length (h : List HostTurn) (s : State) : (s.setHost h).length = s.length := rfl
@[simp] theorem setHost_msg (h : List HostTurn) (s : State) : (s.setHost h).msg = s.msg := rfl
@[simp] theorem setHost_cw (h : List HostTurn) (s : State) : (s.setHost h).cw = s.cw := rfl
@[simp] theorem setHost_rem (h : List HostTurn) (s : State) : (s.setHost h).rem = s.rem := rfl
@[simp] theorem setHost_j (h : List HostTurn) (s : State) : (s.setHost h).j = s.j := rfl
@[simp] theorem setHost_ibuf (h : List HostTurn) (s : State) : (s.setHost h).ibuf = s.ibuf := rfl
@[simp] theorem setHost_B (h : List HostTurn) (s : State) : (s.setHost h).B = s.B := rfl
@[simp] theorem setHost_U (h : List HostTurn) (s : State) : (s.setHost h).U = s.U := rfl
@[simp] theorem setHost_pad (h : List HostTurn) (s : State) : (s.setHost h).pad = s.pad := rfl
@[simp] theorem setHost_valid (h : List HostTurn) (s : State) : (s.setHost h).valid = s.valid := rfl
@[simp] theorem setHost_payload (h : List HostTurn) (s : State) : (s.setHost h).payload = s.payload := rfl
@[simp] theorem setHost_n (h : List HostTurn) (s : State) : (s.setHost h).n = s.n := rfl
@[simp] theorem setHost_code (h : List HostTurn) (s : State) : (s.setHost h).code = s.code := rfl
@[simp] theorem setHost_host (h : List HostTurn) (s : State) : (s.setHost h).host = h := rfl
@[simp] theorem setHost_free (h : List HostTurn) (s : State) : (s.setHost h).free = s.free := rfl
@[simp] theorem setHost_inEmpty (h : List HostTurn) (s : State) : (s.setHost h).inEmpty = s.inEmpty := rfl
@[simp] theorem setHost_inBit (h : List HostTurn) (s : State) (k : Nat) : (s.setHost h).inBit k = s.inBit k := rfl

/-! ## `accept` -/
@[simp] theorem accept_cmd (c : Byte) (s : State) : (s.accept c).cmd = c := rfl
@[simp] theorem accept_status (c : Byte) (s : State) : (s.accept c).status = s.status := rfl
@[simp] theorem accept_err (c : Byte) (s : State) : (s.accept c).err = ErrCode.none := rfl
@[simp] theorem accept_phase (c : Byte) (s : State) : (s.accept c).phase = s.phase := rfl
@[simp] theorem accept_inBytes (c : Byte) (s : State) : (s.accept c).inBytes = [] := rfl
@[simp] theorem accept_inEnd (c : Byte) (s : State) : (s.accept c).inEnd = false := rfl
@[simp] theorem accept_ipos (c : Byte) (s : State) : (s.accept c).ipos = 0 := rfl
@[simp] theorem accept_obits (c : Byte) (s : State) : (s.accept c).obits = [] := rfl
@[simp] theorem accept_closed (c : Byte) (s : State) : (s.accept c).closed = false := rfl
@[simp] theorem accept_lastValue (c : Byte) (s : State) : (s.accept c).lastValue = s.lastValue := rfl
@[simp] theorem accept_valueCount (c : Byte) (s : State) : (s.accept c).valueCount = s.valueCount := rfl
@[simp] theorem accept_count (c : Byte) (s : State) : (s.accept c).count = s.count := rfl
@[simp] theorem accept_seen (c : Byte) (s : State) : (s.accept c).seen = s.seen := rfl
@[simp] theorem accept_dict (c : Byte) (s : State) : (s.accept c).dict = s.dict := rfl
@[simp] theorem accept_idx (c : Byte) (s : State) : (s.accept c).idx = s.idx := rfl
@[simp] theorem accept_unique (c : Byte) (s : State) : (s.accept c).unique = s.unique := rfl
@[simp] theorem accept_length (c : Byte) (s : State) : (s.accept c).length = s.length := rfl
@[simp] theorem accept_msg (c : Byte) (s : State) : (s.accept c).msg = s.msg := rfl
@[simp] theorem accept_cw (c : Byte) (s : State) : (s.accept c).cw = s.cw := rfl
@[simp] theorem accept_rem (c : Byte) (s : State) : (s.accept c).rem = s.rem := rfl
@[simp] theorem accept_j (c : Byte) (s : State) : (s.accept c).j = s.j := rfl
@[simp] theorem accept_ibuf (c : Byte) (s : State) : (s.accept c).ibuf = s.ibuf := rfl
@[simp] theorem accept_B (c : Byte) (s : State) : (s.accept c).B = s.B := rfl
@[simp] theorem accept_U (c : Byte) (s : State) : (s.accept c).U = s.U := rfl
@[simp] theorem accept_pad (c : Byte) (s : State) : (s.accept c).pad = s.pad := rfl
@[simp] theorem accept_valid (c : Byte) (s : State) : (s.accept c).valid = s.valid := rfl
@[simp] theorem accept_payload (c : Byte) (s : State) : (s.accept c).payload = s.payload := rfl
@[simp] theorem accept_n (c : Byte) (s : State) : (s.accept c).n = s.n := rfl
@[simp] theorem accept_code (c : Byte) (s : State) : (s.accept c).code = s.code := rfl
@[simp] theorem accept_host (c : Byte) (s : State) : (s.accept c).host = s.host := rfl
@[simp] theorem accept_free (c : Byte) (s : State) : (s.accept c).free = s.free := rfl

/-! ## `outClose` -/
@[simp] theorem outClose_cmd (s : State) : (outClose s).cmd = s.cmd := rfl
@[simp] theorem outClose_status (s : State) : (outClose s).status = s.status := rfl
@[simp] theorem outClose_err (s : State) : (outClose s).err = s.err := rfl
@[simp] theorem outClose_phase (s : State) : (outClose s).phase = s.phase := rfl
@[simp] theorem outClose_inBytes (s : State) : (outClose s).inBytes = s.inBytes := rfl
@[simp] theorem outClose_inEnd (s : State) : (outClose s).inEnd = s.inEnd := rfl
@[simp] theorem outClose_ipos (s : State) : (outClose s).ipos = s.ipos := rfl
@[simp] theorem outClose_obits (s : State) :
    (outClose s).obits = s.obits ++ List.replicate ((8 - s.opos % 8) % 8) false := rfl
@[simp] theorem outClose_closed (s : State) : (outClose s).closed = true := rfl
@[simp] theorem outClose_lastValue (s : State) : (outClose s).lastValue = s.lastValue := rfl
@[simp] theorem outClose_valueCount (s : State) : (outClose s).valueCount = s.valueCount := rfl
@[simp] theorem outClose_count (s : State) : (outClose s).count = s.count := rfl
@[simp] theorem outClose_seen (s : State) : (outClose s).seen = s.seen := rfl
@[simp] theorem outClose_dict (s : State) : (outClose s).dict = s.dict := rfl
@[simp] theorem outClose_idx (s : State) : (outClose s).idx = s.idx := rfl
@[simp] theorem outClose_unique (s : State) : (outClose s).unique = s.unique := rfl
@[simp] theorem outClose_length (s : State) : (outClose s).length = s.length := rfl
@[simp] theorem outClose_msg (s : State) : (outClose s).msg = s.msg := rfl
@[simp] theorem outClose_cw (s : State) : (outClose s).cw = s.cw := rfl
@[simp] theorem outClose_rem (s : State) : (outClose s).rem = s.rem := rfl
@[simp] theorem outClose_j (s : State) : (outClose s).j = s.j := rfl
@[simp] theorem outClose_ibuf (s : State) : (outClose s).ibuf = s.ibuf := rfl
@[simp] theorem outClose_B (s : State) : (outClose s).B = s.B := rfl
@[simp] theorem outClose_U (s : State) : (outClose s).U = s.U := rfl
@[simp] theorem outClose_pad (s : State) : (outClose s).pad = s.pad := rfl
@[simp] theorem outClose_valid (s : State) : (outClose s).valid = s.valid := rfl
@[simp] theorem outClose_payload (s : State) : (outClose s).payload = s.payload := rfl
@[simp] theorem outClose_n (s : State) : (outClose s).n = s.n := rfl
@[simp] theorem outClose_code (s : State) : (outClose s).code = s.code := rfl
@[simp] theorem outClose_host (s : State) : (outClose s).host = s.host := rfl
@[simp] theorem outClose_free (s : State) : (outClose s).free = s.free := rfl
@[simp] theorem outClose_inEmpty (s : State) : (outClose s).inEmpty = s.inEmpty := rfl
@[simp] theorem outClose_inBit (s : State) (k : Nat) : (outClose s).inBit k = s.inBit k := rfl

/-! ## `clearMessage` -/
@[simp] theorem clearMessage_cmd (s : State) : s.clearMessage.cmd = s.cmd := rfl
@[simp] theorem clearMessage_status (s : State) : s.clearMessage.status = s.status := rfl
@[simp] theorem clearMessage_err (s : State) : s.clearMessage.err = s.err := rfl
@[simp] theorem clearMessage_phase (s : State) : s.clearMessage.phase = s.phase := rfl
@[simp] theorem clearMessage_inBytes (s : State) : s.clearMessage.inBytes = s.inBytes := rfl
@[simp] theorem clearMessage_inEnd (s : State) : s.clearMessage.inEnd = s.inEnd := rfl
@[simp] theorem clearMessage_ipos (s : State) : s.clearMessage.ipos = s.ipos := rfl
@[simp] theorem clearMessage_obits (s : State) : s.clearMessage.obits = s.obits := rfl
@[simp] theorem clearMessage_closed (s : State) : s.clearMessage.closed = s.closed := rfl
@[simp] theorem clearMessage_lastValue (s : State) : s.clearMessage.lastValue = s.lastValue := rfl
@[simp] theorem clearMessage_valueCount (s : State) : s.clearMessage.valueCount = s.valueCount := rfl
@[simp] theorem clearMessage_count (s : State) : s.clearMessage.count = s.count := rfl
@[simp] theorem clearMessage_seen (s : State) : s.clearMessage.seen = [] := rfl
@[simp] theorem clearMessage_dict (s : State) : s.clearMessage.dict = s.dict := rfl
@[simp] theorem clearMessage_idx (s : State) : s.clearMessage.idx = s.idx := rfl
@[simp] theorem clearMessage_unique (s : State) : s.clearMessage.unique = 0#9 := rfl
@[simp] theorem clearMessage_length (s : State) : s.clearMessage.length = 0 := rfl
@[simp] theorem clearMessage_msg (s : State) : s.clearMessage.msg = s.msg := rfl
@[simp] theorem clearMessage_cw (s : State) : s.clearMessage.cw = s.cw := rfl
@[simp] theorem clearMessage_rem (s : State) : s.clearMessage.rem = s.rem := rfl
@[simp] theorem clearMessage_j (s : State) : s.clearMessage.j = s.j := rfl
@[simp] theorem clearMessage_ibuf (s : State) : s.clearMessage.ibuf = s.ibuf := rfl
@[simp] theorem clearMessage_B (s : State) : s.clearMessage.B = s.B := rfl
@[simp] theorem clearMessage_U (s : State) : s.clearMessage.U = s.U := rfl
@[simp] theorem clearMessage_pad (s : State) : s.clearMessage.pad = s.pad := rfl
@[simp] theorem clearMessage_valid (s : State) : s.clearMessage.valid = s.valid := rfl
@[simp] theorem clearMessage_payload (s : State) : s.clearMessage.payload = s.payload := rfl
@[simp] theorem clearMessage_n (s : State) : s.clearMessage.n = s.n := rfl
@[simp] theorem clearMessage_code (s : State) : s.clearMessage.code = s.code := rfl
@[simp] theorem clearMessage_host (s : State) : s.clearMessage.host = s.host := rfl
@[simp] theorem clearMessage_free (s : State) : s.clearMessage.free = s.free := rfl
@[simp] theorem clearMessage_inEmpty (s : State) : s.clearMessage.inEmpty = s.inEmpty := rfl
@[simp] theorem clearMessage_inBit (s : State) (k : Nat) : s.clearMessage.inBit k = s.inBit k := rfl

/-! ## `dStore` -/
@[simp] theorem dStore_cmd (b : Byte) (s : State) : (dStore b s).cmd = s.cmd := rfl
@[simp] theorem dStore_status (b : Byte) (s : State) : (dStore b s).status = s.status := rfl
@[simp] theorem dStore_err (b : Byte) (s : State) : (dStore b s).err = s.err := rfl
@[simp] theorem dStore_phase (b : Byte) (s : State) : (dStore b s).phase = s.phase := rfl
@[simp] theorem dStore_inBytes (b : Byte) (s : State) : (dStore b s).inBytes = s.inBytes := rfl
@[simp] theorem dStore_inEnd (b : Byte) (s : State) : (dStore b s).inEnd = s.inEnd := rfl
@[simp] theorem dStore_ipos (b : Byte) (s : State) : (dStore b s).ipos = s.ipos := rfl
@[simp] theorem dStore_obits (b : Byte) (s : State) : (dStore b s).obits = s.obits := rfl
@[simp] theorem dStore_closed (b : Byte) (s : State) : (dStore b s).closed = s.closed := rfl
@[simp] theorem dStore_lastValue (b : Byte) (s : State) : (dStore b s).lastValue = s.lastValue := rfl
@[simp] theorem dStore_valueCount (b : Byte) (s : State) : (dStore b s).valueCount = s.valueCount := rfl
@[simp] theorem dStore_count (b : Byte) (s : State) : (dStore b s).count = s.count := rfl
@[simp] theorem dStore_seen (b : Byte) (s : State) : (dStore b s).seen = s.seen := rfl
@[simp] theorem dStore_dict (b : Byte) (s : State) : (dStore b s).dict = s.dict := rfl
@[simp] theorem dStore_idx (b : Byte) (s : State) : (dStore b s).idx = s.idx := rfl
@[simp] theorem dStore_unique (b : Byte) (s : State) : (dStore b s).unique = s.unique := rfl
@[simp] theorem dStore_length (b : Byte) (s : State) : (dStore b s).length = s.length + 1 := rfl
@[simp] theorem dStore_msg (b : Byte) (s : State) : (dStore b s).msg = Table.write s.msg s.length b := rfl
@[simp] theorem dStore_cw (b : Byte) (s : State) : (dStore b s).cw = s.cw := rfl
@[simp] theorem dStore_rem (b : Byte) (s : State) : (dStore b s).rem = s.rem := rfl
@[simp] theorem dStore_j (b : Byte) (s : State) : (dStore b s).j = s.j := rfl
@[simp] theorem dStore_ibuf (b : Byte) (s : State) : (dStore b s).ibuf = s.ibuf := rfl
@[simp] theorem dStore_B (b : Byte) (s : State) : (dStore b s).B = s.B := rfl
@[simp] theorem dStore_U (b : Byte) (s : State) : (dStore b s).U = s.U := rfl
@[simp] theorem dStore_pad (b : Byte) (s : State) : (dStore b s).pad = s.pad := rfl
@[simp] theorem dStore_valid (b : Byte) (s : State) : (dStore b s).valid = s.valid := rfl
@[simp] theorem dStore_payload (b : Byte) (s : State) : (dStore b s).payload = s.payload := rfl
@[simp] theorem dStore_n (b : Byte) (s : State) : (dStore b s).n = s.n := rfl
@[simp] theorem dStore_code (b : Byte) (s : State) : (dStore b s).code = s.code := rfl
@[simp] theorem dStore_host (b : Byte) (s : State) : (dStore b s).host = s.host := rfl
@[simp] theorem dStore_free (b : Byte) (s : State) : (dStore b s).free = s.free := rfl
@[simp] theorem dStore_inEmpty (b : Byte) (s : State) : (dStore b s).inEmpty = s.inEmpty := rfl
@[simp] theorem dStore_inBit (b : Byte) (s : State) (k : Nat) : (dStore b s).inBit k = s.inBit k := rfl

/-! ## `dAssign` -/
@[simp] theorem dAssign_cmd (b : Byte) (s : State) : (dAssign b s).cmd = s.cmd := rfl
@[simp] theorem dAssign_status (b : Byte) (s : State) : (dAssign b s).status = s.status := rfl
@[simp] theorem dAssign_err (b : Byte) (s : State) : (dAssign b s).err = s.err := rfl
@[simp] theorem dAssign_phase (b : Byte) (s : State) : (dAssign b s).phase = s.phase := rfl
@[simp] theorem dAssign_inBytes (b : Byte) (s : State) : (dAssign b s).inBytes = s.inBytes := rfl
@[simp] theorem dAssign_inEnd (b : Byte) (s : State) : (dAssign b s).inEnd = s.inEnd := rfl
@[simp] theorem dAssign_ipos (b : Byte) (s : State) : (dAssign b s).ipos = s.ipos := rfl
@[simp] theorem dAssign_obits (b : Byte) (s : State) : (dAssign b s).obits = s.obits := rfl
@[simp] theorem dAssign_closed (b : Byte) (s : State) : (dAssign b s).closed = s.closed := rfl
@[simp] theorem dAssign_lastValue (b : Byte) (s : State) : (dAssign b s).lastValue = s.lastValue := rfl
@[simp] theorem dAssign_valueCount (b : Byte) (s : State) : (dAssign b s).valueCount = s.valueCount := rfl
@[simp] theorem dAssign_count (b : Byte) (s : State) : (dAssign b s).count = s.count := rfl
@[simp] theorem dAssign_seen (b : Byte) (s : State) : (dAssign b s).seen = Table.write s.seen b.toNat 1#1 := rfl
@[simp] theorem dAssign_dict (b : Byte) (s : State) : (dAssign b s).dict = Table.write s.dict s.unique.toNat b := rfl
@[simp] theorem dAssign_idx (b : Byte) (s : State) :
    (dAssign b s).idx = Table.write s.idx b.toNat (s.unique.setWidth 8) := rfl
@[simp] theorem dAssign_unique (b : Byte) (s : State) : (dAssign b s).unique = s.unique + 1#9 := rfl
@[simp] theorem dAssign_length (b : Byte) (s : State) : (dAssign b s).length = s.length := rfl
@[simp] theorem dAssign_msg (b : Byte) (s : State) : (dAssign b s).msg = s.msg := rfl
@[simp] theorem dAssign_cw (b : Byte) (s : State) : (dAssign b s).cw = s.cw := rfl
@[simp] theorem dAssign_rem (b : Byte) (s : State) : (dAssign b s).rem = s.rem := rfl
@[simp] theorem dAssign_j (b : Byte) (s : State) : (dAssign b s).j = s.j := rfl
@[simp] theorem dAssign_ibuf (b : Byte) (s : State) : (dAssign b s).ibuf = s.ibuf := rfl
@[simp] theorem dAssign_B (b : Byte) (s : State) : (dAssign b s).B = s.B := rfl
@[simp] theorem dAssign_U (b : Byte) (s : State) : (dAssign b s).U = s.U := rfl
@[simp] theorem dAssign_pad (b : Byte) (s : State) : (dAssign b s).pad = s.pad := rfl
@[simp] theorem dAssign_valid (b : Byte) (s : State) : (dAssign b s).valid = s.valid := rfl
@[simp] theorem dAssign_payload (b : Byte) (s : State) : (dAssign b s).payload = s.payload := rfl
@[simp] theorem dAssign_n (b : Byte) (s : State) : (dAssign b s).n = s.n := rfl
@[simp] theorem dAssign_code (b : Byte) (s : State) : (dAssign b s).code = s.code := rfl
@[simp] theorem dAssign_host (b : Byte) (s : State) : (dAssign b s).host = s.host := rfl
@[simp] theorem dAssign_free (b : Byte) (s : State) : (dAssign b s).free = s.free := rfl
@[simp] theorem dAssign_inEmpty (b : Byte) (s : State) : (dAssign b s).inEmpty = s.inEmpty := rfl
@[simp] theorem dAssign_inBit (b : Byte) (s : State) (k : Nat) : (dAssign b s).inBit k = s.inBit k := rfl

/-! ## `dWidths` -/
@[simp] theorem dWidths_cmd (s : State) : (dWidths s).cmd = s.cmd := rfl
@[simp] theorem dWidths_status (s : State) : (dWidths s).status = s.status := rfl
@[simp] theorem dWidths_err (s : State) : (dWidths s).err = s.err := rfl
@[simp] theorem dWidths_phase (s : State) : (dWidths s).phase = s.phase := rfl
@[simp] theorem dWidths_inBytes (s : State) : (dWidths s).inBytes = s.inBytes := rfl
@[simp] theorem dWidths_inEnd (s : State) : (dWidths s).inEnd = s.inEnd := rfl
@[simp] theorem dWidths_ipos (s : State) : (dWidths s).ipos = s.ipos := rfl
@[simp] theorem dWidths_obits (s : State) : (dWidths s).obits = s.obits := rfl
@[simp] theorem dWidths_closed (s : State) : (dWidths s).closed = s.closed := rfl
@[simp] theorem dWidths_lastValue (s : State) : (dWidths s).lastValue = s.lastValue := rfl
@[simp] theorem dWidths_valueCount (s : State) : (dWidths s).valueCount = s.valueCount := rfl
@[simp] theorem dWidths_count (s : State) : (dWidths s).count = s.count := rfl
@[simp] theorem dWidths_seen (s : State) : (dWidths s).seen = s.seen := rfl
@[simp] theorem dWidths_dict (s : State) : (dWidths s).dict = s.dict := rfl
@[simp] theorem dWidths_idx (s : State) : (dWidths s).idx = s.idx := rfl
@[simp] theorem dWidths_unique (s : State) : (dWidths s).unique = s.unique := rfl
@[simp] theorem dWidths_length (s : State) : (dWidths s).length = s.length := rfl
@[simp] theorem dWidths_msg (s : State) : (dWidths s).msg = s.msg := rfl
@[simp] theorem dWidths_cw (s : State) : (dWidths s).cw = BitVec.ofNat 4 (codeWidth s.unique.toNat) := rfl
@[simp] theorem dWidths_rem (s : State) :
    (dWidths s).rem = BitVec.ofNat 3 (remainder (codeWidth s.unique.toNat) s.length) := rfl
@[simp] theorem dWidths_j (s : State) : (dWidths s).j = s.j := rfl
@[simp] theorem dWidths_ibuf (s : State) : (dWidths s).ibuf = s.ibuf := rfl
@[simp] theorem dWidths_B (s : State) : (dWidths s).B = s.B := rfl
@[simp] theorem dWidths_U (s : State) : (dWidths s).U = s.U := rfl
@[simp] theorem dWidths_pad (s : State) : (dWidths s).pad = s.pad := rfl
@[simp] theorem dWidths_valid (s : State) : (dWidths s).valid = s.valid := rfl
@[simp] theorem dWidths_payload (s : State) : (dWidths s).payload = s.payload := rfl
@[simp] theorem dWidths_n (s : State) : (dWidths s).n = s.n := rfl
@[simp] theorem dWidths_code (s : State) : (dWidths s).code = s.code := rfl
@[simp] theorem dWidths_host (s : State) : (dWidths s).host = s.host := rfl
@[simp] theorem dWidths_free (s : State) : (dWidths s).free = s.free := rfl
@[simp] theorem dWidths_inEmpty (s : State) : (dWidths s).inEmpty = s.inEmpty := rfl
@[simp] theorem dWidths_inBit (s : State) (k : Nat) : (dWidths s).inBit k = s.inBit k := rfl

/-! ## `clearB` -/
@[simp] theorem clearB_cmd (s : State) : s.clearB.cmd = s.cmd := rfl
@[simp] theorem clearB_status (s : State) : s.clearB.status = s.status := rfl
@[simp] theorem clearB_err (s : State) : s.clearB.err = s.err := rfl
@[simp] theorem clearB_phase (s : State) : s.clearB.phase = s.phase := rfl
@[simp] theorem clearB_inBytes (s : State) : s.clearB.inBytes = s.inBytes := rfl
@[simp] theorem clearB_inEnd (s : State) : s.clearB.inEnd = s.inEnd := rfl
@[simp] theorem clearB_ipos (s : State) : s.clearB.ipos = s.ipos := rfl
@[simp] theorem clearB_obits (s : State) : s.clearB.obits = s.obits := rfl
@[simp] theorem clearB_closed (s : State) : s.clearB.closed = s.closed := rfl
@[simp] theorem clearB_lastValue (s : State) : s.clearB.lastValue = s.lastValue := rfl
@[simp] theorem clearB_valueCount (s : State) : s.clearB.valueCount = s.valueCount := rfl
@[simp] theorem clearB_count (s : State) : s.clearB.count = s.count := rfl
@[simp] theorem clearB_seen (s : State) : s.clearB.seen = s.seen := rfl
@[simp] theorem clearB_dict (s : State) : s.clearB.dict = s.dict := rfl
@[simp] theorem clearB_idx (s : State) : s.clearB.idx = s.idx := rfl
@[simp] theorem clearB_unique (s : State) : s.clearB.unique = s.unique := rfl
@[simp] theorem clearB_length (s : State) : s.clearB.length = s.length := rfl
@[simp] theorem clearB_msg (s : State) : s.clearB.msg = s.msg := rfl
@[simp] theorem clearB_cw (s : State) : s.clearB.cw = s.cw := rfl
@[simp] theorem clearB_rem (s : State) : s.clearB.rem = s.rem := rfl
@[simp] theorem clearB_j (s : State) : s.clearB.j = s.j := rfl
@[simp] theorem clearB_ibuf (s : State) : s.clearB.ibuf = s.ibuf := rfl
@[simp] theorem clearB_B (s : State) : s.clearB.B = 0 := rfl
@[simp] theorem clearB_U (s : State) : s.clearB.U = s.U := rfl
@[simp] theorem clearB_pad (s : State) : s.clearB.pad = s.pad := rfl
@[simp] theorem clearB_valid (s : State) : s.clearB.valid = s.valid := rfl
@[simp] theorem clearB_payload (s : State) : s.clearB.payload = s.payload := rfl
@[simp] theorem clearB_n (s : State) : s.clearB.n = s.n := rfl
@[simp] theorem clearB_code (s : State) : s.clearB.code = s.code := rfl
@[simp] theorem clearB_host (s : State) : s.clearB.host = s.host := rfl
@[simp] theorem clearB_free (s : State) : s.clearB.free = s.free := rfl
@[simp] theorem clearB_inEmpty (s : State) : s.clearB.inEmpty = s.inEmpty := rfl
@[simp] theorem clearB_inBit (s : State) (k : Nat) : s.clearB.inBit k = s.inBit k := rfl

/-! ## `eStore` -/
@[simp] theorem eStore_cmd (b : Byte) (s : State) : (eStore b s).cmd = s.cmd := rfl
@[simp] theorem eStore_status (b : Byte) (s : State) : (eStore b s).status = s.status := rfl
@[simp] theorem eStore_err (b : Byte) (s : State) : (eStore b s).err = s.err := rfl
@[simp] theorem eStore_phase (b : Byte) (s : State) : (eStore b s).phase = s.phase := rfl
@[simp] theorem eStore_inBytes (b : Byte) (s : State) : (eStore b s).inBytes = s.inBytes := rfl
@[simp] theorem eStore_inEnd (b : Byte) (s : State) : (eStore b s).inEnd = s.inEnd := rfl
@[simp] theorem eStore_ipos (b : Byte) (s : State) : (eStore b s).ipos = s.ipos := rfl
@[simp] theorem eStore_obits (b : Byte) (s : State) : (eStore b s).obits = s.obits := rfl
@[simp] theorem eStore_closed (b : Byte) (s : State) : (eStore b s).closed = s.closed := rfl
@[simp] theorem eStore_lastValue (b : Byte) (s : State) : (eStore b s).lastValue = s.lastValue := rfl
@[simp] theorem eStore_valueCount (b : Byte) (s : State) : (eStore b s).valueCount = s.valueCount := rfl
@[simp] theorem eStore_count (b : Byte) (s : State) : (eStore b s).count = s.count := rfl
@[simp] theorem eStore_seen (b : Byte) (s : State) : (eStore b s).seen = s.seen := rfl
@[simp] theorem eStore_dict (b : Byte) (s : State) : (eStore b s).dict = s.dict := rfl
@[simp] theorem eStore_idx (b : Byte) (s : State) : (eStore b s).idx = s.idx := rfl
@[simp] theorem eStore_unique (b : Byte) (s : State) : (eStore b s).unique = s.unique := rfl
@[simp] theorem eStore_length (b : Byte) (s : State) : (eStore b s).length = s.length := rfl
@[simp] theorem eStore_msg (b : Byte) (s : State) : (eStore b s).msg = s.msg := rfl
@[simp] theorem eStore_cw (b : Byte) (s : State) : (eStore b s).cw = s.cw := rfl
@[simp] theorem eStore_rem (b : Byte) (s : State) : (eStore b s).rem = s.rem := rfl
@[simp] theorem eStore_j (b : Byte) (s : State) : (eStore b s).j = s.j := rfl
@[simp] theorem eStore_ibuf (b : Byte) (s : State) : (eStore b s).ibuf = Table.write s.ibuf s.B b := rfl
@[simp] theorem eStore_B (b : Byte) (s : State) : (eStore b s).B = s.B + 1 := rfl
@[simp] theorem eStore_U (b : Byte) (s : State) : (eStore b s).U = s.U := rfl
@[simp] theorem eStore_pad (b : Byte) (s : State) : (eStore b s).pad = s.pad := rfl
@[simp] theorem eStore_valid (b : Byte) (s : State) : (eStore b s).valid = s.valid := rfl
@[simp] theorem eStore_payload (b : Byte) (s : State) : (eStore b s).payload = s.payload := rfl
@[simp] theorem eStore_n (b : Byte) (s : State) : (eStore b s).n = s.n := rfl
@[simp] theorem eStore_code (b : Byte) (s : State) : (eStore b s).code = s.code := rfl
@[simp] theorem eStore_host (b : Byte) (s : State) : (eStore b s).host = s.host := rfl
@[simp] theorem eStore_free (b : Byte) (s : State) : (eStore b s).free = s.free := rfl
@[simp] theorem eStore_inEmpty (b : Byte) (s : State) : (eStore b s).inEmpty = s.inEmpty := rfl
@[simp] theorem eStore_inBit (b : Byte) (s : State) (k : Nat) : (eStore b s).inBit k = s.inBit k := rfl

/-! ## `eHeader` -/
@[simp] theorem eHeader_cmd (r : BitVec 3) (u : BitVec 8) (s : State) : (eHeader r u s).cmd = s.cmd := rfl
@[simp] theorem eHeader_status (r : BitVec 3) (u : BitVec 8) (s : State) : (eHeader r u s).status = s.status := rfl
@[simp] theorem eHeader_err (r : BitVec 3) (u : BitVec 8) (s : State) : (eHeader r u s).err = s.err := rfl
@[simp] theorem eHeader_phase (r : BitVec 3) (u : BitVec 8) (s : State) : (eHeader r u s).phase = s.phase := rfl
@[simp] theorem eHeader_inBytes (r : BitVec 3) (u : BitVec 8) (s : State) : (eHeader r u s).inBytes = s.inBytes := rfl
@[simp] theorem eHeader_inEnd (r : BitVec 3) (u : BitVec 8) (s : State) : (eHeader r u s).inEnd = s.inEnd := rfl
@[simp] theorem eHeader_ipos (r : BitVec 3) (u : BitVec 8) (s : State) : (eHeader r u s).ipos = s.ipos := rfl
@[simp] theorem eHeader_obits (r : BitVec 3) (u : BitVec 8) (s : State) : (eHeader r u s).obits = s.obits := rfl
@[simp] theorem eHeader_closed (r : BitVec 3) (u : BitVec 8) (s : State) : (eHeader r u s).closed = s.closed := rfl
@[simp] theorem eHeader_lastValue (r : BitVec 3) (u : BitVec 8) (s : State) :
    (eHeader r u s).lastValue = s.lastValue := rfl
@[simp] theorem eHeader_valueCount (r : BitVec 3) (u : BitVec 8) (s : State) :
    (eHeader r u s).valueCount = s.valueCount := rfl
@[simp] theorem eHeader_count (r : BitVec 3) (u : BitVec 8) (s : State) : (eHeader r u s).count = s.count := rfl
@[simp] theorem eHeader_seen (r : BitVec 3) (u : BitVec 8) (s : State) : (eHeader r u s).seen = s.seen := rfl
@[simp] theorem eHeader_dict (r : BitVec 3) (u : BitVec 8) (s : State) : (eHeader r u s).dict = s.dict := rfl
@[simp] theorem eHeader_idx (r : BitVec 3) (u : BitVec 8) (s : State) : (eHeader r u s).idx = s.idx := rfl
@[simp] theorem eHeader_unique (r : BitVec 3) (u : BitVec 8) (s : State) :
    (eHeader r u s).unique = resolveUnique u s.B := rfl
@[simp] theorem eHeader_length (r : BitVec 3) (u : BitVec 8) (s : State) : (eHeader r u s).length = s.length := rfl
@[simp] theorem eHeader_msg (r : BitVec 3) (u : BitVec 8) (s : State) : (eHeader r u s).msg = s.msg := rfl
@[simp] theorem eHeader_cw (r : BitVec 3) (u : BitVec 8) (s : State) : (eHeader r u s).cw = s.cw := rfl
@[simp] theorem eHeader_rem (r : BitVec 3) (u : BitVec 8) (s : State) : (eHeader r u s).rem = r := rfl
@[simp] theorem eHeader_j (r : BitVec 3) (u : BitVec 8) (s : State) : (eHeader r u s).j = s.j := rfl
@[simp] theorem eHeader_ibuf (r : BitVec 3) (u : BitVec 8) (s : State) : (eHeader r u s).ibuf = s.ibuf := rfl
@[simp] theorem eHeader_B (r : BitVec 3) (u : BitVec 8) (s : State) : (eHeader r u s).B = s.B := rfl
@[simp] theorem eHeader_U (r : BitVec 3) (u : BitVec 8) (s : State) : (eHeader r u s).U = u := rfl
@[simp] theorem eHeader_pad (r : BitVec 3) (u : BitVec 8) (s : State) : (eHeader r u s).pad = s.pad := rfl
@[simp] theorem eHeader_valid (r : BitVec 3) (u : BitVec 8) (s : State) : (eHeader r u s).valid = s.valid := rfl
@[simp] theorem eHeader_payload (r : BitVec 3) (u : BitVec 8) (s : State) : (eHeader r u s).payload = s.payload := rfl
@[simp] theorem eHeader_n (r : BitVec 3) (u : BitVec 8) (s : State) : (eHeader r u s).n = s.n := rfl
@[simp] theorem eHeader_code (r : BitVec 3) (u : BitVec 8) (s : State) : (eHeader r u s).code = s.code := rfl
@[simp] theorem eHeader_host (r : BitVec 3) (u : BitVec 8) (s : State) : (eHeader r u s).host = s.host := rfl
@[simp] theorem eHeader_free (r : BitVec 3) (u : BitVec 8) (s : State) : (eHeader r u s).free = s.free := rfl
@[simp] theorem eHeader_inEmpty (r : BitVec 3) (u : BitVec 8) (s : State) : (eHeader r u s).inEmpty = s.inEmpty := rfl
@[simp] theorem eHeader_inBit (r : BitVec 3) (u : BitVec 8) (s : State) (k : Nat) : (eHeader r u s).inBit k = s.inBit k := rfl

/-! ## `eEntry` -/
@[simp] theorem eEntry_cmd (b : BitVec 8) (s : State) : (eEntry b s).cmd = s.cmd := rfl
@[simp] theorem eEntry_status (b : BitVec 8) (s : State) : (eEntry b s).status = s.status := rfl
@[simp] theorem eEntry_err (b : BitVec 8) (s : State) : (eEntry b s).err = s.err := rfl
@[simp] theorem eEntry_phase (b : BitVec 8) (s : State) : (eEntry b s).phase = s.phase := rfl
@[simp] theorem eEntry_inBytes (b : BitVec 8) (s : State) : (eEntry b s).inBytes = s.inBytes := rfl
@[simp] theorem eEntry_inEnd (b : BitVec 8) (s : State) : (eEntry b s).inEnd = s.inEnd := rfl
@[simp] theorem eEntry_ipos (b : BitVec 8) (s : State) : (eEntry b s).ipos = s.ipos := rfl
@[simp] theorem eEntry_obits (b : BitVec 8) (s : State) : (eEntry b s).obits = s.obits := rfl
@[simp] theorem eEntry_closed (b : BitVec 8) (s : State) : (eEntry b s).closed = s.closed := rfl
@[simp] theorem eEntry_lastValue (b : BitVec 8) (s : State) : (eEntry b s).lastValue = s.lastValue := rfl
@[simp] theorem eEntry_valueCount (b : BitVec 8) (s : State) : (eEntry b s).valueCount = s.valueCount := rfl
@[simp] theorem eEntry_count (b : BitVec 8) (s : State) : (eEntry b s).count = s.count := rfl
@[simp] theorem eEntry_seen (b : BitVec 8) (s : State) : (eEntry b s).seen = s.seen := rfl
@[simp] theorem eEntry_dict (b : BitVec 8) (s : State) : (eEntry b s).dict = Table.write s.dict s.j b := rfl
@[simp] theorem eEntry_idx (b : BitVec 8) (s : State) : (eEntry b s).idx = s.idx := rfl
@[simp] theorem eEntry_unique (b : BitVec 8) (s : State) : (eEntry b s).unique = s.unique := rfl
@[simp] theorem eEntry_length (b : BitVec 8) (s : State) : (eEntry b s).length = s.length := rfl
@[simp] theorem eEntry_msg (b : BitVec 8) (s : State) : (eEntry b s).msg = s.msg := rfl
@[simp] theorem eEntry_cw (b : BitVec 8) (s : State) : (eEntry b s).cw = s.cw := rfl
@[simp] theorem eEntry_rem (b : BitVec 8) (s : State) : (eEntry b s).rem = s.rem := rfl
@[simp] theorem eEntry_j (b : BitVec 8) (s : State) : (eEntry b s).j = s.j := rfl
@[simp] theorem eEntry_ibuf (b : BitVec 8) (s : State) : (eEntry b s).ibuf = s.ibuf := rfl
@[simp] theorem eEntry_B (b : BitVec 8) (s : State) : (eEntry b s).B = s.B := rfl
@[simp] theorem eEntry_U (b : BitVec 8) (s : State) : (eEntry b s).U = s.U := rfl
@[simp] theorem eEntry_pad (b : BitVec 8) (s : State) : (eEntry b s).pad = s.pad := rfl
@[simp] theorem eEntry_valid (b : BitVec 8) (s : State) : (eEntry b s).valid = s.valid := rfl
@[simp] theorem eEntry_payload (b : BitVec 8) (s : State) : (eEntry b s).payload = s.payload := rfl
@[simp] theorem eEntry_n (b : BitVec 8) (s : State) : (eEntry b s).n = s.n := rfl
@[simp] theorem eEntry_code (b : BitVec 8) (s : State) : (eEntry b s).code = s.code := rfl
@[simp] theorem eEntry_host (b : BitVec 8) (s : State) : (eEntry b s).host = s.host := rfl
@[simp] theorem eEntry_free (b : BitVec 8) (s : State) : (eEntry b s).free = s.free := rfl
@[simp] theorem eEntry_inEmpty (b : BitVec 8) (s : State) : (eEntry b s).inEmpty = s.inEmpty := rfl
@[simp] theorem eEntry_inBit (b : BitVec 8) (s : State) (k : Nat) : (eEntry b s).inBit k = s.inBit k := rfl

/-! ## `eWidths` -/
@[simp] theorem eWidths_cmd (s : State) : (eWidths s).cmd = s.cmd := rfl
@[simp] theorem eWidths_status (s : State) : (eWidths s).status = s.status := rfl
@[simp] theorem eWidths_err (s : State) : (eWidths s).err = s.err := rfl
@[simp] theorem eWidths_phase (s : State) : (eWidths s).phase = s.phase := rfl
@[simp] theorem eWidths_inBytes (s : State) : (eWidths s).inBytes = s.inBytes := rfl
@[simp] theorem eWidths_inEnd (s : State) : (eWidths s).inEnd = s.inEnd := rfl
@[simp] theorem eWidths_ipos (s : State) : (eWidths s).ipos = s.ipos := rfl
@[simp] theorem eWidths_obits (s : State) : (eWidths s).obits = s.obits := rfl
@[simp] theorem eWidths_closed (s : State) : (eWidths s).closed = s.closed := rfl
@[simp] theorem eWidths_lastValue (s : State) : (eWidths s).lastValue = s.lastValue := rfl
@[simp] theorem eWidths_valueCount (s : State) : (eWidths s).valueCount = s.valueCount := rfl
@[simp] theorem eWidths_count (s : State) : (eWidths s).count = s.count := rfl
@[simp] theorem eWidths_seen (s : State) : (eWidths s).seen = s.seen := rfl
@[simp] theorem eWidths_dict (s : State) : (eWidths s).dict = s.dict := rfl
@[simp] theorem eWidths_idx (s : State) : (eWidths s).idx = s.idx := rfl
@[simp] theorem eWidths_unique (s : State) : (eWidths s).unique = s.unique := rfl
@[simp] theorem eWidths_length (s : State) : (eWidths s).length = s.length := rfl
@[simp] theorem eWidths_msg (s : State) : (eWidths s).msg = s.msg := rfl
@[simp] theorem eWidths_cw (s : State) : (eWidths s).cw = BitVec.ofNat 4 (codeWidth s.unique.toNat) := rfl
@[simp] theorem eWidths_rem (s : State) : (eWidths s).rem = s.rem := rfl
@[simp] theorem eWidths_j (s : State) : (eWidths s).j = s.j := rfl
@[simp] theorem eWidths_ibuf (s : State) : (eWidths s).ibuf = s.ibuf := rfl
@[simp] theorem eWidths_B (s : State) : (eWidths s).B = s.B := rfl
@[simp] theorem eWidths_U (s : State) : (eWidths s).U = s.U := rfl
@[simp] theorem eWidths_pad (s : State) : (eWidths s).pad = BitVec.ofNat 3 (padOf s.rem.toNat) := rfl
@[simp] theorem eWidths_valid (s : State) : (eWidths s).valid = 8 * (s.B : Int) - padOf s.rem.toNat := rfl
@[simp] theorem eWidths_payload (s : State) :
    (eWidths s).payload = 8 * (s.B : Int) - padOf s.rem.toNat - 11 - 8 * s.unique.toNat := rfl
@[simp] theorem eWidths_n (s : State) : (eWidths s).n = s.n := rfl
@[simp] theorem eWidths_code (s : State) : (eWidths s).code = s.code := rfl
@[simp] theorem eWidths_host (s : State) : (eWidths s).host = s.host := rfl
@[simp] theorem eWidths_free (s : State) : (eWidths s).free = s.free := rfl
@[simp] theorem eWidths_inEmpty (s : State) : (eWidths s).inEmpty = s.inEmpty := rfl
@[simp] theorem eWidths_inBit (s : State) (k : Nat) : (eWidths s).inBit k = s.inBit k := rfl

/-! ## `forget` -/
@[simp] theorem forget_cmd (s : State) : s.forget.cmd = s.cmd := rfl
@[simp] theorem forget_status (s : State) : s.forget.status = s.status := rfl
@[simp] theorem forget_err (s : State) : s.forget.err = s.err := rfl
@[simp] theorem forget_phase (s : State) : s.forget.phase = s.phase := rfl
@[simp] theorem forget_inBytes (s : State) : s.forget.inBytes = s.inBytes := rfl
@[simp] theorem forget_inEnd (s : State) : s.forget.inEnd = s.inEnd := rfl
@[simp] theorem forget_ipos (s : State) : s.forget.ipos = s.ipos := rfl
@[simp] theorem forget_obits (s : State) : s.forget.obits = s.obits := rfl
@[simp] theorem forget_closed (s : State) : s.forget.closed = s.closed := rfl
@[simp] theorem forget_host (s : State) : s.forget.host = s.host := rfl
@[simp] theorem forget_free (s : State) : s.forget.free = s.free + 1 := rfl
@[simp] theorem forget_inEmpty (s : State) : s.forget.inEmpty = s.inEmpty := rfl
@[simp] theorem forget_inBit (s : State) (k : Nat) : s.forget.inBit k = s.inBit k := rfl

/-! ## `abort` -/
@[simp] theorem abort_cmd (e : ErrCode) (s : State) : (s.abort e).cmd = s.cmd := rfl
@[simp] theorem abort_status (e : ErrCode) (s : State) : (s.abort e).status = Status.error := rfl
@[simp] theorem abort_err (e : ErrCode) (s : State) : (s.abort e).err = e := rfl
@[simp] theorem abort_phase (e : ErrCode) (s : State) : (s.abort e).phase = Phase.halt := rfl
@[simp] theorem abort_inBytes (e : ErrCode) (s : State) : (s.abort e).inBytes = s.inBytes.take ((s.ipos + 7) / 8) := rfl
@[simp] theorem abort_inEnd (e : ErrCode) (s : State) : (s.abort e).inEnd = s.inEnd := rfl
@[simp] theorem abort_ipos (e : ErrCode) (s : State) : (s.abort e).ipos = s.ipos := rfl
@[simp] theorem abort_obits (e : ErrCode) (s : State) : (s.abort e).obits = bytesBits (Config.freeOut s.free) := rfl
@[simp] theorem abort_closed (e : ErrCode) (s : State) : (s.abort e).closed = true := rfl
@[simp] theorem abort_host (e : ErrCode) (s : State) : (s.abort e).host = s.host := rfl
@[simp] theorem abort_free (e : ErrCode) (s : State) : (s.abort e).free = s.free + 1 := rfl

/-! ## `resetBlock` -/
@[simp] theorem resetBlock_cmd (s : State) : (resetBlock s).cmd = State.reset.cmd := rfl
@[simp] theorem resetBlock_status (s : State) : (resetBlock s).status = State.reset.status := rfl
@[simp] theorem resetBlock_err (s : State) : (resetBlock s).err = State.reset.err := rfl
@[simp] theorem resetBlock_phase (s : State) : (resetBlock s).phase = State.reset.phase := rfl
@[simp] theorem resetBlock_inBytes (s : State) : (resetBlock s).inBytes = State.reset.inBytes := rfl
@[simp] theorem resetBlock_inEnd (s : State) : (resetBlock s).inEnd = State.reset.inEnd := rfl
@[simp] theorem resetBlock_ipos (s : State) : (resetBlock s).ipos = State.reset.ipos := rfl
@[simp] theorem resetBlock_obits (s : State) : (resetBlock s).obits = State.reset.obits := rfl
@[simp] theorem resetBlock_closed (s : State) : (resetBlock s).closed = State.reset.closed := rfl
@[simp] theorem resetBlock_lastValue (s : State) : (resetBlock s).lastValue = State.reset.lastValue := rfl
@[simp] theorem resetBlock_valueCount (s : State) : (resetBlock s).valueCount = State.reset.valueCount := rfl
@[simp] theorem resetBlock_count (s : State) : (resetBlock s).count = State.reset.count := rfl
@[simp] theorem resetBlock_seen (s : State) : (resetBlock s).seen = State.reset.seen := rfl
@[simp] theorem resetBlock_dict (s : State) : (resetBlock s).dict = State.reset.dict := rfl
@[simp] theorem resetBlock_idx (s : State) : (resetBlock s).idx = State.reset.idx := rfl
@[simp] theorem resetBlock_unique (s : State) : (resetBlock s).unique = State.reset.unique := rfl
@[simp] theorem resetBlock_length (s : State) : (resetBlock s).length = State.reset.length := rfl
@[simp] theorem resetBlock_msg (s : State) : (resetBlock s).msg = State.reset.msg := rfl
@[simp] theorem resetBlock_cw (s : State) : (resetBlock s).cw = State.reset.cw := rfl
@[simp] theorem resetBlock_rem (s : State) : (resetBlock s).rem = State.reset.rem := rfl
@[simp] theorem resetBlock_j (s : State) : (resetBlock s).j = State.reset.j := rfl
@[simp] theorem resetBlock_ibuf (s : State) : (resetBlock s).ibuf = State.reset.ibuf := rfl
@[simp] theorem resetBlock_B (s : State) : (resetBlock s).B = State.reset.B := rfl
@[simp] theorem resetBlock_U (s : State) : (resetBlock s).U = State.reset.U := rfl
@[simp] theorem resetBlock_pad (s : State) : (resetBlock s).pad = State.reset.pad := rfl
@[simp] theorem resetBlock_valid (s : State) : (resetBlock s).valid = State.reset.valid := rfl
@[simp] theorem resetBlock_payload (s : State) : (resetBlock s).payload = State.reset.payload := rfl
@[simp] theorem resetBlock_n (s : State) : (resetBlock s).n = State.reset.n := rfl
@[simp] theorem resetBlock_code (s : State) : (resetBlock s).code = State.reset.code := rfl
@[simp] theorem resetBlock_host (s : State) : (resetBlock s).host = s.host := rfl
@[simp] theorem resetBlock_free (s : State) : (resetBlock s).free = s.free := rfl

end Sys2Proof.Machine
end

