-- ==== Sys2Proof/Laws/Tables.lean ====
section
/-! SUPPORT. The laws of tables and buffers: read after write, and the canonical form that every operation keeps. -/

namespace Sys2Proof.Machine

@[simp] theorem Table.read_nil {w : Nat} (i : Nat) : Table.read ([] : Table w) i = 0#w := rfl

/-- A write leaves every other entry alone. -/
theorem Table.read_write_other {w : Nat} (t : Table w) {i k : Nat} (v : BitVec w) (h : k ≠ i) :
    Table.read (Table.write t i v) k = Table.read t k := by
  induction t with
  | nil => by_cases hv : v = 0#w <;> simp [Table.write, Table.read, hv, h]
  | cons c t ih =>
    obtain ⟨a, x⟩ := c
    rw [Table.write]
    split
    · split <;> simp [Table.read, h]
    · split
      · rename_i hi
        subst hi
        split <;> simp [Table.read, h]
      · simp [Table.read, ih]

theorem Table.read_of_all_gt {w : Nat} {t : Table w} {i : Nat} (h : ∀ c ∈ t, i < c.1) : Table.read t i = 0#w := by
  induction t with
  | nil => rfl
  | cons c t ih =>
    have h0 := h c (by simp)
    rw [Table.read, if_neg (by omega), ih fun d hd => h d (by simp [hd])]

/-- A write gives the value written, in a table of canonical form. -/
theorem Table.read_write_same {w : Nat} {t : Table w} (hw : Table.wf t) (i : Nat) (v : BitVec w) :
    Table.read (Table.write t i v) i = v := by
  induction t with
  | nil => by_cases hv : v = 0#w <;> simp [Table.write, Table.read, hv]
  | cons c t ih =>
    obtain ⟨a, x⟩ := c
    have hp := List.pairwise_cons.1 hw.1
    have ht : Table.wf t := ⟨hp.2, fun d hd => hw.2 d (by simp [hd])⟩
    rw [Table.write]
    split
    · split
      · rename_i h1 h2
        rw [h2]
        exact Table.read_of_all_gt fun d hd => by
          rcases List.mem_cons.1 hd with rfl | hd
          · exact h1
          · exact Nat.lt_trans h1 (hp.1 d hd)
      · simp [Table.read]
    · split
      · split
        · rename_i h1 h2 h3
          subst h2
          rw [h3]
          exact Table.read_of_all_gt hp.1
        · simp [Table.read]
      · rename_i h1 h2
        rw [Table.read, if_neg h2, ih ht]

/-- The entries a write leaves listed are the written one and entries listed before. -/
theorem Table.mem_write {w : Nat} {t : Table w} {i : Nat} {v : BitVec w} {c : Nat × BitVec w}
    (h : c ∈ Table.write t i v) : c ∈ t ∨ (c = (i, v) ∧ v ≠ 0#w) := by
  induction t with
  | nil => by_cases hv : v = 0#w <;> simp_all [Table.write]
  | cons d t ih =>
    obtain ⟨a, x⟩ := d
    rw [Table.write] at h
    split at h
    · split at h
      · exact .inl h
      · rcases List.mem_cons.1 h with rfl | h
        · exact .inr ⟨rfl, ‹_›⟩
        · exact .inl h
    · split at h
      · split at h
        · exact .inl (by simp [h])
        · rcases List.mem_cons.1 h with rfl | h
          · exact .inr ⟨rfl, ‹_›⟩
          · exact .inl (by simp [h])
      · rcases List.mem_cons.1 h with rfl | h
        · exact .inl (by simp)
        · rcases ih h with h | h
          · exact .inl (by simp [h])
          · exact .inr h

/-- A write keeps the canonical form. -/
theorem Table.write_wf {w : Nat} {t : Table w} (hw : Table.wf t) (i : Nat) (v : BitVec w) :
    Table.wf (Table.write t i v) := by
  refine ⟨?_, fun c hc => ?_⟩
  · induction t with
    | nil => by_cases hv : v = 0#w <;> simp [Table.write, hv]
    | cons d t ih =>
      obtain ⟨a, x⟩ := d
      have hp := List.pairwise_cons.1 hw.1
      have ht : Table.wf t := ⟨hp.2, fun d hd => hw.2 d (by simp [hd])⟩
      rw [Table.write]
      split
      · split
        · exact hw.1
        · rename_i h1 _
          refine List.pairwise_cons.2 ⟨fun e he => ?_, hw.1⟩
          rcases List.mem_cons.1 he with rfl | he
          · exact h1
          · exact Nat.lt_trans h1 (hp.1 e he)
      · split
        · split
          · exact hp.2
          · rename_i h2 _
            subst h2
            exact List.pairwise_cons.2 ⟨hp.1, hp.2⟩
        · rename_i h1 h2
          refine List.pairwise_cons.2 ⟨fun e he => ?_, ih ht⟩
          rcases Table.mem_write he with he | ⟨rfl, _⟩
          · exact hp.1 e he
          · exact Nat.lt_of_le_of_ne (Nat.le_of_not_lt h1) (Ne.symm h2)
  · rcases Table.mem_write hc with hc | ⟨rfl, hv⟩
    · exact hw.2 c hc
    · exact hv

/-- A write at an index below a bound keeps every listed index below it. -/
theorem Table.write_lt {w : Nat} {t : Table w} {N i : Nat} {v : BitVec w} (h : ∀ c ∈ t, c.1 < N) (hi : i < N) :
    ∀ c ∈ Table.write t i v, c.1 < N := by
  intro c hc
  rcases Table.mem_write hc with hc | ⟨rfl, _⟩
  · exact h c hc
  · exact hi

theorem Table.wf_nil {w : Nat} : Table.wf ([] : Table w) := ⟨List.Pairwise.nil, fun _ h => nomatch h⟩

/-- A table built from cells is in canonical form and lists allowed indices only. -/
theorem Table.ofCells_wf {w : Nat} (allowed : Nat → Bool) (cells : List (Nat × BitVec w)) :
    Table.wf (Table.ofCells allowed cells) ∧ ∀ c ∈ Table.ofCells allowed cells, allowed c.1 = true := by
  suffices h : ∀ t : Table w, Table.wf t → (∀ c ∈ t, allowed c.1 = true) →
      Table.wf (cells.foldl (fun t c => if allowed c.1 then Table.write t c.1 c.2 else t) t) ∧
        ∀ c ∈ cells.foldl (fun t c => if allowed c.1 then Table.write t c.1 c.2 else t) t, allowed c.1 = true from
    h [] Table.wf_nil fun _ h => nomatch h
  induction cells with
  | nil => exact fun t ht ha => ⟨ht, ha⟩
  | cons c cells ih =>
    intro t ht ha
    rw [List.foldl_cons]
    refine ih _ ?_ ?_
    · split
      · exact Table.write_wf ht _ _
      · exact ht
    · split
      · rename_i hc
        intro d hd
        rcases Table.mem_write hd with hd | ⟨rfl, _⟩
        · exact ha d hd
        · exact hc
      · exact ha

/-- A listed entry reads as it is listed. -/
theorem Table.read_of_mem {w : Nat} {t : Table w} (hw : Table.wf t) {c : Nat × BitVec w} (hc : c ∈ t) :
    Table.read t c.1 = c.2 := by
  induction t with
  | nil => simp at hc
  | cons d t ih =>
    obtain ⟨a, x⟩ := d
    have hp := List.pairwise_cons.1 hw.1
    rcases List.mem_cons.1 hc with rfl | hc
    · simp [Table.read]
    · have := hp.1 c hc
      rw [Table.read, if_neg (by simp at this; omega)]
      exact ih ⟨hp.2, fun d hd => hw.2 d (by simp [hd])⟩ hc

/-- An entry that does not read as 0 is listed. -/
theorem Table.mem_of_read {w : Nat} {t : Table w} {i : Nat} (h : Table.read t i ≠ 0#w) : (i, Table.read t i) ∈ t := by
  induction t with
  | nil => simp at h
  | cons d t ih =>
    obtain ⟨a, x⟩ := d
    rw [Table.read] at h ⊢
    split
    · rename_i hi
      simp [hi]
    · rename_i hi
      rw [if_neg hi] at h
      simp [ih h]

/-- Writing a value an unlisted entry does not read as, at an unlisted index, lists one entry more. -/
theorem Table.length_write_new {w : Nat} {t : Table w} (hw : Table.wf t) {i : Nat} {v : BitVec w}
    (h : Table.read t i = 0#w) (hv : v ≠ 0#w) : (Table.write t i v).length = t.length + 1 := by
  induction t with
  | nil => simp [Table.write, hv]
  | cons d t ih =>
    obtain ⟨a, x⟩ := d
    have hp := List.pairwise_cons.1 hw.1
    have hx := hw.2 (a, x) (by simp)
    rw [Table.read] at h
    split at h
    · exact absurd h hx
    · rename_i h2
      rw [Table.write, if_neg hv, if_neg hv, if_neg h2]
      split
      · simp
      · simp [ih ⟨hp.2, fun d hd => hw.2 d (by simp [hd])⟩ h]

/-- A table of canonical form lists at most as many entries as there are indices below its bound. -/
theorem Table.length_le {w : Nat} {t : Table w} {N : Nat} (hw : Table.wf t) (h : ∀ c ∈ t, c.1 < N) : t.length ≤ N := by
  have hn : (t.map (·.1)).Nodup := by
    rw [List.nodup_iff_pairwise_ne, List.pairwise_map]
    exact hw.1.imp fun h => Nat.ne_of_lt h
  have hs : (t.map (·.1)) ⊆ List.range N := fun a ha => by
    obtain ⟨c, hc, rfl⟩ := List.mem_map.1 ha
    exact List.mem_range.2 (h c hc)
  simpa using (hn.subperm hs).length_le

end Sys2Proof.Machine
end

