-- ==== Sys2Proof/Laws/Ops.lean ====
section
/-! SUPPORT. For each shared operation one lemma that says all it can do, so that no proof unfolds it. -/

namespace Sys2Proof.Machine

/-! ## Sequencing -/

@[simp] theorem andThen_next (s : State) (f : State → Res) : andThen (.next s) f = f s := rfl
@[simp] theorem andThen_fault (r : Fault) (f : State → Res) : andThen (.fault r) f = .fault r := rfl
@[simp] theorem andThen_refused (r : Refusal) (f : State → Res) : andThen (.refused r) f = .refused r := rfl

/-- A sequence answers a next state exactly where both parts do. -/
theorem andThen_eq_next {o : Res} {f : State → Res} {t : State} :
    andThen o f = .next t ↔ ∃ u, o = .next u ∧ f u = .next t := by
  cases o <;> simp

@[simp] theorem next_inj {s t : State} : (Host.Outcome.next s : Res) = .next t ↔ s = t :=
  ⟨fun h => by cases h; rfl, fun h => h ▸ rfl⟩

/-! ## Output -/

/-- An append answers the state with the bits appended, where the output is open. -/
theorem outAppend_eq_next {bs : List Bool} {s t : State} :
    outAppend bs s = .next t ↔ s.closed = false ∧ t = s.emit bs := by
  rw [outAppend]
  split
  · rename_i h
    simp [h]
  · rename_i h
    constructor
    · intro h'
      exact ⟨by simpa using h, (next_inj.1 h').symm⟩
    · rintro ⟨-, rfl⟩
      rfl

theorem outAppend_open {bs : List Bool} {s : State} (h : s.closed = false) :
    outAppend bs s = .next (s.emit bs) := outAppend_eq_next.2 ⟨h, rfl⟩

/-- `OutBits` answers the state with the field appended, where its preconditions hold (20_memory.md R69). -/
theorem outBits_eq_next {n v : Nat} {s t : State} :
    outBits n v s = .next t ↔
      0 < n ∧ n ≤ 32 ∧ v < 2 ^ n ∧ s.closed = false ∧ t = s.emit (bitsOf n v) := by
  rw [outBits]
  split
  · simp; omega
  · split
    · rw [outAppend_eq_next]
      constructor
      · rintro ⟨h1, h2⟩; exact ⟨by omega, by omega, by assumption, h1, h2⟩
      · rintro ⟨_, _, _, h1, h2⟩; exact ⟨h1, h2⟩
    · simp; omega

theorem outBits_open {n v : Nat} {s : State} (h0 : 0 < n) (h1 : n ≤ 32) (hv : v < 2 ^ n) (h : s.closed = false) :
    outBits n v s = .next (s.emit (bitsOf n v)) := outBits_eq_next.2 ⟨h0, h1, hv, h, rfl⟩

/-- `OutBit` repeated answers the state with the copies appended, where the output is open. -/
theorem outRep_eq_next {b : Bool} {k : Nat} {s t : State} :
    outRep b k s = .next t ↔ s.closed = false ∧ t = s.emit (List.replicate k b) :=
  outAppend_eq_next

theorem outRep_open {b : Bool} {k : Nat} {s : State} (h : s.closed = false) :
    outRep b k s = .next (s.emit (List.replicate k b)) := outRep_eq_next.2 ⟨h, rfl⟩

/-- A closed output is a whole number of bytes (20_memory.md R70). -/
theorem outClose_whole (s : State) : (outClose s).obits.length % 8 = 0 := by
  simp [State.opos]; omega

/-- Normal completion always answers (44_control.md R225). -/
theorem complete_eq (s : State) : complete s = .next (((outClose s).setPhase .halt).setStatus .done) := rfl

/-- Taking an error always answers (60_exceptions.md R250). -/
theorem raise_eq (e : ErrCode) (s : State) : raise e s = .next (s.abort e) := rfl

/-! ## Tables and buffers -/

theorem withEntry_eq_next {i : Nat} {r : Res} {t : State} : withEntry i r = .next t ↔ i < 256 ∧ r = .next t := by
  rw [withEntry]; split <;> simp_all

theorem withEntry_lt {i : Nat} {r : Res} (h : i < 256) : withEntry i r = r := if_pos h

@[simp] theorem atCap_none (k : Nat) : atCap none k = false := rfl
@[simp] theorem atCap_some (c k : Nat) : atCap (some c) k = decide (c ≤ k) := rfl

/-! ## Input -/

/-- `InBits` gives the next bits and moves past them, where the host has supplied that many (20_memory.md R66). -/
theorem inBits_eq_some {n : Nat} {s t : State} {bs : List Bool} :
    inBits n s = some (bs, t) ↔ s.ipos + n ≤ 8 * s.inBytes.length ∧
      bs = (List.range n).map (fun i => s.inBit (s.ipos + i)) ∧ t = s.advance n := by
  rw [inBits]; split <;> simp_all [eq_comm]

theorem inBits_eq_none {n : Nat} {s : State} : inBits n s = none ↔ 8 * s.inBytes.length < s.ipos + n := by
  rw [inBits]; split <;> simp_all

theorem inEmpty_iff {s : State} : s.inEmpty = true ↔ s.inEnd = true ∧ s.ipos = 8 * s.inBytes.length := by
  simp [State.inEmpty]

/-- Too few bits: an error where the input has ended, a wait where it has not (20_memory.md R66; 44_control.md R224). -/
theorem onShort_eq (s : State) : onShort s = .next (if s.inEnd then s.abort .malformed else s) := by
  rw [onShort, raise_eq]; split <;> rfl

/-! ## The input buffer -/

theorem bufBits_inside {addr n : Nat} {s : State} (h : addr + n ≤ 8 * s.B) :
    bufBits addr n s = (List.range n).map (fun i => s.bufBit (addr + i)) := if_pos h

theorem bufBits_length {addr n : Nat} {s : State} (h : addr + n ≤ 8 * s.B) : (bufBits addr n s).length = n := by
  simp [bufBits_inside h]

/-! ## Host operations -/

/-- `START` of an engine: ignored while BUSY, else accepted (44_control.md R221, R222, R227). -/
theorem startEngine_busy {c : Byte} {init : State → State} {s : State} (h : s.status = .busy) :
    startEngine c init s = .next s := if_pos h

theorem startEngine_accepted {c : Byte} {init : State → State} {s : State} (h : s.status ≠ .busy) :
    startEngine c init s = .next (init ((s.accept c).setStatus .busy)) := if_neg h

theorem usageError_busy {c : Byte} {s : State} (h : s.status = .busy) : usageError c s = .next s := if_pos h

theorem usageError_accepted {c : Byte} {s : State} (h : s.status ≠ .busy) :
    usageError c s = 
      .next ((((outClose (s.accept c)).forget.setErr .usage).setPhase .halt).setStatus .error) :=
  if_neg h

/-! ## Operands -/

/-- `clog2(u)` is a width that suffices (30_encoding.md R100). -/
theorem le_two_pow_clog2 (u : Nat) : u ≤ 2 ^ clog2 u := by
  have h : clog2 u < (List.range (u + 1)).length :=
    List.findIdx_lt_length_of_exists ⟨u, by simp, by simpa using Nat.le_of_lt u.lt_two_pow_self⟩
  have := of_decide_eq_true (List.findIdx_getElem (w := h))
  exact Nat.le_trans this (Nat.pow_le_pow_right (by omega) (Nat.le_of_eq (List.getElem_range ..)))

/-- No smaller width suffices (30_encoding.md R100). -/
theorem clog2_le {u w : Nat} (h : u ≤ 2 ^ w) : clog2 u ≤ w := by
  rcases Nat.lt_or_ge u w with hw | hw
  · have : clog2 u ≤ (List.range (u + 1)).length := List.findIdx_le_length
    simp at this; omega
  · by_contra hc
    have := List.not_of_lt_findIdx (xs := List.range (u + 1)) (p := fun w => decide (u ≤ 2 ^ w)) (i := w) (by
      rw [clog2] at hc; omega)
    simp at this; omega

theorem codeWidth_pos (u : Nat) : 1 ≤ codeWidth u := Nat.le_max_left _ _

theorem le_two_pow_codeWidth (u : Nat) : u ≤ 2 ^ codeWidth u :=
  Nat.le_trans (le_two_pow_clog2 u) (Nat.pow_le_pow_right (by omega) (Nat.le_max_right _ _))

theorem codeWidth_le_eight {u : Nat} (h : u ≤ 256) : codeWidth u ≤ 8 :=
  Nat.max_le.2 ⟨by omega, clog2_le (by simpa using h)⟩

theorem padOf_lt (r : Nat) : padOf r < 8 := Nat.mod_lt _ (by omega)

theorem remainder_lt (cw length : Nat) : remainder cw length < 8 := Nat.mod_lt _ (by omega)

theorem resolveUnique_le (U : BitVec 8) (B : Nat) : (resolveUnique U B).toNat ≤ 256 := by
  rw [resolveUnique]
  split
  · have := U.isLt; simp [BitVec.toNat_setWidth]; omega
  · split <;> decide

end Sys2Proof.Machine
end

