-- ==== Sys2Proof/Laws/PerInstr.lean ====
section
/-! SUPPORT. What holds of every instruction as syntax, one lemma per constructor. -/

namespace Sys2Proof.Laws

/-- An instruction's encoding has the width of the place it is read in (30_encoding.md R90). -/
def EncodeWidth.Statement (i : Instr) : Prop := (encode i).length = i.ctx.width

theorem EncodeWidth.dcomp : EncodeWidth.Statement .dcomp := rfl
theorem EncodeWidth.dexp : EncodeWidth.Statement .dexp := rfl
theorem EncodeWidth.rcomp : EncodeWidth.Statement .rcomp := rfl
theorem EncodeWidth.rexp : EncodeWidth.Statement .rexp := rfl
theorem EncodeWidth.rleEsc : EncodeWidth.Statement .rleEsc := rfl
theorem EncodeWidth.rleRun (n : BitVec 8) : EncodeWidth.Statement (.rleRun n) := length_bitsOf _ _
theorem EncodeWidth.dictHdr (rem : BitVec 3) (u : BitVec 8) : EncodeWidth.Statement (.dictHdr rem u) := rfl
theorem EncodeWidth.dictEnt (b : BitVec 8) : EncodeWidth.Statement (.dictEnt b) := length_bitsOf _ _
theorem EncodeWidth.dictCode1 (c : BitVec 1) : EncodeWidth.Statement (.dictCode1 c) := length_bitsOf _ _
theorem EncodeWidth.dictCode2 (c : BitVec 2) : EncodeWidth.Statement (.dictCode2 c) := length_bitsOf _ _
theorem EncodeWidth.dictCode3 (c : BitVec 3) : EncodeWidth.Statement (.dictCode3 c) := length_bitsOf _ _
theorem EncodeWidth.dictCode4 (c : BitVec 4) : EncodeWidth.Statement (.dictCode4 c) := length_bitsOf _ _
theorem EncodeWidth.dictCode5 (c : BitVec 5) : EncodeWidth.Statement (.dictCode5 c) := length_bitsOf _ _
theorem EncodeWidth.dictCode6 (c : BitVec 6) : EncodeWidth.Statement (.dictCode6 c) := length_bitsOf _ _
theorem EncodeWidth.dictCode7 (c : BitVec 7) : EncodeWidth.Statement (.dictCode7 c) := length_bitsOf _ _
theorem EncodeWidth.dictCode8 (c : BitVec 8) : EncodeWidth.Statement (.dictCode8 c) := length_bitsOf _ _
theorem EncodeWidth.dictPad (pad : BitVec 3) : EncodeWidth.Statement (.dictPad pad) := List.length_replicate ..

end Sys2Proof.Laws
end

