-- ==== Sys2Proof/Laws/Safety.lean ====
section
/-! SUPPORT. On which fields each part of the invariant depends, and what the bounds of its tables are. -/

namespace Sys2Proof.Machine

/-- A 1-bit entry is 0 or 1. -/
theorem bit_zero_or_one (x : BitVec 1) : x = 0#1 ∨ x = 1#1 := by
  have := x.isLt
  rcases (by omega : x.toNat = 0 ∨ x.toNat = 1) with h | h
  · exact .inl (BitVec.eq_of_toNat_eq h)
  · exact .inr (BitVec.eq_of_toNat_eq h)

/-- Unspecified tables are still tables. -/
theorem forget_tables (s : State) : TablesOk s.forget := by
  have a := Table.ofCells_wf (fun i => decide (i < 256)) (Config.freeCells 1 3 s.free)
  have b := Table.ofCells_wf (fun i => decide (i < 256)) (Config.freeCells 8 4 s.free)
  have c := Table.ofCells_wf (fun i => decide (i < 256)) (Config.freeCells 8 5 s.free)
  have d := Table.ofCells_wf (fun _ => true) (Config.freeCells 8 8 s.free)
  have e := Table.ofCells_wf (fun _ => true) (Config.freeCells 8 12 s.free)
  exact ⟨a.1, b.1, c.1, d.1, e.1, fun x hx => by simpa using a.2 x hx, fun x hx => by simpa using b.2 x hx,
    fun x hx => by simpa using c.2 x hx⟩

theorem tables_of_eq {s t : State} (h : TablesOk s) (hseen : t.seen = s.seen) (hdict : t.dict = s.dict)
    (hidx : t.idx = s.idx) (hmsg : t.msg = s.msg) (hibuf : t.ibuf = s.ibuf) : TablesOk t := by
  obtain ⟨a, b, c, d, e, f, g, i⟩ := h
  exact ⟨hseen ▸ a, hdict ▸ b, hidx ▸ c, hmsg ▸ d, hibuf ▸ e, hseen ▸ f, hdict ▸ g, hidx ▸ i⟩

theorem dictOk_of_eq {s t : State} (h : DictOk s) (hseen : t.seen = s.seen) (hdict : t.dict = s.dict)
    (hidx : t.idx = s.idx) (hmsg : t.msg = s.msg) (hu : t.unique = s.unique) (hl : t.length = s.length) :
    DictOk t := by
  obtain ⟨a, b, c, d⟩ := h
  constructor <;> rw [hseen] <;> simp only [hdict, hidx, hmsg, hu, hl] <;> assumption

theorem encWidthsOk_of_eq {s t : State} (h : EncWidthsOk s) (hcw : t.cw = s.cw) (hrem : t.rem = s.rem)
    (hu : t.unique = s.unique) (hl : t.length = s.length) : EncWidthsOk t := by
  obtain ⟨a, b⟩ := h
  constructor <;> simp only [hcw, hrem, hu, hl] <;> assumption

theorem decDictOk_of_eq {s t : State} (h : DecDictOk s) (hU : t.U = s.U) (hu : t.unique = s.unique) (hB : t.B = s.B) :
    DecDictOk t := by
  obtain ⟨a, b⟩ := h
  constructor <;> simp only [hU, hu, hB] <;> assumption

theorem decWidthsOk_of_eq {s t : State} (h : DecWidthsOk s) (hcw : t.cw = s.cw) (hrem : t.rem = s.rem)
    (hpad : t.pad = s.pad) (hn : t.n = s.n) (hu : t.unique = s.unique) (hB : t.B = s.B) : DecWidthsOk t := by
  obtain ⟨a, b, c, d⟩ := h
  constructor <;> simp only [hcw, hrem, hpad, hn, hu, hB] <;> assumption

/-- A message has at most 256 distinct bytes (42_dict_encoder.md R165). -/
theorem unique_le {s : State} (ht : TablesOk s) (hd : DictOk s) : s.unique.toNat ≤ 256 := by
  have := Table.length_le ht.seen_wf ht.seen_lt
  have := hd.unique_eq
  omega

/-- The bits of code `j`, `j < n`, are inside the loaded stream (43_dict_decoder.md R193). -/
theorem code_fits {s : State} (hw : DecWidthsOk s) (hj : s.j < s.n) :
    codeAddr s.unique.toNat s.cw.toNat s.j + s.cw.toNat ≤ 8 * s.B := by
  have := hw.total
  have h2 : s.cw.toNat * (s.j + 1) ≤ s.cw.toNat * s.n := Nat.mul_le_mul_left _ hj
  rw [Nat.mul_succ] at h2
  rw [codeAddr]
  omega

end Sys2Proof.Machine
end

