-- ==== Sys2Proof/Laws/Tokens.lean ====
section
/-! SUPPORT. Reading a token: what the decoder answers on as many bits as a place has, and what running it does. -/

namespace Sys2Proof

theorem takeField_eq {n : Nat} {bits : List Bool} (h : n ≤ bits.length) :
    takeField n bits = some (natOf (bits.take n), bits.drop n) := if_pos h

/-- Eight bits in the place of a count are a count. -/
theorem decode_count {bits : List Bool} (h : bits.length = 8) :
    decode .count bits = some (decodeCount (natOf bits), []) := by
  rw [decode, takeField_eq (by omega), ← h]
  simp

/-- A command byte is read whole, whatever it is. -/
theorem decode_command_byteBits (c : Byte) :
    decode .command (byteBits c) = (decodeCommand c).map fun i => (i, []) := by
  have h := takeField_bitsOf 8 c.toNat []
  rw [List.append_nil] at h
  have hc : BitVec.ofNat 8 (c.toNat % 2 ^ 8) = c := BitVec.eq_of_toNat_eq (by have := c.isLt; simp; omega)
  rw [decode, byteBits, h, Option.bind_some, hc]

end Sys2Proof

namespace Sys2Proof.Machine

/-- A token that decodes is run. -/
theorem runToken_of {ctx : Ctx} {bits r : List Bool} {i : Instr} {s : State} (h : decode ctx bits = some (i, r)) :
    runToken ctx bits s = exec i s := by
  rw [runToken, h]

/-- A code of any of the eight widths is run by the one operation on codes. -/
theorem runToken_code {cw : Nat} {bits : List Bool} {s : State} (h1 : 1 ≤ cw) (h8 : cw ≤ 8) (hl : bits.length = cw) :
    ∃ c : Byte, c.toNat = natOf bits ∧ runToken (.code cw) bits s = codeToken c s := by
  have hlt := natOf_lt bits
  rw [hl] at hlt
  have hp : 2 ^ cw ≤ 2 ^ 8 := Nat.pow_le_pow_right (by omega) h8
  refine ⟨BitVec.ofNat 8 (natOf bits), by simp; omega, ?_⟩
  rw [runToken, decode, takeField_eq (by omega)]
  simp only [Option.bind_some, ← hl, List.take_length]
  have key : ∀ w, w ≤ 8 → natOf bits < 2 ^ w →
      BitVec.setWidth 8 (BitVec.ofNat w (natOf bits)) = BitVec.ofNat 8 (natOf bits) := by
    intro w hw hlt
    apply BitVec.eq_of_toNat_eq
    simp [Nat.mod_eq_of_lt hlt]
  obtain rfl | rfl | rfl | rfl | rfl | rfl | rfl | rfl :
    cw = 1 ∨ cw = 2 ∨ cw = 3 ∨ cw = 4 ∨ cw = 5 ∨ cw = 6 ∨ cw = 7 ∨ cw = 8 := by omega
  all_goals
    rw [hl]
    simp only [decodeCode, Option.map_some, exec, execDictCode1, execDictCode2, execDictCode3, execDictCode4,
      execDictCode5, execDictCode6, execDictCode7, execDictCode8]
    try rw [key _ (by omega) hlt]

end Sys2Proof.Machine
end

