-- ==== Sys2Proof/Tests/Slice0.lean ====
section
/-! SUPPORT. The model's own tests: the well-formedness check, words written out bit by bit from the spec's encodings, one
step of each instruction against the spec's worked examples, and for every statement with hypotheses a state that meets
them (`witness_…`). -/

namespace Sys2Proof.Tests

open Sys2Proof Sys2Proof.Machine

/-! ## Helpers -/

/-- The next state of an answer. -/
def nextOf (r : Res) : Option State :=
  match r with
  | .next s => some s
  | .fault _ | .refused _ => none

/-- No capacity limit. -/
def unbounded : Config.Caps := { msgCap := none, inCap := none }

/-- A running engine, all else as after reset. -/
def running (c : Byte) (p : Phase) : State := { State.reset with cmd := c, status := .busy, phase := p }

/-- A block that has done nothing, with these turns of the host to come. -/
def hosted (h : List HostTurn) : State := { State.reset with host := h }

/-! ## Well-formedness -/

theorem test_wf_refuses_run_of_zero : Instr.wellFormed (.rleRun 0#8) = false := by decide
theorem test_wf_accepts_runs : Instr.wellFormed (.rleRun 1#8) = true ∧ Instr.wellFormed (.rleRun 255#8) = true := by
  decide

/-! ## Words, bit by bit (30_encoding.md R91, R92, R95, R96, R99, R101, R102; 42_dict_encoder.md R179) -/

theorem test_decode_dcomp :
    decode .command [false, false, false, false, false, false, false, false] = some (.dcomp, []) := by decide
theorem test_decode_dexp :
    decode .command [false, false, false, false, false, false, false, true] = some (.dexp, []) := by decide
theorem test_decode_rcomp :
    decode .command [false, false, false, false, false, false, true, false] = some (.rcomp, []) := by decide
theorem test_decode_rexp :
    decode .command [false, false, false, false, false, false, true, true] = some (.rexp, []) := by decide
/-- 0x04, 0x80 and 0xFF are reserved (30_encoding.md R93). -/
theorem test_decode_reserved :
    decode .command (byteBits 0x04#8) = none ∧ decode .command (byteBits 0x80#8) = none ∧
      decode .command (byteBits 0xFF#8) = none := by decide
theorem test_decode_rleEsc :
    decode .count [false, false, false, false, false, false, false, false] = some (.rleEsc, []) := by decide
theorem test_decode_rleRun :
    decode .count [true, false, false, false, false, false, true, false] = some (.rleRun 0x82#8, []) := by decide
theorem test_decode_dictHdr :
    decode .header [false, true, true, false, false, false, false, false, false, true, true, true] =
      some (.dictHdr 3#3 3#8, [true]) := by decide
theorem test_decode_dictEnt :
    decode .entry [false, true, false, false, false, false, false, true] = some (.dictEnt 0x41#8, []) := by decide
theorem test_decode_dictCode1 : decode (.code 1) [true, false] = some (.dictCode1 1#1, [false]) := by decide
theorem test_decode_dictCode2 : decode (.code 2) [true, false] = some (.dictCode2 2#2, []) := by decide
theorem test_decode_dictCode3 : decode (.code 3) [true, true, false] = some (.dictCode3 6#3, []) := by decide
theorem test_decode_dictCode4 : decode (.code 4) [true, false, false, false] = some (.dictCode4 8#4, []) := by decide
theorem test_decode_dictCode5 :
    decode (.code 5) [false, false, false, true, true] = some (.dictCode5 3#5, []) := by decide
theorem test_decode_dictCode6 :
    decode (.code 6) [true, false, false, false, false, true] = some (.dictCode6 33#6, []) := by decide
theorem test_decode_dictCode7 :
    decode (.code 7) [true, false, false, false, false, true, false] = some (.dictCode7 66#7, []) := by decide
theorem test_decode_dictCode8 :
    decode (.code 8) [true, true, true, true, true, true, true, false] = some (.dictCode8 254#8, []) := by decide
/-- The padding's bits are not examined (43_dict_decoder.md R205). -/
theorem test_decode_dictPad :
    decode (.padding 5) [false, true, false, true, true] = some (.dictPad 5#3, []) ∧
      decode (.padding 0) [] = some (.dictPad 0#3, []) := by decide
/-- No code has a width of 0 or 9 (30_encoding.md R100), and no field is read from too few bits. -/
theorem test_decode_refuses :
    decode (.code 0) [true] = none ∧ decode (.code 9) (List.replicate 9 true) = none ∧
      decode .header (List.replicate 10 true) = none := by decide
theorem test_table_words :
    decodeTableWord 8 0 = some .dcomp ∧ decodeTableWord 8 3 = some .rexp ∧ decodeTableWord 8 4 = some (.rleRun 4#8) ∧
      decodeTableWord 16 0x6860 = some (.dictHdr 3#3 3#8) := by decide

/-! ## One step of each instruction -/

/-- `START(0x02)` just after reset (44_control.md R221, R222). -/
theorem test_fetch_runs_rcomp :
    (nextOf (stepWith unbounded (State.reset.withFetchWord 8 2))).map (fun t => (t.cmd, t.status, t.phase)) =
      some (0x02#8, .busy, .rScan) := by decide
/-- A count of 4 as the next instruction, and a header (41_rle_decoder.md R144; 43_dict_decoder.md R196). -/
theorem test_fetch_runs_tokens :
    (nextOf (stepWith unbounded (State.reset.withFetchWord 8 4))).map (fun t => (t.obits, t.lastValue)) =
        some (List.replicate 4 false, true) ∧
      (nextOf (stepWith unbounded (State.reset.withFetchWord 16 0x6860))).map (fun t => (t.rem, t.unique, t.phase)) =
        some (3#3, 3#9, .eDict) := by decide
/-- `START(0x04)` is a usage error (44_control.md R223). -/
theorem test_reserved_command :
    (nextOf (stepWith unbounded (hosted [.start 0x04#8]))).map (fun t => (t.cmd, t.status, t.err)) =
      some (0x04#8, .error, .usage) := by decide
theorem test_dcomp_starts :
    (nextOf (exec .dcomp { State.reset with unique := 7#9, length := 9, seen := [(3, 1#1)] })).map
      (fun t => (t.phase, t.unique, t.length, t.seen)) = some (.dLoad, 0#9, 0, []) := by decide
theorem test_dexp_starts :
    (nextOf (exec .dexp { State.reset with B := 4, unique := 7#9 })).map (fun t => (t.phase, t.B, t.unique)) =
      some (.eLoad, 0, 7#9) := by decide
/-- A START while BUSY is ignored (44_control.md R227). -/
theorem test_rcomp_starts_unless_busy :
    (nextOf (exec .rcomp { State.reset with lastValue := true, valueCount := 5#7 })).map
      (fun t => (t.phase, t.lastValue, t.valueCount)) = some (.rScan, false, 0#7) ∧
      nextOf (exec .rcomp (running 0x03#8 .xRead)) = some (running 0x03#8 .xRead) := by decide
theorem test_rexp_starts :
    (nextOf (exec .rexp { State.reset with lastValue := true, obits := [true], closed := true })).map
      (fun t => (t.phase, t.lastValue, t.obits, t.closed)) = some (.xRead, false, [], false) := by decide
set_option maxRecDepth 4000 in
/-- `REXP 00`: 127 zero bits and no flip (41_rle_decoder.md R146). -/
theorem test_rleEsc :
    (nextOf (exec .rleEsc (running 0x03#8 .xRead))).map
      (fun t => (t.obits.length, t.obits.contains true, t.lastValue)) =
      some (127, false, false) := by decide
/-- A count of 3 on the value 1: three one bits, then the value is 0 (41_rle_decoder.md R144, R145). -/
theorem test_rleRun :
    (nextOf (exec (.rleRun 3#8) { running 0x03#8 .xRead with lastValue := true })).map
      (fun t => (t.obits, t.lastValue, t.count)) = some ([true, true, true], false, 3#8) := by decide
/-- `60 00`: two bytes and `U = 0` are `unique = 0`; with three bytes they are 256 (43_dict_decoder.md R196, R210). -/
theorem test_dictHdr_zero :
    (nextOf (exec (.dictHdr 3#3 0#8) { running 0x01#8 .eHdr with B := 2 })).map (fun t => (t.unique, t.rem, t.phase)) =
      some (0#9, 3#3, .eDict) := by decide
theorem test_dictHdr_full :
    (nextOf (exec (.dictHdr 3#3 0#8) { running 0x01#8 .eHdr with B := 259 })).map (·.unique) = some 256#9 := by decide
theorem test_dictEnt :
    (nextOf (exec (.dictEnt 0x42#8) { running 0x01#8 .eDict with j := 1, dict := [(0, 0x41#8), (1, 0x99#8)] })).map
      (fun t => (t.dict, t.j)) = some ([(0, 0x41#8), (1, 0x42#8)], 2) := by decide

/-- The dictionary of `DEXP 60 68 28 48 62 40` (43_dict_decoder.md R213), in a pass over its codes. -/
def coding (p : Phase) : State :=
  { running 0x01#8 p with dict := [(0, 0x41#8), (1, 0x42#8), (2, 0x43#8)], unique := 3#9, cw := 2#4, n := 4, j := 3 }

/-- Code 2 is valid and writes 0x43; code 3 is a format error (43_dict_decoder.md R203, R204, R213). -/
theorem test_dictCode2_validated :
    (nextOf (exec (.dictCode2 2#2) (coding .eCode))).map (fun t => (t.code, t.j, t.obits)) = some (2#8, 4, []) ∧
      (nextOf (exec (.dictCode2 3#2) (coding .eCode))).map (fun t => (t.status, t.err)) = some (.error, .format) := by
  decide
theorem test_dictCode2_written :
    (nextOf (exec (.dictCode2 2#2) (coding .eEmit))).map (fun t => (t.obits, t.j)) =
      some ([false, true, false, false, false, false, true, true], 4) := by decide
theorem test_dictCode1 : (nextOf (exec (.dictCode1 1#1) (coding .eEmit))).map (·.outBytes) = some [0x42#8] := by decide
theorem test_dictCode3 :
    (nextOf (exec (.dictCode3 4#3) (coding .eCode))).map (·.err) = some .format ∧
      (nextOf (exec (.dictCode3 2#3) (coding .eEmit))).map (·.outBytes) = some [0x43#8] := by decide
theorem test_dictCode4 :
    (nextOf (exec (.dictCode4 8#4) (coding .eCode))).map (·.err) = some .format ∧
      (nextOf (exec (.dictCode4 1#4) (coding .eEmit))).map (·.outBytes) = some [0x42#8] := by decide
theorem test_dictCode5 :
    (nextOf (exec (.dictCode5 16#5) (coding .eCode))).map (·.err) = some .format ∧
      (nextOf (exec (.dictCode5 0#5) (coding .eEmit))).map (·.outBytes) = some [0x41#8] := by decide
theorem test_dictCode6 :
    (nextOf (exec (.dictCode6 32#6) (coding .eCode))).map (·.err) = some .format ∧
      (nextOf (exec (.dictCode6 2#6) (coding .eEmit))).map (·.outBytes) = some [0x43#8] := by decide
theorem test_dictCode7 :
    (nextOf (exec (.dictCode7 64#7) (coding .eCode))).map (·.err) = some .format ∧
      (nextOf (exec (.dictCode7 1#7) (coding .eEmit))).map (·.outBytes) = some [0x42#8] := by decide
theorem test_dictCode8 :
    (nextOf (exec (.dictCode8 255#8) (coding .eCode))).map (·.err) = some .format ∧
      (nextOf (exec (.dictCode8 2#8) (coding .eEmit))).map (·.outBytes) = some [0x43#8] := by decide
theorem test_dictPad :
    (nextOf (exec (.dictPad 5#3) { coding .eEmit with obits := List.replicate 32 true })).map
      (fun t => (t.status, t.phase, t.closed, t.outBytes)) =
      some (.done, .halt, true, [0xFF#8, 0xFF#8, 0xFF#8, 0xFF#8]) := by decide

/-! ## One step of the phases that read no token -/

/-- The header of `DCOMP 41 42 41 43` (42_dict_encoder.md R179). -/
theorem test_dHdr :
    (nextOf (dHdr { running 0x00#8 .dHdr with unique := 3#9, rem := 3#3 })).map (·.obits) =
      some [false, true, true, false, false, false, false, false, false, true, true] := by decide
/-- `D_CALC` of the same message: `cw = 2`, `rem = 3`. -/
theorem test_dCalc :
    (nextOf (dCalc { running 0x00#8 .dCalc with unique := 3#9, length := 4 })).map (fun t => (t.cw, t.rem)) =
      some (2#4, 3#3) := by decide
/-- `E_CALC` of `60 68 28 48 62 40`: `pad = 5`, `valid = 43`, `payload = 8`, `n = 4` (43_dict_decoder.md R213). -/
theorem test_eCalc :
    (nextOf (eCalc { running 0x01#8 .eCalc with B := 6, unique := 3#9, rem := 3#3 })).map
      (fun t => (t.cw, t.pad, t.valid, t.payload, t.n)) = some (2#4, 5#3, 43, 8, 4) := by decide
/-- The 127th bit of a run is an escape (40_rle_encoder.md R125). -/
theorem test_rSame_escape :
    (nextOf (rSame { running 0x02#8 .rScan with valueCount := 126#7 })).map (fun t => (t.outBytes, t.valueCount)) =
      some ([0x00#8], 0#7) := by decide

/-! ## States that meet the hypotheses of the statements

Each `witness_<Name>` is about the obligation `<Name>`; where a statement has several clauses, its parts are in order. -/

theorem witness_DecodeInvertsEncode :
    Instr.wellFormed (.rleRun 255#8) = true ∧ Instr.wellFormed (.dictPad 7#3) = true ∧
      Instr.wellFormed (.dictHdr 7#3 255#8) = true := by decide

theorem witness_EncodeInvertsDecode :
    decode .count [false, false, false, false, false, false, false, true, true] = some (.rleRun 1#8, [true]) ∧
      (∀ p, Instr.rleRun 1#8 ≠ .dictPad p) ∧ decode (.padding 7) (List.replicate 7 true) = some (.dictPad 7#3, []) := by
  decide

theorem witness_CodeWidthIsTheTables :
    (256 ≤ 2 ^ 8) ∧ (0 ≤ 2 ^ 0) ∧ codeWidth 0 = 1 ∧ codeWidth 2 = 1 ∧ codeWidth 3 = 2 ∧ codeWidth 128 = 7 ∧
      codeWidth 129 = 8 ∧ codeWidth 256 = 8 := by
  refine ⟨by decide, by decide, by decide, by decide, by decide, ?_, ?_, ?_⟩ <;> decide +kernel

theorem witness_StoredUniqueResolves : (0 ≤ 256 ∧ (0 = 0 ↔ 2 = 2)) ∧ (256 ≤ 256 ∧ (256 = 0 ↔ 514 = 2)) := by decide

theorem witness_InBitsReadsMostSignificantFirst :
    ({ running 0x03#8 .xRead with inBytes := [0x05#8] }).ipos + 8 ≤ 8 * [0x05#8].length ∧
      8 * [0x05#8].length < ({ running 0x03#8 .xRead with inBytes := [0x05#8], inEnd := true }).ipos + 9 := by decide

theorem witness_BytesAreReadMostSignificantFirst :
    7 / 8 < ({ State.reset with inBytes := [0x05#8] }).inBytes.length ∧ (List.replicate 16 true).length % 8 = 0 := by
  decide

theorem witness_OutBitsAppendsMostSignificantFirst :
    1 ≤ 1 ∧ 1 ≤ 32 ∧ 1 < 2 ^ 1 ∧ 32 ≤ 32 ∧ 2 ^ 32 - 1 < 2 ^ 32 ∧ State.reset.closed = false := by decide

theorem witness_BrokenPreconditionsStopByName :
    (0 = 0 ∨ 32 < 0) ∧ (33 = 0 ∨ 32 < 33) ∧ 2 ^ 8 ≤ 256 ∧ ({ State.reset with closed := true }).closed = true ∧
      1#8 ≠ 0#8 ∧ Instr.ctx (.dictCode8 0#8) = .code 8 ∧ (running 0x01#8 .eEmit).phase ≠ .eCode ∧
      256 ≤ ({ State.reset with j := 256 }).j ∧ decode (.code 9) (List.replicate 9 true) = none := by decide

theorem witness_OutCloseFillsTheLastByte : State.reset.opos % 8 = 0 := by decide

theorem witness_OutBytesPackMostSignificantFirst :
    0 < ({ State.reset with obits := List.replicate 8 true }).outBytes.length := by decide

/-- The two-byte stream `60 00`, loaded. -/
def loadedEmpty (p : Phase) : State := { running 0x01#8 p with ibuf := [(0, 0x60#8)], B := 2 }

/-- The stream `60 68 28 48 62 40` of 42_dict_encoder.md R179, loaded, header read. -/
def loaded (p : Phase) : State :=
  { running 0x01#8 p with
    ibuf := [(0, 0x60#8), (1, 0x68#8), (2, 0x28#8), (3, 0x48#8), (4, 0x62#8), (5, 0x40#8)], B := 6, unique := 3#9,
    U := 3#8, rem := 3#3, cw := 2#4, pad := 5#3, n := 4 }

theorem witness_StepRunsTheDecodedInstruction_host :
    (State.reset.host = []) ∧ ((hosted [.idle]).host = .idle :: []) ∧
      ((hosted [.start 0x03#8]).host = .start 0x03#8 :: [] ∧
        decode .command (byteBits 0x03#8) = some (.rexp, [])) := by decide

/-- `xRead` at the last count of its input. -/
def lastCount : State := { running 0x03#8 .xRead with inBytes := [0x05#8] }

theorem witness_StepRunsTheDecodedInstruction_count :
    lastCount.status = .busy ∧ lastCount.phase = .xRead ∧ lastCount.ipos + 8 ≤ 8 * lastCount.inBytes.length ∧
      decode .count ((List.range 8).map fun k => lastCount.inBit (lastCount.ipos + k)) = some (.rleRun 5#8, []) := by
  decide

theorem witness_StepRunsTheDecodedInstruction_header :
    (loadedEmpty .eHdr).status = .busy ∧ (loadedEmpty .eHdr).phase = .eHdr ∧ 11 ≤ 8 * (loadedEmpty .eHdr).B ∧
      decode .header (bufBits 0 11 (loadedEmpty .eHdr)) = some (.dictHdr 3#3 0#8, []) := by decide

theorem witness_StepRunsTheDecodedInstruction_entry :
    (loaded .eDict).status = .busy ∧ (loaded .eDict).phase = .eDict ∧
      11 + 8 * (loaded .eDict).unique.toNat ≤ 8 * (loaded .eDict).B ∧
      (loaded .eDict).j < (loaded .eDict).unique.toNat ∧
      decode .entry (bufBits (11 + 8 * (loaded .eDict).j) 8 (loaded .eDict)) = some (.dictEnt 0x41#8, []) := by decide

/-- The last code, in a pass over the codes. -/
def lastCode (p : Phase) : State := { loaded p with j := 3 }

theorem witness_StepRunsTheDecodedInstruction_code :
    (lastCode .eEmit).status = .busy ∧ ((lastCode .eEmit).phase = .eCode ∨ (lastCode .eEmit).phase = .eEmit) ∧
      (lastCode .eEmit).j < (lastCode .eEmit).n ∧
      decode (.code (lastCode .eEmit).cw.toNat)
        (bufBits (11 + 8 * (lastCode .eEmit).unique.toNat + (lastCode .eEmit).cw.toNat * (lastCode .eEmit).j)
          (lastCode .eEmit).cw.toNat (lastCode .eEmit)) = some (.dictCode2 2#2, []) := by decide

/-- Behind the last code, in the output pass. -/
def pastCodes : State := { loaded .eEmit with j := 4 }

theorem witness_StepRunsTheDecodedInstruction_padding :
    pastCodes.status = .busy ∧ pastCodes.phase = .eEmit ∧ pastCodes.n ≤ pastCodes.j ∧
      decode (.padding pastCodes.pad.toNat)
        (bufBits (11 + 8 * pastCodes.unique.toNat + pastCodes.cw.toNat * pastCodes.n) pastCodes.pad.toNat pastCodes) =
        some (.dictPad 5#3, []) := by decide

/-- For the four statements about an accepted START. -/
theorem witness_CommandsStart : State.reset.status ≠ .busy ∧ ({ State.reset with status := .error }).status ≠ .busy := by
  decide

theorem witness_ReservedCommandIsAUsageError :
    ((hosted [.start 0x04#8]).host = .start 0x04#8 :: [] ∧ (hosted [.start 0x04#8]).status ≠ .busy ∧
      (0x04#8 : Byte).extractLsb' 2 6 ≠ 0#6) ∧ (0xFF#8 : Byte).extractLsb' 2 6 ≠ 0#6 := by decide

theorem witness_StartWhileBusyIsIgnored :
    (running 0x03#8 .xRead).status = .busy ∧
      ({ running 0x03#8 .xRead with host := [.start 0xFF#8] }).host = .start 0xFF#8 :: [] := by decide

theorem witness_ResetIsAcceptedInEveryState :
    ({ running 0x03#8 .xRead with host := [.reset] }).host = .reset :: [] := by decide

theorem witness_ResetLeavesTheSpecifiedValues :
    ({ State.reset with status := .error, phase := .rScan }).status ≠ .busy := by decide

theorem witness_ReadsChangeNothingAndErrHolds :
    ((hosted [.read .err]).host = .read .err :: [] ∧ (hosted [.read .err]).status ≠ .busy ∧
      stepWith unbounded (hosted [.read .err]) = .next State.reset) ∧
    (∀ v : Status, ({ State.reset with status := v }).status = v) ∧ ∀ e : ErrCode, ({ State.reset with err := e }).err = e :=
  ⟨⟨by decide, by decide, rfl⟩, fun _ => rfl, fun _ => rfl⟩

theorem witness_InputArrivesWhileARunIsOpen :
    (hosted [.supply 0x41#8]).host = .supply 0x41#8 :: [] ∧ (hosted [.endInput]).host = .endInput :: [] := by decide

/-- `xRead` at the end of an empty input. -/
def emptyRun : State := { running 0x03#8 .xRead with inEnd := true }

theorem tables_none (s : State) (h : s.seen = [] ∧ s.dict = [] ∧ s.idx = [] ∧ s.msg = [] ∧ s.ibuf = []) :
    TablesOk s := by
  obtain ⟨h1, h2, h3, h4, h5⟩ := h
  exact ⟨h1 ▸ Table.wf_nil, h2 ▸ Table.wf_nil, h3 ▸ Table.wf_nil, h4 ▸ Table.wf_nil, h5 ▸ Table.wf_nil,
    by simp [h1], by simp [h2], by simp [h3]⟩

/-- A state whose tables are empty meets the invariant where its decidable parts hold. -/
theorem invariant_of_parts (s : State) (h : s.seen = [] ∧ s.dict = [] ∧ s.idx = [] ∧ s.msg = [] ∧ s.ibuf = [])
    (hs : s.ipos ≤ 8 * s.inBytes.length ∧ (s.closed = true → s.obits.length % 8 = 0))
    (hc : (s.status = .busy ↔ s.phase ≠ .halt) ∧ (s.status = .busy → s.closed = false) ∧
      (s.status = .busy → s.phase.engine = some s.cmd) ∧ (s.status = .error ↔ s.err ≠ .none) ∧
      (s.status = .done ∨ s.status = .error → s.closed = true) ∧
      (s.status = .done ∨ s.phase.afterInput = true → s.inEmpty = true))
    (hp : PhaseOk s) : Invariant s :=
  ⟨tables_none s h, ⟨hs.1, hs.2⟩, ⟨hc.1, hc.2.1, hc.2.2.1, hc.2.2.2.1, hc.2.2.2.2.1, hc.2.2.2.2.2⟩, hp⟩

theorem emptyRun_invariant : Invariant emptyRun :=
  invariant_of_parts _ (by decide) (by decide) (by decide) (by show 0 % 8 = 0; rfl)

theorem witness_ARunEndsOnlyByCompletionErrorOrReset :
    Invariant emptyRun ∧ emptyRun.status = .busy ∧
      stepWith unbounded emptyRun = .next { emptyRun with closed := true, phase := .halt, status := .done } ∧
      ({ emptyRun with closed := true, phase := .halt, status := .done }).status ≠ .busy :=
  ⟨emptyRun_invariant, rfl, rfl, by decide⟩

/-- An engine that has its run before it. -/
def fresh (c : Byte) (p : Phase) (input : List Byte) : State := { running c p with inBytes := input }

theorem witness_AnEngineWaitsForInput :
    ((fresh 0x02#8 .rScan []).ipos = 8 * (fresh 0x02#8 .rScan []).inBytes.length ∧
        (fresh 0x02#8 .rScan []).inEnd = false) ∧
      (∀ p ∈ [Phase.rScan, .xRead, .dLoad, .eLoad], (fresh 0x02#8 p []).status = .busy ∧ (fresh 0x02#8 p []).phase = p) := by
  decide

theorem dictOk_empty (s : State) (h : s.unique = 0#9 ∧ s.length = 0 ∧ s.seen = []) : DictOk s := by
  obtain ⟨h1, h2, h3⟩ := h
  constructor <;> simp [h1, h2, h3]

theorem fresh_dLoad_invariant (b : Byte) : Invariant (fresh 0x00#8 .dLoad [b]) :=
  invariant_of_parts _ ⟨rfl, rfl, rfl, rfl, rfl⟩ ⟨Nat.zero_le _, fun h => nomatch h⟩ (by simp [fresh, running, Phase.engine, Phase.afterInput, State.reset])
    ⟨rfl, rfl, dictOk_empty _ ⟨rfl, rfl, rfl⟩⟩

theorem fresh_eLoad_invariant (b : Byte) : Invariant (fresh 0x01#8 .eLoad [b]) :=
  invariant_of_parts _ ⟨rfl, rfl, rfl, rfl, rfl⟩ ⟨Nat.zero_le _, fun h => nomatch h⟩ (by simp [fresh, running, Phase.engine, Phase.afterInput, State.reset])
    ⟨rfl, rfl⟩

/-- One run of each kind that ends in an error: no run (a usage error), `DCOMP` and `DEXP` over their capacity. -/
theorem witness_ErrorsComeFromTheirOperations :
    (Invariant (fresh 0x00#8 .dLoad [0x41#8]) ∧
      (∃ t, stepWith { msgCap := some 0, inCap := some 0 } (fresh 0x00#8 .dLoad [0x41#8]) = .next t ∧ t.status = .error) ∧
      (fresh 0x00#8 .dLoad [0x41#8]).status = .busy ∧ (fresh 0x00#8 .dLoad [0x41#8]).cmd = 0x00#8) ∧
    (Invariant (fresh 0x01#8 .eLoad [0x41#8]) ∧
      (∃ t, stepWith { msgCap := some 0, inCap := some 0 } (fresh 0x01#8 .eLoad [0x41#8]) = .next t ∧ t.status = .error) ∧
      (fresh 0x01#8 .eLoad [0x41#8]).status = .busy ∧ (fresh 0x01#8 .eLoad [0x41#8]).cmd = 0x01#8) ∧
    (Invariant (hosted [.start 0x04#8]) ∧
      (∃ t, stepWith unbounded (hosted [.start 0x04#8]) = .next t ∧ t.status = .error) ∧
      (hosted [.start 0x04#8]).status ≠ .error ∧ (hosted [.start 0x04#8]).status ≠ .busy) :=
  ⟨⟨fresh_dLoad_invariant _, ⟨_, rfl, rfl⟩, rfl, rfl⟩, ⟨fresh_eLoad_invariant _, ⟨_, rfl, rfl⟩, rfl, rfl⟩,
    invariant_of_parts _ (by decide) (by decide) (by decide) trivial, ⟨_, rfl, rfl⟩, by decide, by decide⟩

/-- The scan with a run of 126 zero bits behind it and these input bits to come. -/
def scanning (b : Byte) : State := { fresh 0x02#8 .rScan [b] with valueCount := 126#7 }

theorem witness_RScanTakesOneBit :
    ((scanning 0#8).status = .busy ∧ (scanning 0#8).phase = .rScan ∧ (scanning 0#8).closed = false ∧
      (scanning 0#8).valueCount.toNat < 127) ∧
    (({ running 0x02#8 .rScan with inEnd := true }).inEnd = true ∧
      ({ running 0x02#8 .rScan with inEnd := true }).ipos =
        8 * ({ running 0x02#8 .rScan with inEnd := true }).inBytes.length) ∧
    ((scanning 0x80#8).ipos < 8 * (scanning 0x80#8).inBytes.length ∧
      (scanning 0x80#8).inBit (scanning 0x80#8).ipos ≠ (scanning 0x80#8).lastValue) ∧
    ((scanning 0#8).ipos < 8 * (scanning 0#8).inBytes.length ∧
      (scanning 0#8).inBit (scanning 0#8).ipos = (scanning 0#8).lastValue) := by decide

theorem witness_RFlushWritesTheFinalCount :
    (running 0x02#8 .rFlush).status = .busy ∧ (running 0x02#8 .rFlush).phase = .rFlush ∧
      (running 0x02#8 .rFlush).closed = false := by decide

theorem scanning_invariant (b : Byte) : Invariant (scanning b) :=
  invariant_of_parts _ ⟨rfl, rfl, rfl, rfl, rfl⟩ ⟨Nat.zero_le _, fun h => nomatch h⟩ (by simp [scanning, fresh, running, Phase.engine, Phase.afterInput, State.reset])
    ⟨(by decide : (126#7).toNat < Config.MAX), rfl⟩

theorem witness_RcompWritesOnlyCountsBelowMax :
    Invariant (scanning 0#8) ∧ (scanning 0#8).status = .busy ∧ (scanning 0#8).cmd = 0x02#8 ∧
      engineStep unbounded (scanning 0#8) =
        .next { scanning 0#8 with ipos := 1, obits := List.replicate 8 false, valueCount := 0#7 } :=
  ⟨scanning_invariant _, rfl, rfl, rfl⟩

/-- For the two run-length tokens. -/
theorem witness_RleTokens :
    1#8 ≠ 0#8 ∧ 255#8 ≠ 0#8 ∧ (running 0x03#8 .xRead).closed = false := by decide

theorem witness_EnginesCloseAndComplete :
    (emptyRun.status = .busy ∧ emptyRun.phase = .xRead ∧ emptyRun.inEnd = true ∧
      emptyRun.ipos = 8 * emptyRun.inBytes.length) ∧
    ((running 0x00#8 .dClose).status = .busy ∧ (running 0x00#8 .dClose).phase = .dClose) := by decide

/-- `D_LOAD` with 255 distinct values behind it and a byte to come. -/
def loading (seen : Table 1) : State := { fresh 0x00#8 .dLoad [0x41#8] with unique := 255#9, length := 3, seen := seen }

/-- Over the capacity; a byte met for the first time; a byte met before, when all 256 have been; the end of the input. -/
theorem witness_DLoadStoresAndTracksAByte :
    ((loading []).status = .busy ∧ (loading []).phase = .dLoad ∧ (loading []).ipos % 8 = 0 ∧
      (loading []).inBytes[(loading []).ipos / 8]? = some 0x41#8) ∧
    atCap (some 3) (loading []).length = true ∧
    (atCap (some 4) (loading []).length = false ∧ Table.read (loading []).seen 0x41 = 0#1 ∧
      (loading []).unique.toNat < 256) ∧
    (atCap none (loading [(0x41, 1#1)]).length = false ∧
      Table.read ({ loading [(0x41, 1#1)] with unique := 256#9 }).seen 0x41 ≠ 0#1) ∧
    ((fresh 0x00#8 .dLoad []).ipos = 8 * (fresh 0x00#8 .dLoad []).inBytes.length ∧
      ({ fresh 0x00#8 .dLoad [] with inEnd := true }).inEnd = true) := by decide

theorem witness_DCalcComputesWidthAndRemainder :
    ({ running 0x00#8 .dCalc with unique := 256#9 }).status = .busy ∧
      ({ running 0x00#8 .dCalc with unique := 256#9 }).phase = .dCalc ∧
      ({ running 0x00#8 .dCalc with unique := 256#9 }).unique.toNat ≤ 256 := by decide

theorem witness_DHdrWritesTheHeader :
    (running 0x00#8 .dHdr).status = .busy ∧ (running 0x00#8 .dHdr).phase = .dHdr ∧
      (running 0x00#8 .dHdr).closed = false := by decide

/-- The last of 256 entries is to come. -/
def lastEntry : State := { running 0x00#8 .dDict with unique := 256#9, j := 255 }

theorem witness_DDictWritesOneEntry :
    lastEntry.status = .busy ∧ lastEntry.phase = .dDict ∧ lastEntry.closed = false ∧ lastEntry.unique.toNat ≤ 256 := by
  decide

/-- A message of one byte, of width `cw`, whose code is `c`. -/
def coded (cw : BitVec 4) (c : Byte) : State :=
  { running 0x00#8 .dCode with cw := cw, length := 1, msg := [(0, 0x41#8)], idx := [(0x41, c)] }

/-- What `DCodeWritesOneCode` asks of the state. -/
def CodePremises (s : State) : Prop :=
  s.status = .busy ∧ s.phase = .dCode ∧ s.closed = false ∧ 1 ≤ s.cw.toNat ∧ s.cw.toNat ≤ 8 ∧
    (Table.read s.idx (Table.read s.msg s.j).toNat).toNat < 2 ^ s.cw.toNat

/-- The largest code of the least and of the greatest width. -/
theorem witness_DCodeWritesOneCode : CodePremises (coded 1#4 1#8) ∧ CodePremises (coded 8#4 255#8) :=
  ⟨⟨rfl, rfl, rfl, by decide, by decide, by decide⟩, ⟨rfl, rfl, rfl, by decide, by decide, by decide +kernel⟩⟩

theorem witness_ELoadStoresAByte :
    ((fresh 0x01#8 .eLoad [0x60#8]).status = .busy ∧ (fresh 0x01#8 .eLoad [0x60#8]).phase = .eLoad ∧
      (fresh 0x01#8 .eLoad [0x60#8]).ipos % 8 = 0 ∧
      (fresh 0x01#8 .eLoad [0x60#8]).inBytes[(fresh 0x01#8 .eLoad [0x60#8]).ipos / 8]? = some 0x60#8) ∧
    atCap (some 0) (fresh 0x01#8 .eLoad [0x60#8]).B = true ∧ atCap (some 1) (fresh 0x01#8 .eLoad [0x60#8]).B = false ∧
    ((fresh 0x01#8 .eLoad []).ipos = 8 * (fresh 0x01#8 .eLoad []).inBytes.length ∧
      ({ fresh 0x01#8 .eLoad [] with inEnd := true }).inEnd = true) := by decide

theorem witness_ShortStreamsAreMalformed :
    (({ running 0x01#8 .eHdr with B := 1 }).status = .busy ∧ ({ running 0x01#8 .eHdr with B := 1 }).phase = .eHdr ∧
      8 * ({ running 0x01#8 .eHdr with B := 1 }).B < 11) ∧
    (({ running 0x01#8 .eDict with B := 2, unique := 1#9 }).status = .busy ∧
      ({ running 0x01#8 .eDict with B := 2, unique := 1#9 }).phase = .eDict ∧
      8 * ({ running 0x01#8 .eDict with B := 2, unique := 1#9 }).B <
        11 + 8 * ({ running 0x01#8 .eDict with B := 2, unique := 1#9 }).unique.toNat) ∧
    ((lastCode .eDict).status = .busy ∧ (lastCode .eDict).phase = .eDict ∧
      11 + 8 * (lastCode .eDict).unique.toNat ≤ 8 * (lastCode .eDict).B ∧
      (lastCode .eDict).unique.toNat ≤ (lastCode .eDict).j) := by decide

theorem witness_DictEntFillsOneEntry :
    ({ running 0x01#8 .eDict with j := 255 }).j < 256 ∧
      Memory.wf ({ running 0x01#8 .eDict with dict := [(255, 0x41#8)] }).dict := by decide

/-- `E_CALC` on a stream of `B` bytes. -/
def calculating (B : Nat) (unique : BitVec 9) (rem : BitVec 3) : State :=
  { running 0x01#8 .eCalc with B := B, unique := unique, rem := rem }

/-- What `ECalcChecksInOrder` asks of the state and of the three computed values. -/
def CalcPremises (s : State) (cw pad : Nat) (payload : Int) : Prop :=
  s.status = .busy ∧ s.phase = .eCalc ∧ s.unique.toNat ≤ 256 ∧ cw = max 1 (clog2 s.unique.toNat) ∧
    pad = (8 - s.rem.toNat) % 8 ∧ payload = 8 * (s.B : Int) - pad - 11 - 8 * s.unique.toNat

/-- A negative payload (-1 bits); no dictionary and a code; a payload of 3 bits at width 2; four codes of 2 bits. -/
theorem witness_ECalcChecksInOrder :
    CalcPremises (calculating 2 0#9 2#3) 1 6 (-1) ∧
    (CalcPremises (calculating 2 0#9 4#3) 1 4 1 ∧ (calculating 2 0#9 4#3).unique = 0#9) ∧
    (CalcPremises (calculating 5 3#9 6#3) 2 2 3 ∧ (3 : Int) % 2 ≠ 0) ∧
    (CalcPremises (calculating 6 3#9 3#3) 2 5 8 ∧ (8 : Int) % 2 = 0) := by
  unfold CalcPremises; decide

theorem witness_CodesAreValidated :
    (coding .eCode).phase = .eCode ∧
      ((∃ x, Instr.dictCode2 2#2 = .dictCode2 x ∧ 2 = x.toNat) ∧ 2 < (coding .eCode).unique.toNat) ∧
      ((∃ x, Instr.dictCode8 3#8 = .dictCode8 x ∧ 3 = x.toNat) ∧ ¬3 < (coding .eCode).unique.toNat) ∧
      ({ coding .eCode with j := 4 }).status = .busy ∧ ({ coding .eCode with j := 4 }).phase = .eCode ∧
      ({ coding .eCode with j := 4 }).n ≤ ({ coding .eCode with j := 4 }).j :=
  ⟨rfl, ⟨⟨2#2, rfl, rfl⟩, by decide⟩, ⟨⟨3#8, rfl, rfl⟩, by decide⟩, rfl, rfl, by decide⟩

theorem witness_CodesAreWrittenOut :
    (coding .eEmit).phase ≠ .eCode ∧ (coding .eEmit).closed = false ∧
      (∃ x, Instr.dictCode1 1#1 = .dictCode1 x ∧ 1 = x.toNat) ∧
      ∃ x, Instr.dictCode8 255#8 = .dictCode8 x ∧ 255 = x.toNat :=
  ⟨by decide, rfl, ⟨1#1, rfl, rfl⟩, ⟨255#8, rfl, rfl⟩⟩

/-- For the two statements about every step from the invariant: a step that writes and one that loads. -/
theorem witness_StepsFromTheInvariant :
    (Invariant (scanning 0#8) ∧ stepWith unbounded (scanning 0#8) =
      .next { scanning 0#8 with ipos := 1, obits := List.replicate 8 false, valueCount := 0#7 }) ∧
    (Invariant (fresh 0x01#8 .eLoad [0x60#8]) ∧ stepWith unbounded (fresh 0x01#8 .eLoad [0x60#8]) =
      .next { fresh 0x01#8 .eLoad [0x60#8] with ipos := 8, ibuf := [(0, 0x60#8)], B := 1 }) :=
  ⟨⟨scanning_invariant _, rfl⟩, fresh_eLoad_invariant _, rfl⟩

theorem witness_StreamsOnlyMoveForward :
    engineStep unbounded (scanning 0#8) =
      .next { scanning 0#8 with ipos := 1, obits := List.replicate 8 false, valueCount := 0#7 } ∧
    (scanning 0#8).status ≠ .error := ⟨rfl, by decide⟩

/-- A bit that differs flips `lastValue`. -/
theorem witness_LastValueBelongsToTheRunLengthEngines :
    (fresh 0x02#8 .rScan [0x80#8]).status = .busy ∧
      engineStep unbounded (fresh 0x02#8 .rScan [0x80#8]) = .next
        { fresh 0x02#8 .rScan [0x80#8] with
          ipos := 1, obits := List.replicate 8 false, valueCount := 1#7, lastValue := true } ∧
      true ≠ (fresh 0x02#8 .rScan [0x80#8]).lastValue := ⟨rfl, rfl, by decide⟩

theorem witness_NoDictionaryOutputBeforeTheEndOfInput :
    (Invariant (fresh 0x00#8 .dLoad [0x41#8]) ∧ (fresh 0x00#8 .dLoad [0x41#8]).status = .busy ∧
      (fresh 0x00#8 .dLoad [0x41#8]).cmd = 0x00#8 ∧ (fresh 0x00#8 .dLoad [0x41#8]).inEnd = false) ∧
    (Invariant (fresh 0x01#8 .eLoad [0x41#8]) ∧ (fresh 0x01#8 .eLoad [0x41#8]).status = .busy ∧
      (fresh 0x01#8 .eLoad [0x41#8]).cmd = 0x01#8 ∧ (fresh 0x01#8 .eLoad [0x41#8]).inEnd = false) :=
  ⟨⟨fresh_dLoad_invariant _, rfl, rfl, rfl⟩, fresh_eLoad_invariant _, rfl, rfl, rfl⟩

/-- A block that has finished a run of `REXP`, with other turns to come. -/
def finished (h : List HostTurn) : State :=
  { State.reset with
    cmd := 0x03#8, status := .done, inEnd := true, obits := List.replicate 8 true, closed := true, lastValue := true,
    count := 8#8, host := h, inBytes := [0x08#8], ipos := 8 }

theorem finished_invariant (h : List HostTurn) : Invariant (finished h) :=
  invariant_of_parts _ ⟨rfl, rfl, rfl, rfl, rfl⟩ (by simp [finished])
    (by simp [finished, State.reset, Phase.afterInput, State.inEmpty]) trivial

theorem hosted_invariant (h : List HostTurn) : Invariant (hosted h) :=
  invariant_of_parts _ ⟨rfl, rfl, rfl, rfl, rfl⟩ (by simp [hosted, State.reset])
    (by simp [hosted, State.reset, Phase.afterInput]) trivial

/-- A schedule of a run in which the engine moves, and the host reads, before START and between the input's bytes. -/
def mixed (c a b : Byte) : List HostTurn :=
  [.idle, .start c, .idle, .supply a, .idle, .read .status, .supply b, .endInput, .read .err, .idle]

/-- Two blocks with different pasts and different schedules of one run, and with one list of turns to come. -/
theorem witness_ResultsDependOnCommandAndInputOnly :
    (Invariant (hosted (mixed 0x00#8 0x41#8 0x42#8)) ∧ Invariant (finished (runTurns 0x00#8 [0x41#8, 0x42#8])) ∧
      (hosted (mixed 0x00#8 0x41#8 0x42#8)).status ≠ .busy ∧
      (finished (runTurns 0x00#8 [0x41#8, 0x42#8])).status ≠ .busy ∧
      IsSchedule 0x00#8 [0x41#8, 0x42#8] (hosted (mixed 0x00#8 0x41#8 0x42#8)).host ∧
      IsSchedule 0x00#8 [0x41#8, 0x42#8] (finished (runTurns 0x00#8 [0x41#8, 0x42#8])).host) ∧
    (Invariant (hosted (runTurns 0x00#8 [0x41#8])) ∧ Invariant (finished (runTurns 0x00#8 [0x41#8])) ∧
      (hosted (runTurns 0x00#8 [0x41#8])).host = .start 0x00#8 :: [.supply 0x41#8, .endInput] ∧
      (finished (runTurns 0x00#8 [0x41#8])).host = .start 0x00#8 :: [.supply 0x41#8, .endInput]) :=
  ⟨⟨hosted_invariant _, finished_invariant _, by decide, by decide, by decide, by decide⟩, hosted_invariant _,
    finished_invariant _, rfl, rfl⟩

/-- Streams that differ in all their padding bits: `60 00`, accepted, with no bit but header and padding; and `80 00`,
refused by the check after (43_dict_decoder.md R200). Runs of the first and of its other form, in different schedules. -/
theorem witness_PaddingBitsAreNotExamined :
    ([0x60#8, 0x00#8].length = [0x60#8, 0x1F#8].length ∧ 5 = padOf (fieldAt (bytesBits [0x60#8, 0x00#8]) 0 3) ∧
      0 = (resolveUnique (BitVec.ofNat 8 (fieldAt (bytesBits [0x60#8, 0x00#8]) 3 8)) 2).toNat ∧
      11 + 8 * 0 + 5 ≤ 8 * [0x60#8, 0x00#8].length ∧
      (bytesBits [0x60#8, 0x00#8]).take (8 * 2 - 5) = (bytesBits [0x60#8, 0x1F#8]).take (8 * 2 - 5)) ∧
    (4 = padOf (fieldAt (bytesBits [0x80#8, 0x00#8]) 0 3) ∧ 11 + 8 * 0 + 4 ≤ 8 * [0x80#8, 0x00#8].length ∧
      (bytesBits [0x80#8, 0x00#8]).take (8 * 2 - 4) = (bytesBits [0x80#8, 0x0F#8]).take (8 * 2 - 4)) ∧
    (IsSchedule 0x01#8 [0x60#8, 0x00#8] (hosted (mixed 0x01#8 0x60#8 0x00#8)).host ∧
      IsSchedule 0x01#8 [0x60#8, 0x1F#8] (finished (runTurns 0x01#8 [0x60#8, 0x1F#8])).host) ∧
    Invariant (hosted (mixed 0x01#8 0x60#8 0x00#8)) ∧ Invariant (finished (runTurns 0x01#8 [0x60#8, 0x1F#8])) ∧
    ∀ c, (Config.Caps.mk none (some 2)).inCap = some c → [0x60#8, 0x00#8].length ≤ c :=
  ⟨by decide, by decide, by decide, hosted_invariant _, finished_invariant _, by intro c h; cases h; decide⟩

theorem witness_RexpComputesTheDecoderFunction :
    (finished (mixed 0x03#8 0x00#8 0x05#8)).status ≠ .busy ∧
      IsSchedule 0x03#8 [0x00#8, 0x05#8] (finished (mixed 0x03#8 0x00#8 0x05#8)).host ∧
      [0x00#8, 0x05#8].getLast? = some 0x05#8 := by decide

theorem witness_RcompWritesTheClosedForm :
    (finished (mixed 0x02#8 0x0F#8 0xF0#8)).status ≠ .busy ∧
      IsSchedule 0x02#8 [0x0F#8, 0xF0#8] (finished (mixed 0x02#8 0x0F#8 0xF0#8)).host ∧ (∀ L ∈ [4, 8, 4], 0 < L) ∧
      bytesBits [0x0F#8, 0xF0#8] = expandRuns false [4, 8, 4] := by decide

theorem witness_DcompWritesTheDictionaryStream :
    Invariant (finished (mixed 0x00#8 0x41#8 0x42#8)) ∧ (finished (mixed 0x00#8 0x41#8 0x42#8)).status ≠ .busy ∧
      IsSchedule 0x00#8 [0x41#8, 0x42#8] (finished (mixed 0x00#8 0x41#8 0x42#8)).host ∧
      ∀ c, (Config.Caps.mk (some 2) none).msgCap = some c → [0x41#8, 0x42#8].length ≤ c :=
  ⟨finished_invariant _, by decide, by decide, by intro c h; cases h; decide⟩

theorem witness_DexpComputesTheDecoderFunction :
    Invariant (finished (mixed 0x01#8 0x60#8 0x00#8)) ∧ (finished (mixed 0x01#8 0x60#8 0x00#8)).status ≠ .busy ∧
      IsSchedule 0x01#8 [0x60#8, 0x00#8] (finished (mixed 0x01#8 0x60#8 0x00#8)).host ∧
      ∀ c, (Config.Caps.mk none (some 2)).inCap = some c → [0x60#8, 0x00#8].length ≤ c :=
  ⟨finished_invariant _, by decide, by decide, by intro c h; cases h; decide⟩

/-- The outer premises at the empty message and a capacity of 0, and the inner ones at its stream, the two bytes `60 00`. -/
theorem witness_DictionaryRoundTrip :
    (Invariant (finished (runTurns 0x00#8 [])) ∧ (finished (runTurns 0x00#8 [])).status ≠ .busy ∧
      IsSchedule 0x00#8 [] (finished (runTurns 0x00#8 [])).host ∧
      ∀ c, (Config.Caps.mk (some 0) (some 2)).msgCap = some c → ([] : List Byte).length ≤ c) ∧
    (∀ c, (Config.Caps.mk (some 0) (some 2)).inCap = some c →
      ({ State.reset with obits := padToByte (dictStream []) }).outBytes.length ≤ c) ∧
    (Invariant (hosted (mixed 0x01#8 0x60#8 0x00#8)) ∧ (hosted (mixed 0x01#8 0x60#8 0x00#8)).status ≠ .busy ∧
      IsSchedule 0x01#8 ({ State.reset with obits := padToByte (dictStream []) }).outBytes
        (hosted (mixed 0x01#8 0x60#8 0x00#8)).host) :=
  ⟨⟨finished_invariant _, by decide, by decide, by intro c h; cases h; decide⟩, by intro c h; cases h; decide,
    hosted_invariant _, by decide, by decide⟩

/-- Outside the domain: `F0`, whose first run is of 1 bits; on it: `0F`, whose counts are `04 04`. -/
theorem witness_RunLengthRoundTripExactlyOnItsDomain :
    ((∀ L ∈ [4, 4], 0 < L) ∧ (finished (runTurns 0x02#8 [0xF0#8])).status ≠ .busy ∧
      IsSchedule 0x02#8 [0xF0#8] (finished (runTurns 0x02#8 [0xF0#8])).host ∧
      bytesBits [0xF0#8] = expandRuns true [4, 4] ∧ ¬RunLengthDomain true [4, 4]) ∧
    (bytesBits [0x0F#8] = expandRuns false [4, 4] ∧ RunLengthDomain false [4, 4]) ∧
    ((finished (mixed 0x03#8 0x04#8 0x04#8)).status ≠ .busy ∧
      IsSchedule 0x03#8 [0x04#8, 0x04#8] (finished (mixed 0x03#8 0x04#8 0x04#8)).host) := by
  refine ⟨⟨by decide, by decide, by decide, by decide, ?_⟩, ⟨by decide, ?_⟩, by decide, by decide⟩ <;>
    simp [RunLengthDomain, Config.MAX, Config.LENGTH]

end Sys2Proof.Tests
end

section
/-! The step of the block as the engine's turn, and each phase that reads a token as running that token (log 2;
44_control.md R222, R224). -/

namespace Sys2Proof.Machine

/-! ## Whose turn it is -/

/-- With no turn of the host left the engine moves (log 2). -/
theorem stepWith_of_host_nil {s : State} (caps : Config.Caps) (h : s.host = []) :
    stepWith caps s = engineStep caps s := by
  rw [stepWith, h]

/-- The host's next turn is taken off its list (44_control.md R220). -/
theorem stepWith_of_host_cons {s : State} {turn : HostTurn} {rest : List HostTurn} (caps : Config.Caps)
    (h : s.host = turn :: rest) : stepWith caps s = hostTurn caps turn { s with host := rest } := by
  rw [stepWith, h]; rfl

/-- A command that decodes is run (44_control.md R222). -/
theorem runCommand_of {c : Byte} {i : Instr} {r : List Bool} (s : State)
    (h : decode .command (byteBits c) = some (i, r)) : runCommand c s = exec i s := by
  rw [runCommand, h]

/-! ## The rows of the phase table that read a token (44_control.md R224) -/

section
variable {s : State} (caps : Config.Caps) (hb : s.status = .busy)
include hb

theorem engineStep_xRead (hp : s.phase = .xRead) : engineStep caps s = xRead s := by
  rw [engineStep, if_neg (not_not.2 hb), hp]

theorem engineStep_eHdr (hp : s.phase = .eHdr) : engineStep caps s = eHdr s := by
  rw [engineStep, if_neg (not_not.2 hb), hp]

theorem engineStep_eDict (hp : s.phase = .eDict) : engineStep caps s = eDict s := by
  rw [engineStep, if_neg (not_not.2 hb), hp]

theorem engineStep_eCode (hp : s.phase = .eCode) : engineStep caps s = eCode s := by
  rw [engineStep, if_neg (not_not.2 hb), hp]

theorem engineStep_eEmit (hp : s.phase = .eEmit) : engineStep caps s = eEmit s := by
  rw [engineStep, if_neg (not_not.2 hb), hp]

end

/-! ## Where each phase reads its token -/

/-- Input that is still there is no empty input (20_memory.md R64). -/
theorem inEmpty_of_lt {s : State} (h : s.ipos < 8 * s.inBytes.length) : s.inEmpty = false := by
  rw [← Bool.not_eq_true, inEmpty_iff]
  omega

/-- 41_rle_decoder.md R143: the eight bits at `ipos`, with `ipos` moved past them. -/
theorem xRead_token {s : State} (h : s.ipos + 8 ≤ 8 * s.inBytes.length) :
    xRead s = runToken .count ((List.range 8).map fun k => s.inBit (s.ipos + k)) { s with ipos := s.ipos + 8 } := by
  have hread : inBits Config.LENGTH s = some (_, s.advance 8) := inBits_eq_some.2 ⟨h, rfl, rfl⟩
  rw [xRead, inEmpty_of_lt (by omega), if_neg Bool.false_ne_true, hread]
  rfl

/-- 43_dict_decoder.md R195: the first eleven bits of the loaded stream. -/
theorem eHdr_token {s : State} (h : 11 ≤ 8 * s.B) : eHdr s = runToken .header (bufBits 0 11 s) s :=
  if_neg (by omega)

/-- 43_dict_decoder.md R197: entry `j` at its place. -/
theorem eDict_token {s : State} (hfits : 11 + 8 * s.unique.toNat ≤ 8 * s.B) (hj : s.j < s.unique.toNat) :
    eDict s = runToken .entry (bufBits (11 + 8 * s.j) 8 s) s := by
  rw [eDict, if_neg (by omega), if_pos hj, entryAddr]

/-- 43_dict_decoder.md R203: code `j` in the validation pass. -/
theorem eCode_token {s : State} (hj : s.j < s.n) : eCode s = runToken (.code s.cw.toNat) (codeBits s) s := if_pos hj

/-- 43_dict_decoder.md R204: code `j` in the output pass. -/
theorem eEmit_token {s : State} (hj : s.j < s.n) : eEmit s = runToken (.code s.cw.toNat) (codeBits s) s := if_pos hj

/-- 43_dict_decoder.md R205: behind the last code, the padding. -/
theorem eEmit_padding {s : State} (hj : s.n ≤ s.j) :
    eEmit s = runToken (.padding s.pad.toNat) (padBits s) s := if_neg (by omega)

/-- Both passes read code `j` in the same place (43_dict_decoder.md R203, R204). -/
theorem engineStep_code {s : State} (caps : Config.Caps) (hb : s.status = .busy)
    (hp : s.phase = .eCode ∨ s.phase = .eEmit) (hj : s.j < s.n) :
    engineStep caps s = runToken (.code s.cw.toNat) (codeBits s) s := by
  obtain hp | hp := hp
  · rw [engineStep_eCode caps hb hp, eCode_token hj]
  · rw [engineStep_eEmit caps hb hp, eEmit_token hj]

end Sys2Proof.Machine

open Sys2Proof Sys2Proof.Machine

/-- Settles O14: the step is brought to the `runToken` of its place, and a token that decodes is run. -/
theorem stepRunsTheDecodedInstruction : Obligations.StepRunsTheDecodedInstruction := by
  refine ⟨fun _ => rfl, fun caps _ h => stepWith_of_host_nil caps h, ?idle, ?command, ?count, ?header, ?entry, ?code,
    ?padding⟩
  case idle =>
    intro caps s rest h
    rw [stepWith_of_host_cons caps h, hostTurn]
  case command =>
    intro caps s c rest i r h hd
    rw [stepWith_of_host_cons caps h, hostTurn, runCommand_of _ hd]
  case count =>
    intro caps s i r hb hp hfits hd
    rw [engineStep_xRead caps hb hp, xRead_token hfits, runToken_of hd]
  case header =>
    intro caps s i r hb hp hfits hd
    rw [engineStep_eHdr caps hb hp, eHdr_token hfits, runToken_of hd]
  case entry =>
    intro caps s i r hb hp hfits hj hd
    rw [engineStep_eDict caps hb hp, eDict_token hfits hj, runToken_of hd]
  case code =>
    intro caps s i r hb hp hj hd
    rw [engineStep_code caps hb hp hj]
    exact runToken_of hd
  case padding =>
    intro caps s i r hb hp hj hd
    rw [engineStep_eEmit caps hb hp, eEmit_padding hj]
    exact runToken_of hd

end

section
/-! `lastValue` belongs to the run-length engines (10_state.md R30): a rule for what a result can answer, once per
shared operation; then one lemma per phase of the other engines. -/

namespace Sys2Proof.Machine

/-! ## What a result answers -/

/-- If `o` answers a next state, that state meets `P`. -/
def Answers (P : State → Prop) (o : Res) : Prop := ∀ t, o = .next t → P t

section
variable {P : State → Prop} {s : State}

theorem answers_next (h : P s) : Answers P (.next s) := fun _ ht => next_inj.1 ht ▸ h

theorem answers_fault (r : Fault) : Answers P (.fault r) := fun _ ht => by cases ht

/-- After a field is written only the state with its bits appended goes on (20_memory.md R69). -/
theorem answers_outBits_andThen {n v : Nat} {f : State → Res} (h : ∀ bs, Answers P (f (s.emit bs))) :
    Answers P (andThen (outBits n v s) f) := by
  intro t ht
  obtain ⟨u, hu, hf⟩ := andThen_eq_next.1 ht
  obtain ⟨-, -, -, -, rfl⟩ := outBits_eq_next.1 hu
  exact h _ t hf

theorem answers_withEntry {i : Nat} {o : Res} (h : Answers P o) : Answers P (withEntry i o) :=
  fun t ht => h t (withEntry_eq_next.1 ht).2

/-- A token answers what the instruction it decodes to answers. -/
theorem answers_runToken {ctx : Ctx} {bits : List Bool}
    (h : ∀ i r, decode ctx bits = some (i, r) → Answers P (exec i s)) : Answers P (runToken ctx bits s) := by
  cases hd : decode ctx bits with
  | some p => rw [runToken_of hd]; exact h _ _ hd
  | none => rw [runToken, hd]; exact answers_fault _

end

/-! ## Which instructions a place can hold -/

theorem exists_dictHdr_of_decode {bits r : List Bool} {i : Instr} (h : decode .header bits = some (i, r)) :
    ∃ rem u, i = .dictHdr rem u := by
  obtain ⟨_, -, hr⟩ := Option.bind_eq_some_iff.1 h
  obtain ⟨_, -, hu⟩ := Option.map_eq_some_iff.1 hr
  cases hu
  exact ⟨_, _, rfl⟩

theorem exists_dictEnt_of_decode {bits r : List Bool} {i : Instr} (h : decode .entry bits = some (i, r)) :
    ∃ b, i = .dictEnt b := by
  obtain ⟨_, -, hf⟩ := Option.map_eq_some_iff.1 h
  cases hf
  exact ⟨_, rfl⟩

theorem exists_dictPad_of_decode {pad : Nat} {bits r : List Bool} {i : Instr}
    (h : decode (.padding pad) bits = some (i, r)) : ∃ p, i = .dictPad p := by
  rw [decode] at h
  split at h
  · cases h; exact ⟨_, rfl⟩
  · cases h

/-- Whatever its width, an instruction read in the place of a code runs the one operation on codes. -/
theorem exec_eq_codeToken_of_decode {cw : Nat} {bits r : List Bool} {i : Instr} (s : State)
    (h : decode (.code cw) bits = some (i, r)) : ∃ c, exec i s = codeToken c s := by
  obtain ⟨_, -, hf⟩ := Option.bind_eq_some_iff.1 h
  obtain ⟨_, hcode, hi⟩ := Option.map_eq_some_iff.1 hf
  cases hi
  unfold decodeCode at hcode
  split at hcode <;> cases hcode <;> exact ⟨_, rfl⟩

/-! ## Keeping `lastValue`, unless an error is taken -/

/-- `lastValue` is `v`, unless an error was taken, which leaves it unspecified (60_exceptions.md R252). -/
def LastValueKept (v : Bool) (t : State) : Prop := t.status ≠ .error → t.lastValue = v

/-- `o` is the result of an operation on `s` that does not change `lastValue`. -/
abbrev KeepsLastValue (s : State) (o : Res) : Prop := Answers (LastValueKept s.lastValue) o

theorem keepsLastValue_next {s t : State} (h : t.lastValue = s.lastValue) : KeepsLastValue s (.next t) :=
  answers_next fun _ => h

theorem keepsLastValue_raise (e : ErrCode) (s t : State) : KeepsLastValue s (raise e t) :=
  answers_next fun h => absurd rfl h

theorem keepsLastValue_complete {s t : State} (h : t.lastValue = s.lastValue) : KeepsLastValue s (complete t) :=
  keepsLastValue_next (by simpa using h)

theorem keepsLastValue_onShort (s : State) : KeepsLastValue s (onShort s) := by
  rw [onShort]
  split
  · exact keepsLastValue_raise _ _ _
  · exact keepsLastValue_next rfl

/-! ## The last phase of the run-length encoder -/

theorem rFlush_keepsLastValue (s : State) : KeepsLastValue s (rFlush s) := by
  rw [rFlush]
  split
  · exact answers_outBits_andThen fun _ => keepsLastValue_complete (by simp)
  · exact keepsLastValue_complete rfl

/-! ## The dictionary encoder -/

theorem dTrack_keepsLastValue (b : Byte) (s : State) : KeepsLastValue s (dTrack b s) := by
  rw [dTrack]
  split
  · exact answers_withEntry (keepsLastValue_next (by simp))
  · exact keepsLastValue_next rfl

theorem dLoad_keepsLastValue (caps : Config.Caps) (s : State) : KeepsLastValue s (dLoad caps s) := by
  rw [dLoad]
  split
  · exact keepsLastValue_next (by simp)
  · split
    · exact keepsLastValue_onShort s
    · rename_i hread
      obtain ⟨-, -, rfl⟩ := inBits_eq_some.1 hread
      split
      · exact keepsLastValue_raise _ _ _
      · exact dTrack_keepsLastValue _ (dStore _ (s.advance 8))

theorem dCalc_keepsLastValue (s : State) : KeepsLastValue s (dCalc s) := keepsLastValue_next (by simp)

theorem dHdr_keepsLastValue (s : State) : KeepsLastValue s (dHdr s) :=
  answers_outBits_andThen fun _ => answers_outBits_andThen fun _ => keepsLastValue_next (by simp)

theorem dDict_keepsLastValue (s : State) : KeepsLastValue s (dDict s) := by
  rw [dDict]
  split
  · exact answers_withEntry (answers_outBits_andThen fun _ => keepsLastValue_next (by simp))
  · exact keepsLastValue_next (by simp)

theorem dCode_keepsLastValue (s : State) : KeepsLastValue s (dCode s) := by
  rw [dCode]
  split
  · exact answers_outBits_andThen fun _ => keepsLastValue_next (by simp)
  · exact keepsLastValue_next (by simp)

theorem dClose_keepsLastValue (s : State) : KeepsLastValue s (dClose s) := keepsLastValue_complete rfl

/-! ## The dictionary decoder -/

theorem codeToken_keepsLastValue (c : Byte) (s : State) : KeepsLastValue s (codeToken c s) := by
  rw [codeToken]
  split
  · rw [validateCode]
    split
    · exact keepsLastValue_raise _ _ _
    · exact keepsLastValue_next (by simp)
  · exact answers_outBits_andThen fun _ => keepsLastValue_next (by simp)

theorem runToken_header_keepsLastValue (bits : List Bool) (s : State) :
    KeepsLastValue s (runToken .header bits s) := by
  refine answers_runToken fun i r hd => ?_
  obtain ⟨rem, u, rfl⟩ := exists_dictHdr_of_decode hd
  exact keepsLastValue_next (by simp)

theorem runToken_entry_keepsLastValue (bits : List Bool) (s : State) :
    KeepsLastValue s (runToken .entry bits s) := by
  refine answers_runToken fun i r hd => ?_
  obtain ⟨b, rfl⟩ := exists_dictEnt_of_decode hd
  exact answers_withEntry (keepsLastValue_next (by simp))

theorem runToken_code_keepsLastValue (cw : Nat) (bits : List Bool) (s : State) :
    KeepsLastValue s (runToken (.code cw) bits s) := by
  refine answers_runToken fun i r hd => ?_
  obtain ⟨c, hc⟩ := exec_eq_codeToken_of_decode s hd
  rw [hc]
  exact codeToken_keepsLastValue c s

theorem runToken_padding_keepsLastValue (pad : Nat) (bits : List Bool) (s : State) :
    KeepsLastValue s (runToken (.padding pad) bits s) := by
  refine answers_runToken fun i r hd => ?_
  obtain ⟨p, rfl⟩ := exists_dictPad_of_decode hd
  exact keepsLastValue_complete rfl

theorem eLoad_keepsLastValue (caps : Config.Caps) (s : State) : KeepsLastValue s (eLoad caps s) := by
  rw [eLoad]
  split
  · exact keepsLastValue_next (by simp)
  · split
    · exact keepsLastValue_onShort s
    · rename_i hread
      obtain ⟨-, -, rfl⟩ := inBits_eq_some.1 hread
      split
      · exact keepsLastValue_raise _ _ _
      · exact keepsLastValue_next (by simp)

theorem eHdr_keepsLastValue (s : State) : KeepsLastValue s (eHdr s) := by
  rw [eHdr]
  split
  · exact keepsLastValue_raise _ _ _
  · exact runToken_header_keepsLastValue _ s

theorem eDict_keepsLastValue (s : State) : KeepsLastValue s (eDict s) := by
  rw [eDict]
  split
  · exact keepsLastValue_raise _ _ _
  · split
    · exact runToken_entry_keepsLastValue _ s
    · exact keepsLastValue_next (by simp)

theorem eCalc_keepsLastValue (s : State) : KeepsLastValue s (eCalc s) := by
  dsimp only [eCalc]
  split
  · exact keepsLastValue_raise _ _ _
  · split
    · exact keepsLastValue_raise _ _ _
    · split
      · exact keepsLastValue_raise _ _ _
      · exact keepsLastValue_next (by simp)

theorem eCode_keepsLastValue (s : State) : KeepsLastValue s (eCode s) := by
  rw [eCode]
  split
  · exact runToken_code_keepsLastValue _ _ s
  · exact keepsLastValue_next (by simp)

theorem eEmit_keepsLastValue (s : State) : KeepsLastValue s (eEmit s) := by
  rw [eEmit]
  split
  · exact runToken_code_keepsLastValue _ _ s
  · exact runToken_padding_keepsLastValue _ _ s

/-! ## The engines' step -/

/-- Outside the two phases that flip it, an engine's step leaves `lastValue` (40_rle_encoder.md R123,
41_rle_decoder.md R144). -/
theorem engineStep_keepsLastValue (caps : Config.Caps) {s : State} (hscan : s.phase ≠ .rScan)
    (hread : s.phase ≠ .xRead) : KeepsLastValue s (engineStep caps s) := by
  rw [engineStep]
  split
  · exact keepsLastValue_next rfl
  · cases hp : s.phase with
    | halt => exact keepsLastValue_next rfl
    | rScan => exact absurd hp hscan
    | rFlush => exact rFlush_keepsLastValue s
    | xRead => exact absurd hp hread
    | dLoad => exact dLoad_keepsLastValue caps s
    | dCalc => exact dCalc_keepsLastValue s
    | dHdr => exact dHdr_keepsLastValue s
    | dDict => exact dDict_keepsLastValue s
    | dCode => exact dCode_keepsLastValue s
    | dClose => exact dClose_keepsLastValue s
    | eLoad => exact eLoad_keepsLastValue caps s
    | eHdr => exact eHdr_keepsLastValue s
    | eDict => exact eDict_keepsLastValue s
    | eCalc => exact eCalc_keepsLastValue s
    | eCode => exact eCode_keepsLastValue s
    | eEmit => exact eEmit_keepsLastValue s

end Sys2Proof.Machine

open Sys2Proof Sys2Proof.Machine

/-- Settles O52: a step in any other phase keeps `lastValue`, and a changed `Bool` is its complement. -/
theorem lastValueBelongsToTheRunLengthEngines : Obligations.LastValueBelongsToTheRunLengthEngines := by
  intro caps s t _ hstep hok hchanged
  refine ⟨Bool.eq_not_of_ne hchanged, ?_⟩
  by_contra hphase
  obtain ⟨hscan, hread⟩ := not_or.1 hphase
  exact hchanged (engineStep_keepsLastValue caps hscan hread t hstep hok)

end

section
/-! No step stops the machine: from the invariant every precondition that the spec puts on an operation is met where the
engines use it (20_memory.md R69, R77, R78; 43_dict_decoder.md R193). One rule per shared operation, one per place a token
is read in, then one lemma per row of the phase tables. -/

namespace Sys2Proof

/-! ## Enough bits in a place decode -/

/-- Eleven bits in the place of a header are a header (30_encoding.md R99). -/
theorem decode_header_of_length {bits : List Bool} (h : 11 ≤ bits.length) :
    ∃ rem u r, decode .header bits = some (.dictHdr rem u, r) := by
  have hu : 8 ≤ (bits.drop 3).length := by rw [List.length_drop]; omega
  exact ⟨_, _, _, by rw [decode, takeField_eq (by omega), Option.bind_some, takeField_eq hu, Option.map_some]⟩

/-- Eight bits in the place of an entry are an entry (30_encoding.md R101). -/
theorem decode_entry_of_length {bits : List Bool} (h : 8 ≤ bits.length) :
    ∃ b r, decode .entry bits = some (.dictEnt b, r) :=
  ⟨_, _, by rw [decode, takeField_eq h, Option.map_some]⟩

/-- Up to seven bits are padding, if they are there (30_encoding.md R103). -/
theorem decode_padding_of_length {pad : Nat} {bits : List Bool} (hpad : pad < 8) (h : pad ≤ bits.length) :
    ∃ p r, decode (.padding pad) bits = some (.dictPad p, r) :=
  ⟨_, _, by rw [decode, if_pos ⟨hpad, h⟩]⟩

/-- A byte's count is the escape or a run of at least one bit (30_encoding.md R95, R96). -/
theorem decodeCount_cases {v : Nat} (hv : v < 256) :
    decodeCount v = .rleEsc ∨ ∃ n, n ≠ 0#8 ∧ decodeCount v = .rleRun n := by
  rw [decodeCount]
  split
  · exact .inl rfl
  · next h0 =>
    refine .inr ⟨_, fun h => h0 ?_, rfl⟩
    simpa [Nat.mod_eq_of_lt hv] using congrArg BitVec.toNat h

end Sys2Proof

namespace Sys2Proof.Machine

/-! ## The turn taken off the host's list leaves the invariant (log 2) -/

section
variable {s : State} (turns : List HostTurn)

theorem dictOk_setHost : DictOk (s.setHost turns) ↔ DictOk s :=
  ⟨fun h => dictOk_of_eq h rfl rfl rfl rfl rfl rfl, fun h => dictOk_of_eq h rfl rfl rfl rfl rfl rfl⟩

theorem encWidthsOk_setHost : EncWidthsOk (s.setHost turns) ↔ EncWidthsOk s :=
  ⟨fun h => encWidthsOk_of_eq h rfl rfl rfl rfl, fun h => encWidthsOk_of_eq h rfl rfl rfl rfl⟩

theorem decDictOk_setHost : DecDictOk (s.setHost turns) ↔ DecDictOk s :=
  ⟨fun h => decDictOk_of_eq h rfl rfl rfl, fun h => decDictOk_of_eq h rfl rfl rfl⟩

theorem decWidthsOk_setHost : DecWidthsOk (s.setHost turns) ↔ DecWidthsOk s :=
  ⟨fun h => decWidthsOk_of_eq h rfl rfl rfl rfl rfl rfl, fun h => decWidthsOk_of_eq h rfl rfl rfl rfl rfl rfl⟩

theorem phaseOk_setHost : PhaseOk (s.setHost turns) ↔ PhaseOk s := by
  simp only [PhaseOk, setHost_phase, setHost_valueCount, setHost_obits, setHost_ipos, setHost_length, setHost_j,
    setHost_unique, setHost_cw, setHost_B, setHost_U, setHost_n, dictOk_setHost, encWidthsOk_setHost,
    decDictOk_setHost, decWidthsOk_setHost]

theorem controlOk_setHost (h : ControlOk s) : ControlOk (s.setHost turns) := by
  obtain ⟨busy_iff, busy_open, busy_engine, error_iff, ended_closed, input_read⟩ := h
  exact ⟨busy_iff, busy_open, busy_engine, error_iff, ended_closed, input_read⟩

theorem invariant_setHost (h : Invariant s) : Invariant (s.setHost turns) where
  tables := tables_of_eq h.tables rfl rfl rfl rfl rfl
  streams := ⟨h.streams.ipos_le, h.streams.closed_whole⟩
  control := controlOk_setHost turns h.control
  phase_ok := (phaseOk_setHost turns).2 h.phase_ok

end

/-! ## Where a result answers a next state -/

/-- `o` is no fault and no refusal. -/
def Continues (o : Res) : Prop := ∃ t, o = .next t

section
variable {s : State}

theorem continues_next (s : State) : Continues (.next s) := ⟨s, rfl⟩

theorem continues_raise (e : ErrCode) (s : State) : Continues (raise e s) := ⟨_, raise_eq e s⟩

theorem continues_complete (s : State) : Continues (complete s) := ⟨_, complete_eq s⟩

theorem continues_onShort (s : State) : Continues (onShort s) := ⟨_, onShort_eq s⟩

/-- A field whose width and value are in range is written to an open output (20_memory.md R69). -/
theorem continues_outBits_andThen {n v : Nat} {f : State → Res} (h0 : 0 < n) (h32 : n ≤ 32) (hv : v < 2 ^ n)
    (hopen : s.closed = false) (hf : Continues (f (s.emit (bitsOf n v)))) :
    Continues (andThen (outBits n v s) f) := by
  rwa [outBits_open h0 h32 hv hopen, andThen_next]

/-- An entry below 256 exists (20_memory.md R78). -/
theorem continues_withEntry {i : Nat} {o : Res} (hi : i < 256) (ho : Continues o) : Continues (withEntry i o) := by
  rwa [withEntry_lt hi]

/-! ## START (44_control.md R221 to R223, R227) -/

theorem continues_startEngine (c : Byte) (init : State → State) (s : State) : Continues (startEngine c init s) := by
  rw [startEngine]
  split
  · exact continues_next _
  · exact continues_next _

theorem continues_usageError (c : Byte) (s : State) : Continues (usageError c s) := by
  rw [usageError]
  split
  · exact continues_next _
  · exact continues_next _

/-- Whichever command a byte decodes to, it is run as the START of an engine (30_encoding.md R92). -/
theorem exec_eq_startEngine_of_decodeCommand {c : Byte} {i : Instr} (s : State) (h : decodeCommand c = some i) :
    ∃ c' init, exec i s = startEngine c' init s := by
  rw [decodeCommand] at h
  split at h
  · split at h <;> cases h
    · exact ⟨_, _, by rw [exec, execDcomp]⟩
    · exact ⟨_, _, by rw [exec, execDexp]⟩
    · exact ⟨_, _, by rw [exec, execRcomp]⟩
    · exact ⟨_, _, by rw [exec, execRexp]⟩
  · cases h

theorem continues_runCommand (c : Byte) (s : State) : Continues (runCommand c s) := by
  have hd := decode_command_byteBits c
  cases hc : decodeCommand c with
  | none =>
    rw [hc, Option.map_none] at hd
    rw [runCommand, hd]
    exact continues_usageError c s
  | some i =>
    rw [hc, Option.map_some] at hd
    rw [runCommand_of s hd]
    obtain ⟨c', init, hstart⟩ := exec_eq_startEngine_of_decodeCommand s hc
    rw [hstart]
    exact continues_startEngine c' init s

/-! ## The tokens, each on the bits its place has -/

/-- Eight bits are a count, and its copies go to an open output (41_rle_decoder.md R143 to R146). -/
theorem continues_runToken_count {bits : List Bool} (hl : bits.length = 8) (hopen : s.closed = false) :
    Continues (runToken .count bits s) := by
  have hv : natOf bits < 256 := by simpa [hl] using natOf_lt bits
  have hd := decode_count hl
  obtain hi | ⟨n, hn, hi⟩ := decodeCount_cases hv
  · rw [hi] at hd
    rw [runToken_of hd]
    exact ⟨_, outRep_open hopen⟩
  · rw [hi] at hd
    rw [runToken_of hd, exec, execRleRun, if_neg hn, outRep_open (s := s.setCount n) hopen]
    exact continues_next _

theorem continues_runToken_header {bits : List Bool} (hl : 11 ≤ bits.length) :
    Continues (runToken .header bits s) := by
  obtain ⟨rem, u, r, hd⟩ := decode_header_of_length hl
  rw [runToken_of hd]
  exact continues_next _

/-- 43_dict_decoder.md R197, for an entry that exists (10_state.md R34). -/
theorem continues_runToken_entry {bits : List Bool} (hl : 8 ≤ bits.length) (hj : s.j < 256) :
    Continues (runToken .entry bits s) := by
  obtain ⟨b, r, hd⟩ := decode_entry_of_length hl
  rw [runToken_of hd]
  exact continues_withEntry hj (continues_next _)

theorem continues_codeToken (c : Byte) (hopen : s.closed = false) : Continues (codeToken c s) := by
  rw [codeToken]
  split
  · rw [validateCode]
    split
    · exact continues_raise _ _
    · exact continues_next _
  · exact continues_outBits_andThen (by omega) (by omega) (BitVec.isLt _) hopen (continues_next _)

theorem continues_runToken_padding {pad : Nat} {bits : List Bool} (hpad : pad < 8) (hl : pad ≤ bits.length) :
    Continues (runToken (.padding pad) bits s) := by
  obtain ⟨p, r, hd⟩ := decode_padding_of_length hpad hl
  rw [runToken_of hd]
  exact continues_complete s

/-! ## The run-length engines -/

theorem continues_rChange (hopen : s.closed = false) : Continues (rChange s) :=
  have hv : s.valueCount.toNat < 2 ^ 8 := by have := s.valueCount.isLt; omega
  continues_outBits_andThen (n := 8) (by omega) (by omega) hv hopen (continues_next _)

theorem continues_rSame (hopen : s.closed = false) : Continues (rSame s) := by
  rw [rSame]
  split
  · exact continues_outBits_andThen (n := 8) (by omega) (by omega) (by omega) hopen (continues_next _)
  · exact continues_next _

theorem continues_rScan (hopen : s.closed = false) : Continues (rScan s) := by
  rw [rScan]
  split
  · exact continues_next _
  · split
    · exact continues_onShort s
    · next hread =>
      obtain ⟨-, -, rfl⟩ := inBits_eq_some.1 hread
      split
      · exact continues_rChange hopen
      · exact continues_rSame hopen

theorem continues_rFlush (hopen : s.closed = false) : Continues (rFlush s) := by
  have hv : s.valueCount.toNat < 2 ^ 8 := by have := s.valueCount.isLt; omega
  rw [rFlush]
  split
  · exact continues_outBits_andThen (n := 8) (by omega) (by omega) hv hopen (continues_complete _)
  · exact continues_complete s

theorem continues_xRead (hopen : s.closed = false) : Continues (xRead s) := by
  rw [xRead]
  split
  · exact continues_complete s
  · split
    · exact continues_onShort s
    · next hread =>
      obtain ⟨-, rfl, rfl⟩ := inBits_eq_some.1 hread
      exact continues_runToken_count (by simp [Config.LENGTH]) hopen

/-! ## The dictionary encoder -/

/-- A byte value not yet seen has a code left: one entry more would still fit the table (42_dict_encoder.md R163). -/
theorem unique_lt_of_unseen (ht : TablesOk s) (hd : DictOk s) {b : Byte}
    (hb : Table.read s.seen b.toNat = 0#1) : s.unique.toNat < 256 := by
  have hnew := Table.length_write_new ht.seen_wf hb (show (1#1 : BitVec 1) ≠ 0#1 by decide)
  have hle := Table.length_le (Table.write_wf ht.seen_wf b.toNat 1#1) (Table.write_lt ht.seen_lt b.isLt)
  have := hd.unique_eq
  omega

theorem continues_dLoad (caps : Config.Caps) (ht : TablesOk s) (hd : DictOk s) : Continues (dLoad caps s) := by
  have hlt (b : Byte) (hb : Table.read s.seen b.toNat = 0#1) := unique_lt_of_unseen ht hd hb
  rw [dLoad]
  split
  · exact continues_next _
  · split
    · exact continues_onShort s
    · next hread =>
      obtain ⟨-, -, rfl⟩ := inBits_eq_some.1 hread
      split
      · exact continues_raise _ _
      · rw [dTrack]
        split
        · next hb => exact continues_withEntry (hlt _ hb) (continues_next _)
        · exact continues_next _

theorem continues_dHdr (hopen : s.closed = false) : Continues (dHdr s) :=
  continues_outBits_andThen (by omega) (by omega) (BitVec.isLt _) hopen <|
    continues_outBits_andThen (by omega) (by omega) (Nat.mod_lt _ (by omega)) hopen (continues_next _)

theorem continues_dDict (hopen : s.closed = false) (hu : s.unique.toNat ≤ 256) : Continues (dDict s) := by
  rw [dDict]
  split
  · exact continues_withEntry (by omega) <|
      continues_outBits_andThen (by omega) (by omega) (BitVec.isLt _) hopen (continues_next _)
  · exact continues_next _

/-- The code of a message byte is below `unique`, so it fits the code width (42_dict_encoder.md R165, R166). -/
theorem messageCode_lt (hd : DictOk s) (hw : EncWidthsOk s) (hj : s.j < s.length) :
    (Table.read s.idx (Table.read s.msg s.j).toNat).toNat < 2 ^ s.cw.toNat := by
  have hcode := (hd.seen_code _ (BitVec.isLt _) (hd.msg_seen s.j hj)).1
  rw [hw.cw_eq]
  exact Nat.lt_of_lt_of_le hcode (le_two_pow_codeWidth _)

theorem continues_dCode (hopen : s.closed = false) (ht : TablesOk s) (hd : DictOk s) (hw : EncWidthsOk s) :
    Continues (dCode s) := by
  have hcw := hw.cw_eq
  have h1 := codeWidth_pos s.unique.toNat
  have h8 := codeWidth_le_eight (unique_le ht hd)
  rw [dCode]
  split
  · next hj =>
    exact continues_outBits_andThen (by omega) (by omega) (messageCode_lt hd hw hj) hopen (continues_next _)
  · exact continues_next _

/-! ## The dictionary decoder -/

theorem continues_eLoad (caps : Config.Caps) (s : State) : Continues (eLoad caps s) := by
  rw [eLoad]
  split
  · exact continues_next _
  · split
    · exact continues_onShort s
    · split
      · exact continues_raise _ _
      · exact continues_next _

theorem continues_eHdr (s : State) : Continues (eHdr s) := by
  rw [eHdr]
  split
  · exact continues_raise _ _
  · exact continues_runToken_header (Nat.le_of_eq (bufBits_length (by omega)).symm)

theorem continues_eDict (hu : s.unique.toNat ≤ 256) : Continues (eDict s) := by
  rw [eDict]
  split
  · exact continues_raise _ _
  · split
    · have hl : (bufBits (entryAddr s.j) 8 s).length = 8 := bufBits_length (by rw [entryAddr]; omega)
      exact continues_runToken_entry (by omega) (by omega)
    · exact continues_next _

theorem continues_eCalc (s : State) : Continues (eCalc s) := by
  dsimp only [eCalc]
  split
  · exact continues_raise _ _
  · split
    · exact continues_raise _ _
    · split
      · exact continues_raise _ _
      · exact continues_next _

/-- Code `j` is read inside the loaded stream, at a width of the table (43_dict_decoder.md R193, R198). -/
theorem continues_runToken_codeBits (hopen : s.closed = false) (hd : DecDictOk s) (hw : DecWidthsOk s)
    (hj : s.j < s.n) : Continues (runToken (.code s.cw.toNat) (codeBits s) s) := by
  have hu : s.unique.toNat ≤ 256 := hd.unique_eq ▸ resolveUnique_le s.U s.B
  have hcw := hw.cw_eq
  have h1 := codeWidth_pos s.unique.toNat
  have h8 := codeWidth_le_eight hu
  obtain ⟨c, -, hc⟩ := runToken_code (s := s) (by omega) (by omega) (bufBits_length (code_fits hw hj))
  rw [codeBits, hc]
  exact continues_codeToken c hopen

theorem continues_eCode (hopen : s.closed = false) (hd : DecDictOk s) (hw : DecWidthsOk s) : Continues (eCode s) := by
  rw [eCode]
  split
  · next hj => exact continues_runToken_codeBits hopen hd hw hj
  · exact continues_next _

/-- The padding is what the stream has left behind the last code (43_dict_decoder.md R198, R205). -/
theorem length_padBits (hw : DecWidthsOk s) : (padBits s).length = s.pad.toNat :=
  bufBits_length (by have := hw.total; rw [codeAddr]; omega)

theorem continues_eEmit (hopen : s.closed = false) (hd : DecDictOk s) (hw : DecWidthsOk s) : Continues (eEmit s) := by
  rw [eEmit]
  split
  · next hj => exact continues_runToken_codeBits hopen hd hw hj
  · exact continues_runToken_padding s.pad.isLt (length_padBits hw).ge

/-! ## The block's step -/

/-- Every row of the phase tables, from the part of the invariant that belongs to its phase. -/
theorem continues_engineStep (caps : Config.Caps) (h : Invariant s) : Continues (engineStep caps s) := by
  obtain ⟨ht, -, hc, hphase⟩ := h
  rw [engineStep]
  split
  · exact continues_next s
  next hb =>
  have hopen := hc.busy_open (not_not.1 hb)
  rw [PhaseOk] at hphase
  cases hp : s.phase <;> rw [hp] at hphase
  case halt => exact continues_next s
  case rScan => exact continues_rScan hopen
  case rFlush => exact continues_rFlush hopen
  case xRead => exact continues_xRead hopen
  case dLoad =>
    obtain ⟨-, -, hd⟩ := hphase
    exact continues_dLoad caps ht hd
  case dCalc => exact continues_next _
  case dHdr => exact continues_dHdr hopen
  case dDict =>
    obtain ⟨-, -, hd, -⟩ := hphase
    exact continues_dDict hopen (unique_le ht hd)
  case dCode =>
    obtain ⟨-, -, hd, hw⟩ := hphase
    exact continues_dCode hopen ht hd hw
  case dClose => exact continues_complete s
  case eLoad => exact continues_eLoad caps s
  case eHdr => exact continues_eHdr s
  case eDict =>
    obtain ⟨-, -, hu, -⟩ := hphase
    exact continues_eDict (hu ▸ resolveUnique_le s.U s.B)
  case eCalc => exact continues_eCalc s
  case eCode =>
    obtain ⟨-, hd, hw, -⟩ := hphase
    exact continues_eCode hopen hd hw
  case eEmit =>
    obtain ⟨-, hd, hw, -⟩ := hphase
    exact continues_eEmit hopen hd hw

theorem continues_hostTurn (caps : Config.Caps) (turn : HostTurn) (h : Invariant s) :
    Continues (hostTurn caps turn s) := by
  cases turn with
  | start c => exact continues_runCommand c s
  | idle => exact continues_engineStep caps h
  | reset => exact continues_next _
  | supply b => exact continues_next _
  | endInput => exact continues_next _
  | read r => exact continues_next _

theorem continues_stepWith (caps : Config.Caps) (h : Invariant s) : Continues (stepWith caps s) := by
  cases hh : s.host with
  | nil =>
    rw [stepWith_of_host_nil caps hh]
    exact continues_engineStep caps h
  | cons turn rest =>
    rw [stepWith_of_host_cons caps hh]
    exact continues_hostTurn caps turn (invariant_setHost rest h)

end

end Sys2Proof.Machine

open Sys2Proof Sys2Proof.Machine

/-- Settles O50: the preconditions hold at every row of the phase tables, and a host's turn has none. -/
theorem noStepStopsTheMachine : Obligations.NoStepStopsTheMachine :=
  ⟨fun caps _ h => continues_stepWith caps h, fun _ h => continues_stepWith Config.caps h⟩

end

section
/-! The streams as bits (20_memory.md R62 to R72): a field is the sum of its bits and its bits are the tests of its value,
byte `i` of a sequence of whole bytes is its bits `8*i` to `8*i + 7`, and reading and packing bytes are inverse. -/

namespace Sys2Proof

/-! ## Fields, bit by bit -/

/-- A field's bits, the most significant first (20_memory.md R69). -/
theorem bitsOf_eq_map_range (n v : Nat) : bitsOf n v = (List.range n).map fun i => v.testBit (n - 1 - i) := by
  induction n with
  | zero => rfl
  | succ n ih =>
    rw [bitsOf, ih, List.range_succ_eq_map, List.map_cons, List.map_map]
    congr 1
    exact List.map_congr_left fun i _ => by simp [Nat.sub_sub, Nat.add_comm]

/-- A field's value is the sum of its bits, the first the most significant (20_memory.md R66). -/
theorem natOf_map_range (n : Nat) (f : Nat → Bool) :
    natOf ((List.range n).map f) = ∑ i ∈ Finset.range n, (f i).toNat * 2 ^ (n - 1 - i) := by
  induction n generalizing f with
  | zero => rfl
  | succ n ih =>
    rw [List.range_succ_eq_map, List.map_cons, List.map_map, natOf, ih, Finset.sum_range_succ', Nat.add_comm]
    simp [Nat.sub_sub, Nat.add_comm]

/-- A window that lies inside a bit sequence, bit by bit. -/
theorem take_drop_eq_map_range {bits : List Bool} {a n : Nat} (h : a + n ≤ bits.length) :
    (bits.drop a).take n = (List.range n).map fun k => bits.getD (a + k) false := by
  apply List.ext_getElem
  · simp; omega
  · intro k hk _
    have hk : k < n := by simp at hk; omega
    simp [List.getElem?_eq_getElem (show a + k < bits.length by omega)]

/-! ## Bytes as bits (20_memory.md R63) -/

theorem bytesBits_cons (b : Byte) (bs : List Byte) : bytesBits (b :: bs) = byteBits b ++ bytesBits bs := rfl

/-- Bit `k` of a byte in stream order is its bit `7 - k`. -/
theorem getElem?_byteBits (b : Byte) {k : Nat} (hk : k < 8) : (byteBits b)[k]? = some (b.getLsbD (7 - k)) := by
  simp [byteBits, bitsOf_eq_map_range, hk, BitVec.getLsbD]

/-- Bit `k` of a byte sequence is bit `7 - (k mod 8)` of its byte `k div 8`. -/
theorem getElem?_bytesBits {bs : List Byte} {k : Nat} (h : k / 8 < bs.length) :
    (bytesBits bs)[k]? = some (bs[k / 8].getLsbD (7 - k % 8)) := by
  induction bs generalizing k with
  | nil => simp at h
  | cons b bs ih =>
    rw [bytesBits_cons]
    rcases Nat.lt_or_ge k 8 with hk | hk
    · rw [List.getElem?_append_left (by simpa using hk), getElem?_byteBits b hk]
      simp [Nat.div_eq_of_lt hk, Nat.mod_eq_of_lt hk]
    · obtain ⟨m, rfl⟩ := Nat.exists_eq_add_of_le' hk
      have hm : m / 8 < bs.length := by simp at h; omega
      rw [List.getElem?_append_right (by simp), length_byteBits, Nat.add_sub_cancel, ih hm]
      simp

/-! ## Bits as bytes (20_memory.md R71) -/

theorem length_packBytes (bits : List Bool) : (packBytes bits).length = bits.length / 8 := by simp [packBytes]

/-- Eight bits in front are one byte in front. -/
theorem packBytes_append {first : List Bool} (h : first.length = 8) (bits : List Bool) :
    packBytes (first ++ bits) = BitVec.ofNat 8 (natOf first) :: packBytes bits := by
  have hlen : (first ++ bits).length / 8 = bits.length / 8 + 1 := by simp [h]
  rw [packBytes, hlen, List.range_succ_eq_map, List.map_cons, List.map_map, packBytes]
  congr 1
  · simp [← h]
  · exact List.map_congr_left fun i _ => by
      simp [List.drop_append, h, Nat.mul_succ, List.drop_eq_nil_of_le]

/-- A byte packed from eight bits has these bits. -/
theorem byteBits_ofNat_natOf {bits : List Bool} (h : bits.length = 8) :
    byteBits (BitVec.ofNat 8 (natOf bits)) = bits := by
  rw [byteBits, BitVec.toNat_ofNat, bitsOf_mod, ← h, bitsOf_natOf]

theorem packBytes_bytesBits (bs : List Byte) : packBytes (bytesBits bs) = bs := by
  induction bs with
  | nil => rfl
  | cons b bs ih =>
    rw [bytesBits_cons, packBytes_append (length_byteBits b), ih, byteBits, natOf_bitsOf_of_lt b.isLt,
      BitVec.ofNat_toNat, BitVec.setWidth_eq]

theorem bytesBits_packBytes {m : Nat} {bits : List Bool} (h : bits.length = 8 * m) :
    bytesBits (packBytes bits) = bits := by
  induction m generalizing bits with
  | zero => rw [List.eq_nil_of_length_eq_zero h]; rfl
  | succ m ih =>
    have hfirst : (bits.take 8).length = 8 := by simp; omega
    have hrest : (bits.drop 8).length = 8 * m := by simp; omega
    rw [← List.take_append_drop 8 bits, packBytes_append hfirst, bytesBits_cons, byteBits_ofNat_natOf hfirst,
      ih hrest]

/-- Byte `i` of a packed sequence is the sum of its bits. -/
theorem toNat_getElem_packBytes {bits : List Bool} {i : Nat} (h : i < (packBytes bits).length) :
    (packBytes bits)[i].toNat = ∑ k ∈ Finset.range 8, (bits.getD (8 * i + k) false).toNat * 2 ^ (7 - k) := by
  have hi : 8 * i + 8 ≤ bits.length := by rw [length_packBytes] at h; omega
  have hlt := natOf_lt ((bits.drop (8 * i)).take 8)
  rw [take_drop_eq_map_range hi] at hlt
  simp only [packBytes, List.getElem_map, List.getElem_range, BitVec.toNat_ofNat]
  rw [take_drop_eq_map_range hi, Nat.mod_eq_of_lt (by simpa using hlt), natOf_map_range]

end Sys2Proof

open Sys2Proof Sys2Proof.Machine

/-- Settles O8: the bits read are the sum of R66, and too few of them at the end of the input are an abort. -/
theorem inBitsReadsMostSignificantFirst : Obligations.InBitsReadsMostSignificantFirst := by
  intro n s
  refine ⟨fun h => ⟨_, inBits_eq_some.2 ⟨h, rfl, rfl⟩, natOf_map_range n _⟩, fun h => ⟨inBits_eq_none.2 h, ?_⟩⟩
  intro hend
  refine ⟨s.abort .malformed, ?_, rfl, rfl, rfl⟩
  rw [onShort_eq, if_pos hend]

/-- Settles O9: bit by bit along the bytes, and by induction on the number of bytes. -/
theorem bytesAreReadMostSignificantFirst : Obligations.BytesAreReadMostSignificantFirst := by
  refine ⟨fun s k h => ?_, packBytes_bytesBits, fun bits h => ?_⟩
  · have hbit : s.inBit k = s.inBytes[k / 8].getLsbD (7 - k % 8) := by
      rw [State.inBit, List.getD_eq_getElem _ _ h]
    exact ⟨hbit, by rw [hbit, getElem?_bytesBits h]⟩
  · exact bytesBits_packBytes (Nat.mul_div_cancel' (Nat.dvd_of_mod_eq_zero h)).symm

/-- Settles O10: the preconditions of R69 let the field through, and its bits are those of `bitsOf`. -/
theorem outBitsAppendsMostSignificantFirst : Obligations.OutBitsAppendsMostSignificantFirst := by
  intro n v s h1 h32 hv hopen
  rw [outBits_open h1 h32 hv hopen, bitsOf_eq_map_range]
  rfl

/-- Settles O13: each packed byte is the value of its eight bits. -/
theorem outBytesPackMostSignificantFirst : Obligations.OutBytesPackMostSignificantFirst :=
  fun s => ⟨length_packBytes s.obits, fun _ h => toNat_getElem_packBytes h⟩

/-- Settles O12: what is appended is `padToByte`'s, and at a whole byte that is nothing. -/
theorem outCloseFillsTheLastByte : Obligations.OutCloseFillsTheLastByte := by
  intro s
  refine ⟨rfl, outClose_whole s, fun hwhole => ?_⟩
  rw [outClose_obits, hwhole]
  exact List.append_nil _

end

section
/-! What the host supplies arrives while a run's input is open (44_control.md R220; log 3). -/

open Sys2Proof Sys2Proof.Machine

/-- Settles O24: the turn is taken off the host's list; then the input takes what the turn brings, or drops it. -/
theorem inputArrivesWhileARunIsOpen : Obligations.InputArrivesWhileARunIsOpen := by
  intro caps s rest
  refine ⟨fun b h => ?_, fun h => ?_⟩
  · rw [stepWith_of_host_cons caps h, hostTurn, supply]
    split
    · rfl
    · rfl
  · rw [stepWith_of_host_cons caps h, hostTurn, markEnd]
    split
    · rfl
    · rfl

end

section
/-! On an engine's turn the streams only move forward (10_state.md R26, 20_memory.md R68): one lemma per row of the phase
tables, over the rules for what a result answers. -/

namespace Sys2Proof.Machine

/-- `t` has read on from where `s` was, and, unless an error was taken, has only appended to its output. -/
structure MovesForward (s t : State) : Prop where
  ipos_le : s.ipos ≤ t.ipos
  obits_prefix : t.status ≠ .error → s.obits <+: t.obits

section
variable {s t : State}

/-! ## The ways a row ends -/

theorem forward_next (hi : s.ipos ≤ t.ipos) (ho : s.obits <+: t.obits) : Answers (MovesForward s) (.next t) :=
  answers_next ⟨hi, fun _ => ho⟩

/-- A row that touches neither stream. -/
theorem forward_same (hi : t.ipos = s.ipos) (ho : t.obits = s.obits) : Answers (MovesForward s) (.next t) :=
  forward_next hi.ge (ho ▸ List.prefix_refl _)

/-- An error keeps `ipos`, and leaves the output unspecified (60_exceptions.md R250, R252). -/
theorem forward_raise (e : ErrCode) (hi : s.ipos ≤ t.ipos) : Answers (MovesForward s) (raise e t) :=
  answers_next ⟨hi, fun h => absurd rfl h⟩

/-- Completion appends the fill of the last byte (20_memory.md R70). -/
theorem forward_complete (hi : s.ipos ≤ t.ipos) (ho : s.obits <+: t.obits) : Answers (MovesForward s) (complete t) :=
  forward_next hi (ho.trans (List.prefix_append _ _))

theorem forward_onShort (s : State) : Answers (MovesForward s) (onShort s) := by
  rw [onShort]
  split
  · exact forward_raise _ le_rfl
  · exact forward_same rfl rfl

/-! ## The tokens -/

/-- 41_rle_decoder.md R143 to R146: a count appends its copies. -/
theorem forward_runToken_count {bits : List Bool} (hl : bits.length = 8) (hi : s.ipos ≤ t.ipos)
    (ho : s.obits = t.obits) : Answers (MovesForward s) (runToken .count bits t) := by
  rw [runToken_of (decode_count hl)]
  obtain h | ⟨n, hn, h⟩ := decodeCount_cases (show natOf bits < 256 by simpa [hl] using natOf_lt bits)
  · rw [h]
    intro u hu
    obtain ⟨-, rfl⟩ := outRep_eq_next.1 hu
    exact ⟨hi, fun _ => ho ▸ List.prefix_append _ _⟩
  · rw [h, exec, execRleRun, if_neg hn]
    intro u hu
    obtain ⟨v, hv, hu⟩ := andThen_eq_next.1 hu
    obtain ⟨-, rfl⟩ := outRep_eq_next.1 hv
    cases hu
    exact ⟨hi, fun _ => ho ▸ List.prefix_append _ _⟩

theorem forward_runToken_header (bits : List Bool) (s : State) :
    Answers (MovesForward s) (runToken .header bits s) := by
  refine answers_runToken fun i r hd => ?_
  obtain ⟨rem, u, rfl⟩ := exists_dictHdr_of_decode hd
  exact forward_same (by simp) (by simp)

theorem forward_runToken_entry (bits : List Bool) (s : State) :
    Answers (MovesForward s) (runToken .entry bits s) := by
  refine answers_runToken fun i r hd => ?_
  obtain ⟨b, rfl⟩ := exists_dictEnt_of_decode hd
  exact answers_withEntry (forward_same rfl rfl)

theorem forward_codeToken (c : Byte) (s : State) : Answers (MovesForward s) (codeToken c s) := by
  rw [codeToken]
  split
  · rw [validateCode]
    split
    · exact forward_raise _ le_rfl
    · exact forward_same rfl rfl
  · exact answers_outBits_andThen fun _ => forward_next le_rfl (List.prefix_append _ _)

theorem forward_runToken_code (cw : Nat) (bits : List Bool) (s : State) :
    Answers (MovesForward s) (runToken (.code cw) bits s) := by
  refine answers_runToken fun i r hd => ?_
  obtain ⟨c, hc⟩ := exec_eq_codeToken_of_decode s hd
  rw [hc]
  exact forward_codeToken c s

theorem forward_runToken_padding (pad : Nat) (bits : List Bool) (s : State) :
    Answers (MovesForward s) (runToken (.padding pad) bits s) := by
  refine answers_runToken fun i r hd => ?_
  obtain ⟨p, rfl⟩ := exists_dictPad_of_decode hd
  exact forward_complete le_rfl (List.prefix_refl _)

/-! ## The run-length engines -/

theorem forward_rChange (hi : s.ipos ≤ t.ipos) (ho : s.obits = t.obits) : Answers (MovesForward s) (rChange t) :=
  answers_outBits_andThen fun _ => forward_next hi (ho ▸ List.prefix_append _ _)

theorem forward_rSame (hi : s.ipos ≤ t.ipos) (ho : s.obits = t.obits) : Answers (MovesForward s) (rSame t) := by
  rw [rSame]
  split
  · exact answers_outBits_andThen fun _ => forward_next hi (ho ▸ List.prefix_append _ _)
  · exact forward_next hi (ho ▸ List.prefix_refl _)

theorem forward_rScan (s : State) : Answers (MovesForward s) (rScan s) := by
  rw [rScan]
  split
  · exact forward_same rfl rfl
  · split
    · exact forward_onShort s
    · next hread =>
      obtain ⟨-, -, rfl⟩ := inBits_eq_some.1 hread
      split
      · exact forward_rChange (Nat.le_add_right _ _) rfl
      · exact forward_rSame (Nat.le_add_right _ _) rfl

theorem forward_rFlush (s : State) : Answers (MovesForward s) (rFlush s) := by
  rw [rFlush]
  split
  · exact answers_outBits_andThen fun _ => forward_complete le_rfl (List.prefix_append _ _)
  · exact forward_complete le_rfl (List.prefix_refl _)

theorem forward_xRead (s : State) : Answers (MovesForward s) (xRead s) := by
  rw [xRead]
  split
  · exact forward_complete le_rfl (List.prefix_refl _)
  · split
    · exact forward_onShort s
    · next hread =>
      obtain ⟨-, rfl, rfl⟩ := inBits_eq_some.1 hread
      exact forward_runToken_count (by simp [Config.LENGTH]) (Nat.le_add_right _ _) rfl

/-! ## The dictionary encoder -/

theorem forward_dLoad (caps : Config.Caps) (s : State) : Answers (MovesForward s) (dLoad caps s) := by
  rw [dLoad]
  split
  · exact forward_same rfl rfl
  · split
    · exact forward_onShort s
    · next hread =>
      obtain ⟨-, -, rfl⟩ := inBits_eq_some.1 hread
      split
      · exact forward_raise _ (Nat.le_add_right _ _)
      · rw [dTrack]
        split
        · exact answers_withEntry (forward_next (Nat.le_add_right _ _) (List.prefix_refl _))
        · exact forward_next (Nat.le_add_right _ _) (List.prefix_refl _)

theorem forward_dHdr (s : State) : Answers (MovesForward s) (dHdr s) :=
  answers_outBits_andThen fun _ => answers_outBits_andThen fun _ =>
    forward_next le_rfl ((List.prefix_append _ _).trans (List.prefix_append _ _))

theorem forward_dDict (s : State) : Answers (MovesForward s) (dDict s) := by
  rw [dDict]
  split
  · exact answers_withEntry (answers_outBits_andThen fun _ => forward_next le_rfl (List.prefix_append _ _))
  · exact forward_same rfl rfl

theorem forward_dCode (s : State) : Answers (MovesForward s) (dCode s) := by
  rw [dCode]
  split
  · exact answers_outBits_andThen fun _ => forward_next le_rfl (List.prefix_append _ _)
  · exact forward_same rfl rfl

/-! ## The dictionary decoder -/

theorem forward_eLoad (caps : Config.Caps) (s : State) : Answers (MovesForward s) (eLoad caps s) := by
  rw [eLoad]
  split
  · exact forward_same rfl rfl
  · split
    · exact forward_onShort s
    · next hread =>
      obtain ⟨-, -, rfl⟩ := inBits_eq_some.1 hread
      split
      · exact forward_raise _ le_rfl
      · exact forward_next (Nat.le_add_right _ _) (List.prefix_refl _)

theorem forward_eHdr (s : State) : Answers (MovesForward s) (eHdr s) := by
  rw [eHdr]
  split
  · exact forward_raise _ le_rfl
  · exact forward_runToken_header _ s

theorem forward_eDict (s : State) : Answers (MovesForward s) (eDict s) := by
  rw [eDict]
  split
  · exact forward_raise _ le_rfl
  · split
    · exact forward_runToken_entry _ s
    · exact forward_same rfl rfl

theorem forward_eCalc (s : State) : Answers (MovesForward s) (eCalc s) := by
  dsimp only [eCalc]
  split
  · exact forward_raise _ le_rfl
  · split
    · exact forward_raise _ le_rfl
    · split
      · exact forward_raise _ le_rfl
      · exact forward_same (by simp) (by simp)

theorem forward_eCode (s : State) : Answers (MovesForward s) (eCode s) := by
  rw [eCode]
  split
  · exact forward_runToken_code _ _ s
  · exact forward_same rfl rfl

theorem forward_eEmit (s : State) : Answers (MovesForward s) (eEmit s) := by
  rw [eEmit]
  split
  · exact forward_runToken_code _ _ s
  · exact forward_runToken_padding _ _ s

end

/-! ## The engines' step -/

theorem forward_engineStep (caps : Config.Caps) (s : State) : Answers (MovesForward s) (engineStep caps s) := by
  rw [engineStep]
  split
  · exact forward_same rfl rfl
  · cases s.phase with
    | halt => exact forward_same rfl rfl
    | rScan => exact forward_rScan s
    | rFlush => exact forward_rFlush s
    | xRead => exact forward_xRead s
    | dLoad => exact forward_dLoad caps s
    | dCalc => exact forward_same rfl rfl
    | dHdr => exact forward_dHdr s
    | dDict => exact forward_dDict s
    | dCode => exact forward_dCode s
    | dClose => exact forward_complete le_rfl (List.prefix_refl _)
    | eLoad => exact forward_eLoad caps s
    | eHdr => exact forward_eHdr s
    | eDict => exact forward_eDict s
    | eCalc => exact forward_eCalc s
    | eCode => exact forward_eCode s
    | eEmit => exact forward_eEmit s

end Sys2Proof.Machine

open Sys2Proof Sys2Proof.Machine

/-- Settles O51: every row of the phase tables moves the streams forward. -/
theorem streamsOnlyMoveForward : Obligations.StreamsOnlyMoveForward := by
  intro caps s t hstep
  obtain ⟨hipos, hobits⟩ := forward_engineStep caps s t hstep
  exact ⟨hipos, hobits⟩

end

section
/-! The encodings (30_encoding.md): the fields of the command byte (R91, R92), the code width as the least sufficient
one (R100), and the arithmetic of a dictionary stream's last byte (R98, R103) and of the stored `unique` (R104). -/

namespace Sys2Proof

/-! ## The command byte (R91, R92) -/

/-- A command byte is read whole, and the bits after it are left. -/
theorem decode_command_byteBits_append (c : Byte) (rest : List Bool) :
    decode .command (byteBits c ++ rest) = (decodeCommand c).map fun i => (i, rest) := by
  have hc : BitVec.ofNat 8 (c.toNat % 2 ^ 8) = c := by
    rw [Nat.mod_eq_of_lt c.isLt, BitVec.ofNat_toNat, BitVec.setWidth_eq]
  rw [decode, byteBits, takeField_bitsOf, Option.bind_some, hc]

/-- A byte with `RSV` not 0 is no command. -/
theorem decodeCommand_of_rsv_ne_zero {c : Byte} (h : c.extractLsb' 2 6 ≠ 0#6) : decodeCommand c = none := if_neg h

/-- With `RSV` 0, `SCHEME` and then `DIR` choose the command. -/
theorem decodeCommand_of_rsv_eq_zero {c : Byte} (h : c.extractLsb' 2 6 = 0#6) :
    decodeCommand c = some
      (if c.getLsbD 1 = false then (if c.getLsbD 0 = false then Instr.dcomp else Instr.dexp)
        else (if c.getLsbD 0 = false then Instr.rcomp else Instr.rexp)) := by
  rw [decodeCommand, if_pos h]
  cases c.getLsbD 1 <;> cases c.getLsbD 0 <;> rfl

end Sys2Proof

namespace Sys2Proof.Machine

/-! ## The code width (R100) -/

/-- The widths that suffice are those from `clog2 u` up. -/
theorem clog2_le_iff {u w : Nat} : clog2 u ≤ w ↔ u ≤ 2 ^ w :=
  ⟨fun h => (le_two_pow_clog2 u).trans (Nat.pow_le_pow_right (by omega) h), clog2_le⟩

theorem codeWidth_of_le_two {u : Nat} (h : u ≤ 2) : codeWidth u = 1 := Nat.max_eq_left (clog2_le h)

/-- Above `2^w`, up to twice that, a code has `w + 1` bits. -/
theorem codeWidth_eq_succ {u w : Nat} (hlo : 2 ^ w < u) (hhi : u ≤ 2 ^ (w + 1)) : codeWidth u = w + 1 := by
  have hle : clog2 u ≤ w + 1 := clog2_le hhi
  have hgt : ¬ clog2 u ≤ w := fun h => Nat.not_le_of_lt hlo (clog2_le_iff.1 h)
  rw [codeWidth]
  omega

/-! ## The end of a dictionary stream (R98, R103) -/

/-- The header's 11 bits and the entries are whole bytes and 3 bits more. -/
theorem codeAddr_mod_eight (u cw length : Nat) : codeAddr u cw length % 8 = remainder cw length := by
  rw [codeAddr, remainder]
  omega

/-- The padding of a bit count brings it to a whole byte. -/
theorem add_padOf_mod_eight (k : Nat) : (k + padOf (k % 8)) % 8 = 0 := by
  rw [padOf]
  omega

/-! ## The stored form of `unique` (R104) -/

/-- Below 256 the stored form is `unique` itself. -/
theorem storedUnique_of_lt {u : Nat} (h : u < 256) : storedUnique u = u := Nat.mod_eq_of_lt h

/-- A stored form that is not 0 stands for itself, whatever the stream's length. -/
theorem toNat_resolveUnique_of_ne_zero {U : BitVec 8} (h : U ≠ 0#8) (B : Nat) :
    (resolveUnique U B).toNat = U.toNat := by
  rw [resolveUnique, if_pos h]
  exact BitVec.toNat_setWidth_of_le (by omega)

theorem resolveUnique_zero_two : resolveUnique 0#8 2 = 0#9 := rfl

theorem resolveUnique_zero_of_ne_two {B : Nat} (h : B ≠ 2) : resolveUnique 0#8 B = 256#9 := by
  rw [resolveUnique, if_neg (not_not_intro rfl), if_neg h]

end Sys2Proof.Machine

open Sys2Proof Sys2Proof.Machine

/-- Settles O5: `clog2` is the least width, and each row of R100's table is the range of one width. -/
theorem codeWidthIsTheTables : Obligations.CodeWidthIsTheTables := by
  refine ⟨fun u => ⟨le_two_pow_clog2 u, fun _ => clog2_le⟩, fun _ => rfl, fun u hu => ?_⟩
  split_ifs
  next h => exact codeWidth_of_le_two h
  all_goals exact codeWidth_eq_succ (by omega) (by omega)

/-- Settles O1: by `RSV` first, then by the two bits of `SCHEME` and `DIR`. -/
theorem commandByteSelectsTheOperation : Obligations.CommandByteSelectsTheOperation := by
  intro c rest
  rw [decode_command_byteBits_append]
  by_cases hrsv : c.extractLsb' 2 6 = 0#6
  · rw [decodeCommand_of_rsv_eq_zero hrsv, if_neg (not_not_intro hrsv), Option.map_some]
    split_ifs <;> rfl
  · rw [decodeCommand_of_rsv_ne_zero hrsv, if_pos hrsv, Option.map_none]

/-- Settles O6: the remainder is the stream's length modulo 8, so the padding is that of the length. -/
theorem remainderAndPaddingFillTheLastByte : Obligations.RemainderAndPaddingFillTheLastByte := by
  intro u length
  have hrem := codeAddr_mod_eight u (codeWidth u) length
  exact ⟨hrem, hrem ▸ add_padOf_mod_eight _, padOf_lt _⟩

/-- Settles O7: a stored 0 is 0 or 256 by the stream's length; every other stored form is `unique` itself. -/
theorem storedUniqueResolves : Obligations.StoredUniqueResolves := by
  intro u B hu hB
  obtain rfl | rfl | ⟨hpos, hlt⟩ : u = 0 ∨ u = 256 ∨ 0 < u ∧ u < 256 := by omega
  case inl =>
    obtain rfl : B = 2 := hB.1 rfl
    exact congrArg BitVec.toNat resolveUnique_zero_two
  case inr.inl =>
    have hne : B ≠ 2 := fun h => absurd (hB.2 h) (by decide)
    exact congrArg BitVec.toNat (resolveUnique_zero_of_ne_two hne)
  case inr.inr =>
    have hval : (BitVec.ofNat 8 u).toNat = u := Nat.mod_eq_of_lt hlt
    have hne : BitVec.ofNat 8 u ≠ 0#8 := fun h => by
      have := congrArg BitVec.toNat h
      rw [hval] at this
      exact absurd this hpos.ne'
    rw [storedUnique_of_lt hlt, toNat_resolveUnique_of_ne_zero hne, hval]

end

section
/-! The run-length encoder by its phase table (40_rle_encoder.md R121 to R129): what each row answers, once per branch. -/

namespace Sys2Proof.Machine

section
variable {s : State}

/-! ## The rows of the phase table -/

theorem engineStep_rScan (caps : Config.Caps) (hb : s.status = .busy) (hp : s.phase = .rScan) :
    engineStep caps s = rScan s := by
  rw [engineStep, if_neg (not_not.2 hb), hp]

theorem engineStep_rFlush (caps : Config.Caps) (hb : s.status = .busy) (hp : s.phase = .rFlush) :
    engineStep caps s = rFlush s := by
  rw [engineStep, if_neg (not_not.2 hb), hp]

/-! ## The two ways a bit is taken (R123 to R125) -/

theorem rChange_open (hopen : s.closed = false) :
    rChange s = .next ((s.emit (bitsOf 8 s.valueCount.toNat)).flip.setValueCount 1#7) := by
  have hv : s.valueCount.toNat < 2 ^ 8 := s.valueCount.isLt.trans (by decide)
  rw [rChange, show Config.LENGTH = 8 from rfl, outBits_open (by decide) (by decide) hv hopen, andThen_next]

theorem rSame_escape (hopen : s.closed = false) (hc : s.valueCount.toNat + 1 = 127) :
    rSame s = .next ((s.emit (bitsOf 8 0)).setValueCount 0#7) := by
  have hmax : (s.valueCount + 1#7).toNat = Config.MAX := by
    rw [BitVec.toNat_add, BitVec.toNat_ofNat]
    exact congrArg (· % 2 ^ 7) hc
  rw [rSame, if_pos hmax, show Config.LENGTH = 8 from rfl, outBits_open (by decide) (by decide) (by decide) hopen,
    andThen_next]

theorem rSame_count (hc : s.valueCount.toNat + 1 < 127) :
    rSame s = .next (s.setValueCount (BitVec.ofNat 7 (s.valueCount.toNat + 1))) := by
  have hadd : s.valueCount + 1#7 = BitVec.ofNat 7 (s.valueCount.toNat + 1) := by
    rw [BitVec.ofNat_add, BitVec.ofNat_toNat, BitVec.setWidth_eq]
  have hmax : (s.valueCount + 1#7).toNat ≠ Config.MAX := by
    rw [hadd, BitVec.toNat_ofNat, Nat.mod_eq_of_lt (by omega)]
    exact hc.ne
  rw [rSame, if_neg hmax, hadd]

/-! ## `R_SCAN` (R122 to R125) -/

theorem rScan_end (hend : s.inEnd = true) (hi : s.ipos = 8 * s.inBytes.length) :
    rScan s = .next (s.setPhase .rFlush) := by
  rw [rScan, if_pos (inEmpty_iff.2 ⟨hend, hi⟩)]

/-- With all supplied bits read and the input not ended the engine waits (44_control.md R224). -/
theorem rScan_wait (hend : s.inEnd = false) (hi : s.ipos = 8 * s.inBytes.length) : rScan s = .next s := by
  have hread : inBits 1 s = none := inBits_eq_none.2 (by omega)
  have hempty : ¬ s.inEmpty = true := fun h => Bool.false_ne_true (hend ▸ (inEmpty_iff.1 h).1)
  rw [rScan, if_neg hempty, hread]
  exact (onShort_eq s).trans (by rw [hend]; rfl)

/-- One bit is its own value (20_memory.md R66). -/
theorem natOf_singleton_beq_one (b : Bool) : (natOf [b] == 1) = b := by cases b <;> rfl

/-- A bit that is there is read and compared with `lastValue`. -/
theorem rScan_bit (h : s.ipos < 8 * s.inBytes.length) :
    rScan s = if s.inBit s.ipos ≠ s.lastValue then rChange (s.advance 1) else rSame (s.advance 1) := by
  have hread : inBits 1 s = some ([s.inBit s.ipos], s.advance 1) := inBits_eq_some.2 ⟨h, rfl, rfl⟩
  rw [rScan, inEmpty_of_lt h, if_neg Bool.false_ne_true, hread]
  simp only [natOf_singleton_beq_one, bne_iff_ne, advance_lastValue]

theorem rScan_change (hopen : s.closed = false) (h : s.ipos < 8 * s.inBytes.length)
    (hbit : s.inBit s.ipos ≠ s.lastValue) :
    rScan s = .next
      { s with
        ipos := s.ipos + 1, obits := s.obits ++ bitsOf 8 s.valueCount.toNat, lastValue := s.inBit s.ipos,
        valueCount := 1#7 } := by
  rw [rScan_bit h, if_pos hbit, rChange_open (s := s.advance 1) hopen, Bool.eq_not_of_ne hbit]
  rfl

theorem rScan_same (hopen : s.closed = false) (hc : s.valueCount.toNat < 127) (h : s.ipos < 8 * s.inBytes.length)
    (hbit : s.inBit s.ipos = s.lastValue) :
    rScan s = .next
      (if s.valueCount.toNat + 1 = 127 then
        { s with ipos := s.ipos + 1, obits := s.obits ++ bitsOf 8 0, valueCount := 0#7 }
      else { s with ipos := s.ipos + 1, valueCount := BitVec.ofNat 7 (s.valueCount.toNat + 1) }) := by
  rw [rScan_bit h, if_neg (not_not.2 hbit)]
  split
  next hmax => exact rSame_escape (s := s.advance 1) hopen hmax
  next hmax => exact rSame_count (s := s.advance 1) (show s.valueCount.toNat + 1 < 127 by omega)

/-! ## `R_FLUSH` (R126, R127) -/

theorem rFlush_open (hopen : s.closed = false) :
    rFlush s = .next
      { s with
        obits := padToByte (s.obits ++ if s.valueCount = 0#7 then [] else bitsOf 8 s.valueCount.toNat),
        closed := true, phase := .halt, status := .done } := by
  have hv : s.valueCount.toNat < 2 ^ 8 := s.valueCount.isLt.trans (by decide)
  by_cases hz : s.valueCount = 0#7
  · rw [rFlush, if_neg (not_not.2 hz), if_pos hz, List.append_nil]
    rfl
  · rw [rFlush, if_pos hz, if_neg hz, show Config.LENGTH = 8 from rfl,
      outBits_open (by decide) (by decide) hv hopen, andThen_next]
    rfl

end

/-- Whole bytes need no padding (20_memory.md R70). -/
theorem padToByte_of_whole {bits : List Bool} (h : bits.length % 8 = 0) : padToByte bits = bits := by
  rw [padToByte, h]
  exact List.append_nil bits

/-! ## What one step writes (R129) -/

/-- `t` has counted at most 126 bits, and its output is that of `s` or one count of at most 126 more. -/
def WritesCountBelowMax (s t : State) : Prop :=
  t.valueCount.toNat ≤ 126 ∧ (t.obits = s.obits ∨ ∃ v ≤ 126, t.obits = s.obits ++ bitsOf 8 v)

section
variable {s : State}

theorem rScan_writesCountBelowMax (hopen : s.closed = false) (hc : s.valueCount.toNat < 127)
    (hi : s.ipos ≤ 8 * s.inBytes.length) : Answers (WritesCountBelowMax s) (rScan s) := by
  have hle : s.valueCount.toNat ≤ 126 := by omega
  rcases hi.lt_or_eq with hlt | heq
  · by_cases hbit : s.inBit s.ipos = s.lastValue
    · rw [rScan_same hopen hc hlt hbit]
      split
      · exact answers_next ⟨Nat.zero_le _, .inr ⟨0, by decide, rfl⟩⟩
      · next hmax =>
        have hnew : (BitVec.ofNat 7 (s.valueCount.toNat + 1)).toNat ≤ 126 := by
          rw [BitVec.toNat_ofNat]; omega
        exact answers_next ⟨hnew, .inl rfl⟩
    · rw [rScan_change hopen hlt hbit]
      exact answers_next ⟨(by decide : (1#7).toNat ≤ 126), .inr ⟨_, hle, rfl⟩⟩
  · cases hend : s.inEnd with
    | true => rw [rScan_end hend heq]; exact answers_next ⟨hle, .inl rfl⟩
    | false => rw [rScan_wait hend heq]; exact answers_next ⟨hle, .inl rfl⟩

/-- The flush writes a whole byte behind whole bytes, so closing the output adds nothing. -/
theorem rFlush_writesCountBelowMax (hopen : s.closed = false) (hc : s.valueCount.toNat < 127)
    (hwhole : s.obits.length % 8 = 0) : Answers (WritesCountBelowMax s) (rFlush s) := by
  have hle : s.valueCount.toNat ≤ 126 := by omega
  rw [rFlush_open hopen]
  split
  · exact answers_next ⟨hle, .inl (by rw [List.append_nil, padToByte_of_whole hwhole])⟩
  · exact answers_next ⟨hle, .inr ⟨_, hle, padToByte_of_whole (by simp [hwhole])⟩⟩

end

/-- The phases of `RCOMP` (10_state.md R23). -/
theorem phase_of_engine_rcomp {p : Phase} (h : p.engine = some 0x02#8) : p = .rScan ∨ p = .rFlush := by
  cases p <;> simp [Phase.engine] at h ⊢

end Sys2Proof.Machine

open Sys2Proof Sys2Proof.Machine

/-- Settles O17: with no engine running the START is accepted. -/
theorem rcompStartsTheRunLengthEncoder : Obligations.RcompStartsTheRunLengthEncoder := by
  intro s hs
  rw [exec, execRcomp, startEngine_accepted hs]
  rfl

/-- Settles O29: the end test, then the two ways of `rScan_bit`. -/
theorem rScanTakesOneBit : Obligations.RScanTakesOneBit := by
  intro caps s hb hp hopen hc
  rw [engineStep_rScan caps hb hp]
  exact ⟨rScan_end, rScan_change hopen, rScan_same hopen hc⟩

/-- Settles O30: the count is written unless it is 0, and the output is closed behind it. -/
theorem rFlushWritesTheFinalCount : Obligations.RFlushWritesTheFinalCount := by
  intro caps s hb hp hopen
  rw [engineStep_rFlush caps hb hp, rFlush_open hopen]

/-- Settles O31: from the invariant of each of the two phases. -/
theorem rcompWritesOnlyCountsBelowMax : Obligations.RcompWritesOnlyCountsBelowMax := by
  intro caps s t hinv hb hcmd hstep
  obtain ⟨-, hstreams, hcontrol, hphase⟩ := hinv
  have hopen := hcontrol.busy_open hb
  rcases phase_of_engine_rcomp (hcmd ▸ hcontrol.busy_engine hb) with hp | hp
  all_goals
    rw [PhaseOk, hp] at hphase
    obtain ⟨hcount, hwhole⟩ := hphase
  · rw [engineStep_rScan caps hb hp] at hstep
    exact rScan_writesCountBelowMax hopen hcount hstreams.ipos_le t hstep
  · rw [engineStep_rFlush caps hb hp] at hstep
    exact rFlush_writesCountBelowMax hopen hcount hwhole t hstep

end

section
/-! One run of an engine in any schedule (44_control.md R220, R224; log 2). `RunRule` is what an engine shows of its own
invariant, `RunRule.ends_of_isSchedule` the induction over the host's turns and the engine's remaining steps. -/

namespace Sys2Proof.Machine

/-! ## Reaching a state -/

theorem reaches_refl (caps : Config.Caps) (s : State) : Reaches caps s s := ⟨0, rfl⟩

theorem reaches_of_stepWith {caps : Config.Caps} {s t u : State} (h : stepWith caps s = .next t)
    (ht : Reaches caps t u) : Reaches caps s u := by
  obtain ⟨k, hk⟩ := ht
  exact ⟨k + 1, by rw [runWith, h, andThen_next, hk]⟩

/-- From `s` the block reaches a state without a turn of the host left in which `P` holds. -/
def Ends (caps : Config.Caps) (P : State → Prop) (s : State) : Prop :=
  ∃ t, Reaches caps s t ∧ t.host = [] ∧ P t

theorem ends_of_stepWith {caps : Config.Caps} {P : State → Prop} {s t : State} (h : stepWith caps s = .next t)
    (ht : Ends caps P t) : Ends caps P s := by
  obtain ⟨u, hu, hhost, hP⟩ := ht
  exact ⟨u, reaches_of_stepWith h hu, hhost, hP⟩

/-- An engine that does not run takes no step (44_control.md R224). -/
theorem engineStep_of_not_busy {s : State} (caps : Config.Caps) (h : s.status ≠ .busy) :
    engineStep caps s = .next s := if_pos h

/-! ## The input on its way in -/

/-- The input of a run as far as the host has given it: some bytes and the mark are to come, or all has been given. -/
inductive Feeding (input : List Byte) (s : State) : Prop
  | coming (rest : List Byte) (hopen : s.inEnd = false) (hinput : s.inBytes ++ rest = input)
      (hturns : s.host.filter HostTurn.acts = rest.map .supply ++ [.endInput])
  | marked (hend : s.inEnd = true) (hinput : s.inBytes = input) (hturns : s.host.filter HostTurn.acts = [])

/-- A step of the engine that leaves the input stream and the host's turns. -/
structure SameFeed (s t : State) : Prop where
  inBytes_eq : t.inBytes = s.inBytes
  inEnd_eq : t.inEnd = s.inEnd
  host_eq : t.host = s.host

theorem SameFeed.refl (s : State) : SameFeed s s := ⟨rfl, rfl, rfl⟩

theorem feeding_of_sameFeed {input : List Byte} {s t : State} (h : SameFeed s t) (hf : Feeding input s) :
    Feeding input t := by
  obtain ⟨hbytes, hend, hhost⟩ := h
  cases hf with
  | coming rest hopen hinput hturns =>
    exact .coming rest (hend ▸ hopen) (hbytes ▸ hinput) (hhost ▸ hturns)
  | marked hmark hinput hturns => exact .marked (hend ▸ hmark) (hbytes ▸ hinput) (hhost ▸ hturns)

theorem idle_or_read_of_not_acts {turn : HostTurn} (h : turn.acts = false) :
    turn = .idle ∨ ∃ r, turn = .read r := by
  cases turn <;> simp [HostTurn.acts] at h ⊢

/-- An idle turn or a read changes nothing of what the host still has to give. -/
theorem feeding_setHost {input : List Byte} {s : State} {turn : HostTurn} {rest : List HostTurn}
    (hhost : s.host = turn :: rest) (hacts : turn.acts = false) (hf : Feeding input s) :
    Feeding input (s.setHost rest) := by
  have hfilter : s.host.filter HostTurn.acts = rest.filter HostTurn.acts := by
    rw [hhost, List.filter_cons_of_neg (by rw [hacts]; exact Bool.false_ne_true)]
  cases hf with
  | coming more hopen hinput hturns => exact .coming more hopen hinput (hfilter ▸ hturns)
  | marked hend hinput hturns => exact .marked hend hinput (hfilter ▸ hturns)

/-! ## The rule of one engine's run -/

/-- What an engine shows of its invariant `I` for a run on `input`: the host's turns keep it, it holds of a running engine
while the input is open, and a step keeps it and, once the input has ended, leaves less to do. -/
structure RunRule (caps : Config.Caps) (input : List Byte) (I : State → Prop) (left : State → Nat) : Prop where
  setHost : ∀ s turns, I s → I (s.setHost turns)
  addInput : ∀ s b, I s → s.inEnd = false → I (s.addInput b)
  endInput : ∀ s, I s → s.inEnd = false → I s.endInput
  busy : ∀ s, I s → s.inEnd = false → s.status = .busy
  step : ∀ s, I s → s.status = .busy → s.inBytes <+: input → (s.inEnd = true → s.inBytes = input) →
    ∃ t, engineStep caps s = .next t ∧ I t ∧ SameFeed s t ∧ (s.inEnd = true → left t < left s)

section
variable {caps : Config.Caps} {input : List Byte} {I : State → Prop} {left : State → Nat}

/-- An engine's step, running or not, keeps the invariant and what the host has still to give. -/
theorem RunRule.exists_engineStep (R : RunRule caps input I left) {s : State} (hI : I s) (hf : Feeding input s) :
    ∃ t, engineStep caps s = .next t ∧ I t ∧ Feeding input t ∧ SameFeed s t ∧
      (s.status = .busy → s.inEnd = true → left t < left s) := by
  by_cases hb : s.status = .busy
  · obtain ⟨hprefix, hall⟩ : s.inBytes <+: input ∧ (s.inEnd = true → s.inBytes = input) := by
      cases hf with
      | coming rest hopen hinput _ => exact ⟨⟨rest, hinput⟩, fun h => absurd (hopen ▸ h) Bool.false_ne_true⟩
      | marked _ hinput _ => exact ⟨hinput ▸ List.prefix_refl _, fun _ => hinput⟩
    obtain ⟨t, hstep, hIt, hsame, hleft⟩ := R.step s hI hb hprefix hall
    exact ⟨t, hstep, hIt, feeding_of_sameFeed hsame hf, hsame, fun _ => hleft⟩
  · exact ⟨s, engineStep_of_not_busy caps hb, hI, hf, SameFeed.refl s, fun h => absurd h hb⟩

/-- With no turn of the host left the engine runs to its end. -/
theorem RunRule.ends_of_host_nil (R : RunRule caps input I left) {s : State} (hhost : s.host = []) (hI : I s)
    (hf : Feeding input s) : Ends caps (fun t => I t ∧ t.status ≠ .busy) s := by
  by_cases hb : s.status = .busy
  · have hend : s.inEnd = true := by
      cases hf with
      | coming rest _ _ hturns => simp [hhost] at hturns
      | marked hend _ _ => exact hend
    obtain ⟨t, hstep, hIt, hft, hsame, hleft⟩ := R.exists_engineStep hI hf
    have _hdec : left t < left s := hleft hb hend
    exact ends_of_stepWith ((stepWith_of_host_nil caps hhost).trans hstep)
      (R.ends_of_host_nil (hsame.host_eq.trans hhost) hIt hft)
  · exact ⟨s, reaches_refl caps s, hhost, hI, hb⟩
termination_by left s

/-- One turn of the host is taken off its list, and the invariant goes on. -/
theorem RunRule.exists_stepWith (R : RunRule caps input I left) {s : State} {turn : HostTurn} {rest : List HostTurn}
    (hhost : s.host = turn :: rest) (hI : I s) (hf : Feeding input s) :
    ∃ t, stepWith caps s = .next t ∧ t.host = rest ∧ I t ∧ Feeding input t := by
  have hstep := stepWith_of_host_cons caps hhost
  have hI' : I (s.setHost rest) := R.setHost s rest hI
  by_cases hacts : turn.acts = false
  · have hf' := feeding_setHost hhost hacts hf
    obtain rfl | ⟨r, rfl⟩ := idle_or_read_of_not_acts hacts
    · obtain ⟨t, ht, hIt, hft, hsame, -⟩ := R.exists_engineStep hI' hf'
      exact ⟨t, hstep.trans ht, hsame.host_eq, hIt, hft⟩
    · exact ⟨_, hstep, rfl, hI', hf'⟩
  · have hfilter : s.host.filter HostTurn.acts = turn :: rest.filter HostTurn.acts := by
      rw [hhost, List.filter_cons_of_pos (Bool.eq_true_of_not_eq_false hacts)]
    cases hf with
    | marked _ _ hturns => exact absurd (hfilter.symm.trans hturns) (List.cons_ne_nil _ _)
    | coming more hopen hinput hturns =>
      have hb : (s.setHost rest).status = .busy := R.busy _ hI' hopen
      rw [hfilter] at hturns
      cases more with
      | nil =>
        obtain ⟨rfl, hnone⟩ := List.cons.inj hturns
        refine ⟨(s.setHost rest).endInput, hstep.trans (congrArg _ (if_pos hb)), rfl, R.endInput _ hI' hopen, ?_⟩
        exact .marked rfl (by rw [← hinput, List.append_nil]; rfl) hnone
      | cons b more =>
        obtain ⟨rfl, hmore⟩ := List.cons.inj hturns
        refine ⟨(s.setHost rest).addInput b, hstep.trans (congrArg _ (if_pos ⟨hb, hopen⟩)), rfl,
          R.addInput _ b hI' hopen, ?_⟩
        exact .coming more hopen (by rw [← hinput]; exact List.append_assoc _ [b] more) hmore

/-- Whatever turns are left, the run comes to its end. -/
theorem RunRule.ends (R : RunRule caps input I left) {s : State} (hI : I s) (hf : Feeding input s) :
    Ends caps (fun t => I t ∧ t.status ≠ .busy) s := by
  generalize hturns : s.host = turns
  induction turns generalizing s with
  | nil => exact R.ends_of_host_nil hturns hI hf
  | cons turn rest ih =>
    obtain ⟨t, hstep, hhost, hIt, hft⟩ := R.exists_stepWith hturns hI hf
    exact ends_of_stepWith hstep (ih hIt hft hhost)

/-- The state an accepted START leaves: the invariant holds, the input is new, and the later turns are to come. -/
def Started (I : State → Prop) (turns : List HostTurn) (t : State) : Prop :=
  I t ∧ t.inBytes = [] ∧ t.inEnd = false ∧ t.host = turns

/-- A run in any schedule: the turns before START change nothing, START opens the run, and the run comes to its end. -/
theorem RunRule.ends_of_isSchedule (R : RunRule caps input I left) {c : Byte} {s : State} (hs : s.status ≠ .busy)
    (hsched : IsSchedule c input s.host)
    (hstart : ∀ turns, ∃ t, runCommand c (s.setHost turns) = .next t ∧ Started I turns t) :
    Ends caps (fun t => I t ∧ t.status ≠ .busy) s := by
  generalize hturns : s.host = turns at hsched
  induction turns generalizing s with
  | nil => exact absurd hsched (List.cons_ne_nil _ _).symm
  | cons turn rest ih =>
    have hstep := stepWith_of_host_cons caps hturns
    by_cases hacts : turn.acts = false
    · have hrest : IsSchedule c input rest := by
        rwa [IsSchedule, List.filter_cons_of_neg (by rw [hacts]; exact Bool.false_ne_true)] at hsched
      have hidle : stepWith caps s = .next (s.setHost rest) := by
        obtain rfl | ⟨r, rfl⟩ := idle_or_read_of_not_acts hacts
        · exact hstep.trans (engineStep_of_not_busy caps hs)
        · exact hstep
      exact ends_of_stepWith hidle (ih (s := s.setHost rest) hs hstart rfl hrest)
    · rw [IsSchedule, List.filter_cons_of_pos (Bool.eq_true_of_not_eq_false hacts)] at hsched
      obtain ⟨rfl, hrest⟩ := List.cons.inj hsched
      obtain ⟨t, ht, hI, hbytes, hopen, hhost⟩ := hstart rest
      refine ends_of_stepWith (hstep.trans ht) (R.ends hI (.coming input hopen ?_ ?_))
      · rw [hbytes, List.nil_append]
      · rw [hhost, hrest]

end

end Sys2Proof.Machine

end

section
/-! `RCOMP` writes the closed form (40_rle_encoder.md R130). `Scan` is the encoder as a fold over the input bits; the fold
over runs gives R130's counts, and the engine's registers follow the fold bit by bit. -/

namespace Sys2Proof.Machine

/-! ## The encoder as a fold -/

/-- The encoder's two registers and the counts it has written. -/
structure Scan where
  value : Bool
  count : Nat
  written : List Nat

/-- R121. -/
def Scan.start : Scan := ⟨false, 0, []⟩

/-- One bit: a change writes the count; a bit that is the same is counted, with an escape at the 127th (R123 to R125). -/
def Scan.take (c : Scan) (b : Bool) : Scan :=
  if b ≠ c.value then ⟨b, 1, c.written ++ [c.count]⟩
  else if c.count + 1 = 127 then ⟨c.value, 0, c.written ++ [0]⟩
  else ⟨c.value, c.count + 1, c.written⟩

/-- The bits in their order. -/
def Scan.takeAll (c : Scan) (bits : List Bool) : Scan := bits.foldl Scan.take c

/-- All counts of the output, the last behind the flush unless it is 0 (R126). -/
def Scan.counts (c : Scan) : List Nat := c.written ++ if c.count = 0 then [] else [c.count]

theorem Scan.take_change {c : Scan} {b : Bool} (h : b ≠ c.value) :
    c.take b = ⟨b, 1, c.written ++ [c.count]⟩ := if_pos h

theorem Scan.take_escape {c : Scan} (hc : c.count + 1 = 127) :
    c.take c.value = ⟨c.value, 0, c.written ++ [0]⟩ := by
  rw [Scan.take, if_neg (not_not.2 rfl), if_pos hc]

theorem Scan.take_count {c : Scan} (hc : c.count + 1 ≠ 127) :
    c.take c.value = ⟨c.value, c.count + 1, c.written⟩ := by
  rw [Scan.take, if_neg (not_not.2 rfl), if_neg hc]

@[simp] theorem Scan.takeAll_nil (c : Scan) : c.takeAll [] = c := rfl

theorem Scan.takeAll_cons (c : Scan) (b : Bool) (bits : List Bool) :
    c.takeAll (b :: bits) = (c.take b).takeAll bits := rfl

theorem Scan.takeAll_append (c : Scan) (bits bits' : List Bool) :
    c.takeAll (bits ++ bits') = (c.takeAll bits).takeAll bits' := List.foldl_append

theorem Scan.takeAll_concat (c : Scan) (bits : List Bool) (b : Bool) :
    c.takeAll (bits ++ [b]) = (c.takeAll bits).take b := Scan.takeAll_append c bits [b]

/-! ## The fold over runs -/

/-- A run that goes on: every 127 bits an escape, and the rest is counted. -/
theorem Scan.takeAll_replicate_same {n : Nat} (hn : n < 127) (v : Bool) (w : List Nat) (L : Nat) :
    (Scan.mk v n w).takeAll (List.replicate L v) =
      ⟨v, (n + L) % 127, w ++ List.replicate ((n + L) / 127) 0⟩ := by
  induction L with
  | zero => simp [Nat.mod_eq_of_lt hn, Nat.div_eq_of_lt hn]
  | succ L ih =>
    rw [List.replicate_succ', Scan.takeAll_concat, ih, ← Nat.add_assoc]
    by_cases hmax : (n + L) % 127 + 1 = 127
    · have hmod : (n + L + 1) % 127 = 0 := by omega
      have hdiv : (n + L + 1) / 127 = (n + L) / 127 + 1 := by omega
      rw [hmod, hdiv, List.replicate_succ', ← List.append_assoc]
      exact Scan.take_escape hmax
    · have hmod : (n + L + 1) % 127 = (n + L) % 127 + 1 := by omega
      have hdiv : (n + L + 1) / 127 = (n + L) / 127 := by omega
      rw [hmod, hdiv]
      exact Scan.take_count hmax

/-- A run that begins: the count before it is written, and its first bit is counted. -/
theorem Scan.takeAll_replicate_change {v : Bool} {L : Nat} (hL : 0 < L) (n : Nat) (w : List Nat) :
    (Scan.mk (!v) n w).takeAll (List.replicate L v) =
      ⟨v, L % 127, w ++ n :: List.replicate (L / 127) 0⟩ := by
  obtain ⟨m, rfl⟩ := Nat.exists_eq_add_of_lt hL
  rw [Nat.zero_add, List.replicate_succ, Scan.takeAll_cons, Scan.take_change (by simp),
    Scan.takeAll_replicate_same (by decide), Nat.add_comm 1 m, List.append_assoc, List.singleton_append]

/-- The closed form behind a first run of value `v`: R130's points 2 and 3, and the registers of its end state. -/
theorem Scan.takeAll_expandRuns (v : Bool) (L : Nat) (Ls : List Nat) (hLs : ∀ L' ∈ Ls, 0 < L') (w : List Nat) :
    let c := (Scan.mk v (L % 127) (w ++ List.replicate (L / 127) 0)).takeAll (expandRuns (!v) Ls)
    c.counts = w ++ runCounts (L :: Ls) ∧
      c.value = (if (L :: Ls).length % 2 = 1 then v else !v) ∧
      c.count = (L :: Ls).getLast (List.cons_ne_nil _ _) % 127 := by
  induction Ls generalizing v L w with
  | nil => exact ⟨List.append_assoc .., rfl, rfl⟩
  | cons L' Ls ih =>
    have hrun := Scan.takeAll_replicate_change (v := !v) (hLs L' List.mem_cons_self) (L % 127)
      (w ++ List.replicate (L / 127) 0)
    rw [Bool.not_not] at hrun
    obtain ⟨hcounts, hvalue, hcount⟩ := ih (!v) L' (fun M hM => hLs M (List.mem_cons_of_mem _ hM))
      (w ++ List.replicate (L / 127) 0 ++ [L % 127])
    rw [List.append_assoc _ [L % 127], List.singleton_append] at hcounts hvalue hcount
    simp only [expandRuns, Scan.takeAll_append, hrun]
    refine ⟨?_, ?_, ?_⟩
    · rw [hcounts]
      simp [runCounts, Config.MAX, Config.LENGTH]
    · rw [hvalue]
      simp only [List.length_cons, Bool.not_not]
      by_cases hodd : (Ls.length + 1) % 2 = 1
      · rw [if_pos hodd, if_neg (by omega)]
      · rw [if_neg hodd, if_pos (by omega)]
    · rw [hcount, List.getLast_cons (List.cons_ne_nil _ _)]

/-- R130 from START: a first run of 1 bits changes the value at once, which writes one escape more. -/
theorem Scan.takeAll_start_expandRuns (v : Bool) (Ls : List Nat) (hLs : ∀ L ∈ Ls, 0 < L) :
    let c := Scan.start.takeAll (expandRuns v Ls)
    c.counts = rcompCounts v Ls ∧
      c.value = (if Ls = [] then false else if Ls.length % 2 = 1 then v else !v) ∧
      c.count = (Ls.getLast?.getD 0) % 127 := by
  cases Ls with
  | nil => exact ⟨by cases v <;> rfl, rfl, rfl⟩
  | cons L Ls =>
    have hfirst : Scan.start.takeAll (List.replicate L v) =
        ⟨v, L % 127, (if v = true then [0] else []) ++ List.replicate (L / 127) 0⟩ := by
      cases v with
      | false => rw [Scan.start, Scan.takeAll_replicate_same (by decide), Nat.zero_add]; rfl
      | true => exact Scan.takeAll_replicate_change (v := true) (hLs L List.mem_cons_self) 0 []
    obtain ⟨hcounts, hvalue, hcount⟩ := Scan.takeAll_expandRuns v L Ls
      (fun M hM => hLs M (List.mem_cons_of_mem _ hM)) (if v = true then [0] else [])
    simp only [expandRuns, Scan.takeAll_append, hfirst]
    refine ⟨?_, ?_, ?_⟩
    · simp [hcounts, rcompCounts]
    · simp [hvalue]
    · simp [hcount, List.getLast?_eq_some_getLast]

/-! ## The registers follow the fold -/

/-- These are the registers and the output of an encoder at `c`. -/
structure Scan.Holds (c : Scan) (value : Bool) (count : BitVec 7) (obits : List Bool) : Prop where
  value_eq : value = c.value
  count_eq : count.toNat = c.count
  count_lt : c.count < 127
  obits_eq : obits = c.written.flatMap (bitsOf 8)

theorem Scan.start_holds : Scan.start.Holds false 0#7 [] := ⟨rfl, rfl, by decide, rfl⟩

/-- `t` is `s` with one input bit read and the encoder's registers and output changed. -/
def TookBit (s t : State) : Prop :=
  t = { s with ipos := s.ipos + 1, obits := t.obits, lastValue := t.lastValue, valueCount := t.valueCount }

/-- A step on a bit that is there is the fold's (R123 to R125). -/
theorem rScan_takes {c : Scan} {s : State} (hopen : s.closed = false) (h : s.ipos < 8 * s.inBytes.length)
    (hc : c.Holds s.lastValue s.valueCount s.obits) :
    ∃ t, rScan s = .next t ∧ TookBit s t ∧
      (c.take (s.inBit s.ipos)).Holds t.lastValue t.valueCount t.obits := by
  obtain ⟨hvalue, hcount, hlt, hobits⟩ := hc
  by_cases hbit : s.inBit s.ipos = s.lastValue
  · have hstep := rScan_same hopen (hcount ▸ hlt) h hbit
    by_cases hmax : s.valueCount.toNat + 1 = 127
    · rw [if_pos hmax] at hstep
      rw [hbit, hvalue, Scan.take_escape (hcount ▸ hmax)]
      exact ⟨_, hstep, rfl, hvalue, rfl, Nat.zero_lt_succ _, by simp [hobits]⟩
    · rw [if_neg hmax] at hstep
      rw [hbit, hvalue, Scan.take_count (hcount ▸ hmax)]
      have hnew : (BitVec.ofNat 7 (s.valueCount.toNat + 1)).toNat = c.count + 1 := by
        rw [BitVec.toNat_ofNat, Nat.mod_eq_of_lt (by omega), hcount]
      exact ⟨_, hstep, rfl, hvalue, hnew, show c.count + 1 < 127 by omega, hobits⟩
  · rw [Scan.take_change (hvalue ▸ hbit)]
    exact ⟨_, rScan_change hopen h hbit, rfl, rfl, rfl, Nat.one_lt_ofNat, by simp [hobits, hcount]⟩

theorem length_flatMap_bitsOf (n : Nat) (counts : List Nat) :
    (counts.flatMap (bitsOf n)).length = counts.length * n := by
  simp [List.length_flatMap]

/-- What the flush leaves is all counts: they are whole bytes, so that closing adds nothing (R126, R127). -/
theorem Scan.Holds.flushed {c : Scan} {value : Bool} {count : BitVec 7} {obits : List Bool}
    (hc : c.Holds value count obits) :
    padToByte (obits ++ if count = 0#7 then [] else bitsOf 8 count.toNat) = c.counts.flatMap (bitsOf 8) := by
  obtain ⟨-, hcount, -, hobits⟩ := hc
  have hzero : count = 0#7 ↔ c.count = 0 := by
    rw [← hcount]
    exact BitVec.toNat_inj.symm
  have hall : (obits ++ if count = 0#7 then [] else bitsOf 8 count.toNat) = c.counts.flatMap (bitsOf 8) := by
    rw [Scan.counts, List.flatMap_append, hobits, hcount, if_congr hzero rfl rfl]
    split
    · rfl
    · simp
  rw [hall, padToByte_of_whole (by rw [length_flatMap_bitsOf]; exact Nat.mul_mod_left _ _)]

/-! ## The phases of a run -/

/-- The bit the engine reads next is the next bit of the run's input (20_memory.md R63). -/
theorem take_succ_bytesBits {input : List Byte} {s : State} (hprefix : s.inBytes <+: input)
    (h : s.ipos < 8 * s.inBytes.length) :
    (bytesBits input).take (s.ipos + 1) = (bytesBits input).take s.ipos ++ [s.inBit s.ipos] := by
  obtain ⟨rest, rfl⟩ := hprefix
  have hbyte : s.ipos / 8 < s.inBytes.length := by omega
  have hbit : (bytesBits (s.inBytes ++ rest))[s.ipos]? = some (s.inBit s.ipos) := by
    rw [getElem?_bytesBits (by rw [List.length_append]; omega), List.getElem_append_left hbyte, State.inBit,
      List.getD_eq_getElem _ _ hbyte]
  rw [List.take_add_one, hbit, Option.toList_some]

/-- In `R_SCAN` the registers are those of the fold over the bits read. -/
structure ScanPhase (input : List Byte) (s : State) : Prop where
  busy : s.status = .busy
  phase : s.phase = .rScan
  output_open : s.closed = false
  err : s.err = .none
  ipos_le : s.ipos ≤ 8 * s.inBytes.length
  holds : (Scan.start.takeAll ((bytesBits input).take s.ipos)).Holds s.lastValue s.valueCount s.obits

/-- In `R_FLUSH` they are those of the fold over the whole input. -/
structure FlushPhase (input : List Byte) (s : State) : Prop where
  busy : s.status = .busy
  phase : s.phase = .rFlush
  output_open : s.closed = false
  err : s.err = .none
  input_ended : s.inEnd = true
  ipos_eq : s.ipos = 8 * input.length
  holds : (Scan.start.takeAll (bytesBits input)).Holds s.lastValue s.valueCount s.obits

/-- The run has written all counts of the input. -/
structure RcompDone (input : List Byte) (s : State) : Prop where
  done : s.status = .done
  phase : s.phase = .halt
  err : s.err = .none
  input_ended : s.inEnd = true
  ipos_eq : s.ipos = 8 * input.length
  value_eq : s.lastValue = (Scan.start.takeAll (bytesBits input)).value
  count_eq : s.valueCount.toNat = (Scan.start.takeAll (bytesBits input)).count
  obits_eq : s.obits = (Scan.start.takeAll (bytesBits input)).counts.flatMap (bitsOf 8)

/-- Where a run of `RCOMP` stands. -/
inductive RcompRun (input : List Byte) (s : State) : Prop
  | scan (h : ScanPhase input s)
  | flush (h : FlushPhase input s)
  | done (h : RcompDone input s)

/-- The steps a run has left once its input has ended. -/
def rcompLeft (s : State) : Nat :=
  match s.phase with
  | .rScan => 8 * s.inBytes.length - s.ipos + 2
  | .rFlush => 1
  | _ => 0

theorem rcompLeft_of_rScan {s : State} (h : s.phase = .rScan) :
    rcompLeft s = 8 * s.inBytes.length - s.ipos + 2 := by rw [rcompLeft, h]

theorem rcompLeft_of_rFlush {s : State} (h : s.phase = .rFlush) : rcompLeft s = 1 := by rw [rcompLeft, h]

theorem rcompLeft_of_halt {s : State} (h : s.phase = .halt) : rcompLeft s = 0 := by rw [rcompLeft, h]

section
variable {input : List Byte} {s : State}

/-- While the input is open the engine scans. -/
theorem RcompRun.scanPhase_of_open (hI : RcompRun input s) (hopen : s.inEnd = false) : ScanPhase input s := by
  cases hI with
  | scan h => exact h
  | flush h => exact absurd (hopen.symm.trans h.input_ended) Bool.false_ne_true
  | done h => exact absurd (hopen.symm.trans h.input_ended) Bool.false_ne_true

/-! ## The host's turns -/

theorem RcompRun.setHost (turns : List HostTurn) (hI : RcompRun input s) : RcompRun input (s.setHost turns) := by
  cases hI with
  | scan h =>
    obtain ⟨hb, hp, hopen, herr, hipos, hc⟩ := h
    exact .scan ⟨hb, hp, hopen, herr, hipos, hc⟩
  | flush h =>
    obtain ⟨hb, hp, hopen, herr, hend, hipos, hc⟩ := h
    exact .flush ⟨hb, hp, hopen, herr, hend, hipos, hc⟩
  | done h =>
    obtain ⟨hd, hp, herr, hend, hipos, hvalue, hcount, hobits⟩ := h
    exact .done ⟨hd, hp, herr, hend, hipos, hvalue, hcount, hobits⟩

theorem ScanPhase.addInput (b : Byte) (h : ScanPhase input s) : ScanPhase input (s.addInput b) := by
  obtain ⟨hb, hp, hopen, herr, hipos, hc⟩ := h
  have hle : s.ipos ≤ 8 * (s.inBytes ++ [b]).length := by rw [List.length_append]; omega
  exact ⟨hb, hp, hopen, herr, hle, hc⟩

theorem ScanPhase.endInput (h : ScanPhase input s) : ScanPhase input s.endInput := by
  obtain ⟨hb, hp, hopen, herr, hipos, hc⟩ := h
  exact ⟨hb, hp, hopen, herr, hipos, hc⟩

/-! ## The engine's steps -/

/-- One more bit of the input is in the fold. -/
theorem ScanPhase.exists_next_of_bit (h : ScanPhase input s) (hprefix : s.inBytes <+: input)
    (hlt : s.ipos < 8 * s.inBytes.length) :
    ∃ t, rScan s = .next t ∧ ScanPhase input t ∧ SameFeed s t ∧ rcompLeft t < rcompLeft s := by
  obtain ⟨t, hstep, htook, hc⟩ := rScan_takes h.output_open hlt h.holds
  rw [← Scan.takeAll_concat, ← take_succ_bytesBits hprefix hlt] at hc
  rw [TookBit] at htook
  generalize t.obits = o, t.lastValue = v, t.valueCount = k at htook hc
  subst htook
  have ht : ScanPhase input { s with ipos := s.ipos + 1, obits := o, lastValue := v, valueCount := k } :=
    ⟨h.busy, h.phase, h.output_open, h.err, hlt, hc⟩
  refine ⟨_, hstep, ht, ⟨rfl, rfl, rfl⟩, ?_⟩
  rw [rcompLeft_of_rScan h.phase, rcompLeft_of_rScan ht.phase]
  dsimp only
  omega

/-- At the end of the input all its bits are in the fold. -/
theorem ScanPhase.flushPhase (h : ScanPhase input s) (hend : s.inEnd = true) (hall : s.inBytes = input)
    (hipos : s.ipos = 8 * s.inBytes.length) : FlushPhase input (s.setPhase .rFlush) := by
  obtain ⟨hb, -, hopen, herr, -, hc⟩ := h
  rw [hall] at hipos
  rw [hipos, List.take_of_length_le (length_bytesBits input).le] at hc
  exact ⟨hb, rfl, hopen, herr, hend, hipos, hc⟩

theorem FlushPhase.exists_next (h : FlushPhase input s) :
    ∃ t, rFlush s = .next t ∧ RcompDone input t ∧ SameFeed s t := by
  obtain ⟨-, -, hopen, herr, hend, hipos, hc⟩ := h
  exact ⟨_, rFlush_open hopen, ⟨rfl, rfl, herr, hend, hipos, hc.value_eq, hc.count_eq, hc.flushed⟩, ⟨rfl, rfl, rfl⟩⟩

theorem ScanPhase.exists_next (h : ScanPhase input s) (hprefix : s.inBytes <+: input)
    (hall : s.inEnd = true → s.inBytes = input) :
    ∃ t, rScan s = .next t ∧ RcompRun input t ∧ SameFeed s t ∧ (s.inEnd = true → rcompLeft t < rcompLeft s) := by
  rcases h.ipos_le.lt_or_eq with hlt | heq
  · obtain ⟨t, hstep, ht, hsame, hleft⟩ := h.exists_next_of_bit hprefix hlt
    exact ⟨t, hstep, .scan ht, hsame, fun _ => hleft⟩
  cases hend : s.inEnd with
  | true =>
    refine ⟨_, rScan_end hend heq, .flush (h.flushPhase hend (hall hend) heq), ⟨rfl, rfl, rfl⟩, fun _ => ?_⟩
    rw [rcompLeft_of_rFlush rfl, rcompLeft_of_rScan h.phase]
    omega
  | false => exact ⟨s, rScan_wait hend heq, .scan h, SameFeed.refl s, fun hf => absurd hf Bool.false_ne_true⟩

end

/-- The run of `RCOMP` on an input. -/
theorem rcomp_runRule (caps : Config.Caps) (input : List Byte) : RunRule caps input (RcompRun input) rcompLeft where
  setHost _ turns hI := hI.setHost turns
  addInput _ b hI hopen := .scan ((hI.scanPhase_of_open hopen).addInput b)
  endInput _ hI hopen := .scan (hI.scanPhase_of_open hopen).endInput
  busy _ hI hopen := (hI.scanPhase_of_open hopen).busy
  step s hI hb hprefix hall := by
    cases hI with
    | scan h =>
      rw [engineStep_rScan caps hb h.phase]
      exact h.exists_next hprefix hall
    | flush h =>
      obtain ⟨t, hstep, ht, hsame⟩ := h.exists_next
      rw [engineStep_rFlush caps hb h.phase]
      refine ⟨t, hstep, .done ht, hsame, fun _ => ?_⟩
      rw [rcompLeft_of_halt ht.phase, rcompLeft_of_rFlush h.phase]
      exact Nat.one_pos
    | done h => exact absurd (hb.symm.trans h.done) (by decide)

/-- START of `RCOMP` opens a run that has read nothing (R121). -/
theorem rcomp_started (input : List Byte) {s : State} (hs : s.status ≠ .busy) (turns : List HostTurn) :
    ∃ t, runCommand 0x02#8 (s.setHost turns) = .next t ∧ Started (RcompRun input) turns t := by
  have hcmd : decode .command (byteBits 0x02#8) = some (.rcomp, []) := by decide
  refine ⟨_, (runCommand_of _ hcmd).trans (rcompStartsTheRunLengthEncoder (s.setHost turns) hs), ?_, rfl, rfl, rfl⟩
  exact .scan ⟨rfl, rfl, rfl, rfl, Nat.zero_le _, Scan.start_holds⟩

end Sys2Proof.Machine

open Sys2Proof Sys2Proof.Machine

/-- Settles O56: the run ends with the fold over the input's bits, and over runs the fold is the closed form. -/
theorem rcompWritesTheClosedForm : Obligations.RcompWritesTheClosedForm := by
  intro caps s input v Ls hs hsched hLs hruns
  obtain ⟨t, hreach, hhost, hI, hidle⟩ := (rcomp_runRule caps input).ends_of_isSchedule hs hsched (rcomp_started input hs)
  obtain ⟨hcounts, hvalue, hcount⟩ := Scan.takeAll_start_expandRuns v Ls hLs
  rw [← hruns] at hcounts hvalue hcount
  cases hI with
  | scan h => exact absurd h.busy hidle
  | flush h => exact absurd h.busy hidle
  | done h =>
    exact ⟨t, hreach, hhost, h.done, h.err, hcounts ▸ h.obits_eq, h.value_eq.trans hvalue, h.count_eq.trans hcount,
      h.ipos_eq⟩

end

section
/-! The run-length decoder by its phase table (41_rle_decoder.md R141 to R147): how it starts, what each token writes, and
the three ends of `X_READ`'s step; beside it the other two engines that end by closing the output. -/

namespace Sys2Proof.Machine

/-! ## The tokens (R143 to R146) -/

/-- `lastValue` behind the counts `cs`, from the value `v` (R149). -/
def rexpValue (v : Bool) (cs : List Byte) : Bool := cs.foldl (fun v c => if c = 0#8 then v else !v) v

theorem rexpValue_append (v : Bool) (cs ds : List Byte) : rexpValue v (cs ++ ds) = rexpValue (rexpValue v cs) ds :=
  List.foldl_append

/-- An escape writes 127 bits and keeps the value (R146). -/
theorem rexpBits_escape (v : Bool) (cs : List Byte) :
    rexpBits v (0#8 :: cs) = List.replicate 127 v ++ rexpBits v cs := if_pos rfl

/-- A run writes its bits and flips the value (R144). -/
theorem rexpBits_run (v : Bool) {c : Byte} (hc : c ≠ 0#8) (cs : List Byte) :
    rexpBits v (c :: cs) = List.replicate c.toNat v ++ rexpBits (!v) cs := if_neg hc

/-- A stream in two parts: the second is decoded from the value the first leaves (R153). -/
theorem rexpBits_append (v : Bool) (cs ds : List Byte) :
    rexpBits v (cs ++ ds) = rexpBits v cs ++ rexpBits (rexpValue v cs) ds := by
  induction cs generalizing v with
  | nil => rfl
  | cons c cs ih =>
    rw [List.cons_append, rexpValue, List.foldl_cons, ← rexpValue]
    by_cases hc : c = 0#8
    · rw [hc, rexpBits_escape, rexpBits_escape, ih, List.append_assoc, if_pos rfl]
    · rw [rexpBits_run v hc, rexpBits_run v hc, ih, List.append_assoc, if_neg hc]

section
variable {s : State}

theorem execRleEsc_open (hopen : s.closed = false) :
    execRleEsc s = .next ((s.setCount 0#8).emit (List.replicate 127 s.lastValue)) :=
  outRep_open hopen

theorem execRleRun_open {n : BitVec 8} (hn : n ≠ 0#8) (hopen : s.closed = false) :
    execRleRun n s = .next (((s.setCount n).emit (List.replicate n.toNat s.lastValue)).flip) := by
  rw [execRleRun, if_neg hn, outRep_open (s := s.setCount n) hopen, andThen_next]

/-- Whatever the count is, its token appends what the decoder function gives for it (R143 to R146). -/
theorem exec_decodeCount (c : Byte) (hopen : s.closed = false) :
    exec (decodeCount c.toNat) s = .next
      { s with
        count := c, obits := s.obits ++ rexpBits s.lastValue [c], lastValue := rexpValue s.lastValue [c] } := by
  by_cases hc : c = 0#8
  · subst hc
    rw [rexpBits_escape]
    exact execRleEsc_open hopen
  · have hrun : decodeCount c.toNat = .rleRun c := by
      have h0 : c.toNat ≠ 0 := fun h => hc (BitVec.eq_of_toNat_eq h)
      rw [decodeCount, if_neg h0, BitVec.ofNat_toNat, BitVec.setWidth_eq]
    have hflip : rexpValue s.lastValue [c] = !s.lastValue := if_neg hc
    rw [hrun, rexpBits_run _ hc, hflip, exec, execRleRun_open hc hopen, rexpBits, List.append_nil]
    rfl

/-! ## `X_READ` (R142, R143, R147) -/

/-- The eight bits at a byte's place are the byte's (20_memory.md R63). -/
theorem map_inBit_eq_byteBits {k : Nat} (hk : k < s.inBytes.length) :
    (List.range 8).map (fun i => s.inBit (8 * k + i)) = byteBits s.inBytes[k] := by
  rw [byteBits, bitsOf_eq_map_range]
  refine List.map_congr_left fun i hi => ?_
  have hi : i < 8 := List.mem_range.1 hi
  have hbyte : (8 * k + i) / 8 = k := by omega
  have hbit : (8 * k + i) % 8 = i := by omega
  rw [State.inBit, hbyte, hbit, List.getD_eq_getElem _ _ hk]
  rfl

theorem xRead_byte {k : Nat} (hk : k < s.inBytes.length) (hi : s.ipos = 8 * k) (hopen : s.closed = false) :
    xRead s = .next
      { s with
        ipos := s.ipos + 8, count := s.inBytes[k], obits := s.obits ++ rexpBits s.lastValue [s.inBytes[k]],
        lastValue := rexpValue s.lastValue [s.inBytes[k]] } := by
  rw [xRead_token (by omega), hi, map_inBit_eq_byteBits hk, runToken_of (decode_count (length_byteBits _)), byteBits,
    natOf_bitsOf_of_lt s.inBytes[k].isLt]
  exact exec_decodeCount s.inBytes[k] hopen

theorem xRead_end (hend : s.inEnd = true) (hi : s.ipos = 8 * s.inBytes.length) : xRead s = complete s :=
  if_pos (inEmpty_iff.2 ⟨hend, hi⟩)

theorem xRead_wait (hend : s.inEnd = false) (hi : s.ipos = 8 * s.inBytes.length) : xRead s = .next s := by
  have hempty : ¬ s.inEmpty = true := fun h => Bool.false_ne_true (hend.symm.trans (inEmpty_iff.1 h).1)
  have hnone : inBits Config.LENGTH s = none := inBits_eq_none.2 (hi ▸ Nat.lt_add_of_pos_right (by decide))
  rw [xRead, if_neg hempty, hnone]
  exact (onShort_eq s).trans (by rw [hend]; rfl)

theorem engineStep_dClose (caps : Config.Caps) (hb : s.status = .busy) (hp : s.phase = .dClose) :
    engineStep caps s = complete s := by
  rw [engineStep, if_neg (not_not.2 hb), hp]
  rfl

/-- Normal completion, field by field (44_control.md R225). -/
theorem complete_eq_padToByte (s : State) :
    complete s = .next { s with obits := padToByte s.obits, closed := true, phase := .halt, status := .done } := rfl

end

end Sys2Proof.Machine

open Sys2Proof Sys2Proof.Machine

/-- Settles O18: with no engine running the START is accepted. -/
theorem rexpStartsTheRunLengthDecoder : Obligations.RexpStartsTheRunLengthDecoder := by
  intro s hs
  rw [exec, execRexp, startEngine_accepted hs]
  rfl

/-- Settles O32: the open output takes the bits. -/
theorem rleEscRepeatsWithoutFlip : Obligations.RleEscRepeatsWithoutFlip :=
  fun _ hopen => execRleEsc_open hopen

/-- Settles O33: the open output takes the bits, and a count that is not 0 flips the value behind them. -/
theorem rleRunRepeatsThenFlips : Obligations.RleRunRepeatsThenFlips :=
  fun _ _ hn hopen => execRleRun_open hn hopen

/-- Settles O34: the three ends are the one normal completion. -/
theorem enginesCloseAndComplete : Obligations.EnginesCloseAndComplete := by
  refine ⟨fun caps s hb hphase => ?_, fun pad s => complete_eq_padToByte s⟩
  rcases hphase with ⟨hp, hend, hi⟩ | hp
  · rw [engineStep_xRead caps hb hp, xRead_end hend hi, complete_eq_padToByte]
  · rw [engineStep_dClose caps hb hp, complete_eq_padToByte]

end

section
/-! `REXP` computes the decoder function (41_rle_decoder.md R149): between steps the registers and the output are those of
the counts read so far, and the end of the input closes the output. -/

namespace Sys2Proof.Machine

/-! ## The phases of a run -/

/-- In `X_READ` the bytes `read` are behind the engine, and the registers and the output are R149's for them. -/
structure ReadPhase (read : List Byte) (s : State) : Prop where
  busy : s.status = .busy
  phase : s.phase = .xRead
  output_open : s.closed = false
  err : s.err = .none
  read_prefix : read <+: s.inBytes
  ipos_eq : s.ipos = 8 * read.length
  obits_eq : s.obits = rexpBits false read
  value_eq : s.lastValue = rexpValue false read
  count_eq : ∀ c, read.getLast? = some c → s.count = c

/-- The run has decoded the whole input and closed the output. -/
structure RexpDone (input : List Byte) (s : State) : Prop where
  done : s.status = .done
  phase : s.phase = .halt
  err : s.err = .none
  input_ended : s.inEnd = true
  ipos_eq : s.ipos = 8 * input.length
  obits_eq : s.obits = padToByte (rexpBits false input)
  value_eq : s.lastValue = rexpValue false input
  count_eq : ∀ c, input.getLast? = some c → s.count = c

/-- Where a run of `REXP` stands. -/
inductive RexpRun (input : List Byte) (s : State) : Prop
  | reading (read : List Byte) (h : ReadPhase read s)
  | done (h : RexpDone input s)

/-- What a run has left once its input has ended: the bits to read and the completion. -/
def rexpLeft (s : State) : Nat :=
  match s.phase with
  | .xRead => 8 * s.inBytes.length - s.ipos + 1
  | _ => 0

theorem rexpLeft_of_xRead {s : State} (h : s.phase = .xRead) : rexpLeft s = 8 * s.inBytes.length - s.ipos + 1 := by
  rw [rexpLeft, h]

theorem rexpLeft_of_halt {s : State} (h : s.phase = .halt) : rexpLeft s = 0 := by rw [rexpLeft, h]

section
variable {input read : List Byte} {s : State}

/-- While the input is open the engine reads. -/
theorem RexpRun.exists_readPhase_of_open (hI : RexpRun input s) (hopen : s.inEnd = false) :
    ∃ read, ReadPhase read s := by
  cases hI with
  | reading read h => exact ⟨read, h⟩
  | done h => exact absurd (hopen.symm.trans h.input_ended) Bool.false_ne_true

/-! ## The host's turns -/

theorem RexpRun.setHost (turns : List HostTurn) (hI : RexpRun input s) : RexpRun input (s.setHost turns) := by
  cases hI with
  | reading read h =>
    obtain ⟨hb, hp, hopen, herr, hread, hipos, hobits, hvalue, hcount⟩ := h
    exact .reading read ⟨hb, hp, hopen, herr, hread, hipos, hobits, hvalue, hcount⟩
  | done h =>
    obtain ⟨hd, hp, herr, hend, hipos, hobits, hvalue, hcount⟩ := h
    exact .done ⟨hd, hp, herr, hend, hipos, hobits, hvalue, hcount⟩

theorem ReadPhase.addInput (b : Byte) (h : ReadPhase read s) : ReadPhase read (s.addInput b) := by
  obtain ⟨hb, hp, hopen, herr, hread, hipos, hobits, hvalue, hcount⟩ := h
  exact ⟨hb, hp, hopen, herr, hread.trans (List.prefix_append _ _), hipos, hobits, hvalue, hcount⟩

theorem ReadPhase.endInput (h : ReadPhase read s) : ReadPhase read s.endInput := by
  obtain ⟨hb, hp, hopen, herr, hread, hipos, hobits, hvalue, hcount⟩ := h
  exact ⟨hb, hp, hopen, herr, hread, hipos, hobits, hvalue, hcount⟩

/-! ## The engine's steps -/

/-- A byte that is there is decoded. -/
theorem ReadPhase.exists_next_of_byte (h : ReadPhase read s) (hk : read.length < s.inBytes.length) :
    ∃ t, xRead s = .next t ∧ RexpRun input t ∧ SameFeed s t ∧ rexpLeft t < rexpLeft s := by
  obtain ⟨hb, hp, hopen, herr, hread, hipos, hobits, hvalue, -⟩ := h
  refine ⟨_, xRead_byte hk hipos hopen, .reading (read ++ [s.inBytes[read.length]]) ?_, ⟨rfl, rfl, rfl⟩, ?_⟩
  · refine ⟨hb, hp, hopen, herr, ?_, ?_, ?_, ?_, ?_⟩
    · exact List.concat_get_prefix hread hk
    · rw [List.length_append, Nat.mul_add, ← hipos]; rfl
    · rw [rexpBits_append, ← hobits, ← hvalue]
    · rw [rexpValue_append, ← hvalue]
    · intro c hc
      rw [List.getLast?_concat] at hc
      exact Option.some.inj hc
  · rw [rexpLeft_of_xRead hp, rexpLeft_of_xRead (by exact hp)]
    dsimp only
    omega

/-- At the end of the input all its bytes have been read. -/
theorem ReadPhase.exists_next_of_end (h : ReadPhase s.inBytes s) (hend : s.inEnd = true) (hall : s.inBytes = input) :
    ∃ t, xRead s = .next t ∧ RexpRun input t ∧ SameFeed s t ∧ rexpLeft t < rexpLeft s := by
  subst hall
  obtain ⟨-, hp, -, herr, -, hipos, hobits, hvalue, hcount⟩ := h
  refine ⟨_, (xRead_end hend hipos).trans (complete_eq_padToByte s), .done ?_, ⟨rfl, rfl, rfl⟩, ?_⟩
  · exact ⟨rfl, rfl, herr, hend, hipos, congrArg padToByte hobits, hvalue, hcount⟩
  · rw [rexpLeft_of_halt rfl, rexpLeft_of_xRead hp]
    exact Nat.succ_pos _

theorem ReadPhase.exists_next (h : ReadPhase read s) (hall : s.inEnd = true → s.inBytes = input) :
    ∃ t, xRead s = .next t ∧ RexpRun input t ∧ SameFeed s t ∧ (s.inEnd = true → rexpLeft t < rexpLeft s) := by
  rcases h.read_prefix.length_le.lt_or_eq with hlt | heq
  · obtain ⟨t, hstep, ht, hsame, hleft⟩ := h.exists_next_of_byte hlt
    exact ⟨t, hstep, ht, hsame, fun _ => hleft⟩
  obtain rfl := h.read_prefix.eq_of_length heq
  cases hend : s.inEnd with
  | true =>
    obtain ⟨t, hstep, ht, hsame, hleft⟩ := h.exists_next_of_end hend (hall hend)
    exact ⟨t, hstep, ht, hsame, fun _ => hleft⟩
  | false =>
    exact ⟨s, xRead_wait hend h.ipos_eq, .reading _ h, SameFeed.refl s, fun hf => absurd hf Bool.false_ne_true⟩

end

/-- The run of `REXP` on an input. -/
theorem rexp_runRule (caps : Config.Caps) (input : List Byte) : RunRule caps input (RexpRun input) rexpLeft where
  setHost _ turns hI := hI.setHost turns
  addInput _ b hI hopen :=
    have ⟨read, h⟩ := hI.exists_readPhase_of_open hopen
    .reading read (h.addInput b)
  endInput _ hI hopen :=
    have ⟨read, h⟩ := hI.exists_readPhase_of_open hopen
    .reading read h.endInput
  busy _ hI hopen :=
    have ⟨_, h⟩ := hI.exists_readPhase_of_open hopen
    h.busy
  step s hI hb _ hall := by
    cases hI with
    | reading read h =>
      rw [engineStep_xRead caps hb h.phase]
      exact h.exists_next hall
    | done h => exact absurd (hb.symm.trans h.done) (by decide)

/-- START of `REXP` opens a run that has read nothing (R141). -/
theorem rexp_started (input : List Byte) {s : State} (hs : s.status ≠ .busy) (turns : List HostTurn) :
    ∃ t, runCommand 0x03#8 (s.setHost turns) = .next t ∧ Started (RexpRun input) turns t := by
  have hcmd : decode .command (byteBits 0x03#8) = some (.rexp, []) := by decide
  refine ⟨_, (runCommand_of _ hcmd).trans (rexpStartsTheRunLengthDecoder (s.setHost turns) hs), ?_, rfl, rfl, rfl⟩
  exact .reading [] ⟨rfl, rfl, rfl, rfl, List.nil_prefix, rfl, rfl, rfl, fun _ h => by cases h⟩

end Sys2Proof.Machine

open Sys2Proof Sys2Proof.Machine

/-- Settles O55: the run ends with the decoder function of all bytes read. -/
theorem rexpComputesTheDecoderFunction : Obligations.RexpComputesTheDecoderFunction := by
  intro caps s input hs hsched
  obtain ⟨t, hreach, hhost, hI, hidle⟩ := (rexp_runRule caps input).ends_of_isSchedule hs hsched (rexp_started input hs)
  cases hI with
  | reading read h => exact absurd h.busy hidle
  | done h => exact ⟨t, hreach, hhost, h.done, h.err, h.obits_eq, h.value_eq, h.count_eq, h.ipos_eq⟩

end

section
/-! The run-length round trip (41_rle_decoder.md R150, R151): on the domain the decoder writes the runs back; outside it each
obstacle costs exactly 127 bits too many, so that even the padded output is too long to be the input. -/

namespace Sys2Proof.Machine

/-! ## Counts as bytes -/

/-- The encoder's counts are the bytes of its output (20_memory.md R69, R71). -/
theorem flatMap_bitsOf_eight (counts : List Nat) :
    counts.flatMap (bitsOf 8) = bytesBits (counts.map (BitVec.ofNat 8)) := by
  rw [bytesBits, List.flatMap_map]
  exact List.flatMap_congr fun v _ => by rw [byteBits, BitVec.toNat_ofNat, bitsOf_mod]

/-- A row of escapes is one long piece of a run (R146). -/
theorem rexpBits_escapes (v : Bool) (q : Nat) (cs : List Byte) :
    rexpBits v (List.replicate q 0#8 ++ cs) = List.replicate (127 * q) v ++ rexpBits v cs := by
  induction q with
  | zero => rfl
  | succ q ih =>
    rw [List.replicate_succ, List.cons_append, rexpBits_escape, ih, ← List.append_assoc,
      List.replicate_append_replicate, Nat.mul_succ, Nat.add_comm]

/-- A count from 1 to 126 is a run of that length (R144). -/
theorem rexpBits_count (v : Bool) {n : Nat} (hpos : n ≠ 0) (hn : n < 127) (cs : List Byte) :
    rexpBits v (BitVec.ofNat 8 n :: cs) = List.replicate n v ++ rexpBits (!v) cs := by
  have htoNat : (BitVec.ofNat 8 n).toNat = n := Nat.mod_eq_of_lt (by omega)
  have hne : BitVec.ofNat 8 n ≠ 0#8 := fun h => hpos (htoNat.symm.trans (congrArg BitVec.toNat h))
  rw [rexpBits_run v hne, htoNat]

/-! ## One run of the input (R150, R151) -/

/-- The bytes of a run that is not the last (40_rle_encoder.md R130, point 2). -/
theorem map_runCounts_cons_cons (L L' : Nat) (Ls : List Nat) :
    (runCounts (L :: L' :: Ls)).map (BitVec.ofNat 8) =
      List.replicate (L / 127) 0#8 ++ BitVec.ofNat 8 (L % 127) :: (runCounts (L' :: Ls)).map (BitVec.ofNat 8) := by
  have hruns : runCounts (L :: L' :: Ls) = List.replicate (L / 127) 0 ++ L % 127 :: runCounts (L' :: Ls) := rfl
  rw [hruns, List.map_append, List.map_replicate, List.map_cons]

/-- A last run is decoded with its length and value, whatever its length is. -/
theorem rexpBits_runCounts_singleton (v : Bool) (L : Nat) :
    rexpBits v ((runCounts [L]).map (BitVec.ofNat 8)) = List.replicate L v := by
  have hruns : (runCounts [L]).map (BitVec.ofNat 8) =
      List.replicate (L / 127) 0#8 ++ if L % 127 = 0 then [] else [BitVec.ofNat 8 (L % 127)] := by
    rw [runCounts, List.map_append, List.map_replicate, apply_ite (List.map _)]
    rfl
  rw [hruns, rexpBits_escapes]
  split
  · next h0 => rw [rexpBits, List.append_nil, Nat.mul_div_cancel' (Nat.dvd_of_mod_eq_zero h0)]
  · next h0 =>
    rw [rexpBits_count v h0 (Nat.mod_lt _ (by decide)), rexpBits, List.append_nil, List.replicate_append_replicate,
      Nat.div_add_mod]

/-- A run that is not the last is decoded with its length and value, where 127 does not divide its length. -/
theorem rexpBits_runCounts_cons_cons (v : Bool) {L : Nat} (hL : L % 127 ≠ 0) (L' : Nat) (Ls : List Nat) :
    rexpBits v ((runCounts (L :: L' :: Ls)).map (BitVec.ofNat 8)) =
      List.replicate L v ++ rexpBits (!v) ((runCounts (L' :: Ls)).map (BitVec.ofNat 8)) := by
  rw [map_runCounts_cons_cons, rexpBits_escapes, rexpBits_count v hL (Nat.mod_lt _ (by decide)), ← List.append_assoc,
    List.replicate_append_replicate, Nat.div_add_mod]

/-- Where 127 divides it, the run is 127 bits too long and the value does not flip (R151). -/
theorem rexpBits_runCounts_cons_cons_of_dvd (v : Bool) {L : Nat} (hL : L % 127 = 0) (L' : Nat) (Ls : List Nat) :
    rexpBits v ((runCounts (L :: L' :: Ls)).map (BitVec.ofNat 8)) =
      List.replicate (L + 127) v ++ rexpBits v ((runCounts (L' :: Ls)).map (BitVec.ofNat 8)) := by
  rw [map_runCounts_cons_cons, rexpBits_escapes, hL, rexpBits_escape, ← List.append_assoc,
    List.replicate_append_replicate, Nat.mul_div_cancel' (Nat.dvd_of_mod_eq_zero hL)]

/-! ## All runs -/

/-- On the domain the runs come back. -/
theorem rexpBits_runCounts (v : Bool) (Ls : List Nat) (hLs : ∀ L ∈ Ls.dropLast, L % 127 ≠ 0) :
    rexpBits v ((runCounts Ls).map (BitVec.ofNat 8)) = expandRuns v Ls := by
  induction Ls generalizing v with
  | nil => rfl
  | cons L Ls ih =>
    cases Ls with
    | nil => rw [rexpBits_runCounts_singleton, expandRuns, expandRuns, List.append_nil]
    | cons L' Ls =>
      rw [List.dropLast_cons_cons, List.forall_mem_cons] at hLs
      obtain ⟨hL, hrest⟩ := hLs
      rw [rexpBits_runCounts_cons_cons v hL, ih (!v) hrest]
      rfl

/-- How many runs but the last have a length that 127 divides. -/
def badRuns (Ls : List Nat) : Nat := Ls.dropLast.countP fun L => L % 127 = 0

/-- The decoded sequence is 127 bits too long for each bad run, whatever the values are (R151). -/
theorem length_rexpBits_runCounts (v w : Bool) (Ls : List Nat) :
    (rexpBits v ((runCounts Ls).map (BitVec.ofNat 8))).length = (expandRuns w Ls).length + 127 * badRuns Ls := by
  induction Ls generalizing v w with
  | nil => rfl
  | cons L Ls ih =>
    cases Ls with
    | nil => simp [rexpBits_runCounts_singleton, expandRuns, badRuns]
    | cons L' Ls =>
      by_cases hL : L % 127 = 0
      · have hbad : badRuns (L :: L' :: Ls) = badRuns (L' :: Ls) + 1 := List.countP_cons_of_pos (by simpa using hL)
        rw [rexpBits_runCounts_cons_cons_of_dvd v hL, expandRuns, List.length_append, List.length_append, ih v (!w),
          hbad, List.length_replicate, List.length_replicate]
        omega
      · have hbad : badRuns (L :: L' :: Ls) = badRuns (L' :: Ls) := List.countP_cons_of_neg (by simpa using hL)
        rw [rexpBits_runCounts_cons_cons v hL, expandRuns, List.length_append, List.length_append, ih (!v) (!w), hbad,
          List.length_replicate, List.length_replicate, Nat.add_assoc]

/-! ## The encoder's output -/

/-- The obstacles to the round trip: a first run of 1 bits, and the bad runs. -/
def obstacles (v : Bool) (Ls : List Nat) : Nat := (if v = true ∧ Ls ≠ [] then 1 else 0) + badRuns Ls

theorem obstacles_eq_zero {v : Bool} {Ls : List Nat} : obstacles v Ls = 0 ↔ RunLengthDomain v Ls := by
  have hbad : badRuns Ls = 0 ↔ ∀ L ∈ Ls.dropLast, L % 127 ≠ 0 := by simp [badRuns, List.countP_eq_zero]
  rw [obstacles, Nat.add_eq_zero_iff, hbad, RunLengthDomain, show Config.MAX = 127 from rfl]
  cases Ls <;> cases v <;> simp

/-- The decoded sequence is 127 bits too long for each obstacle (R151). -/
theorem length_rexpBits_rcompCounts (v : Bool) (Ls : List Nat) :
    (rexpBits false ((rcompCounts v Ls).map (BitVec.ofNat 8))).length =
      (expandRuns v Ls).length + 127 * obstacles v Ls := by
  rw [rcompCounts, obstacles, List.map_append]
  split
  · rw [List.map_singleton, List.singleton_append, rexpBits_escape, List.length_append,
      length_rexpBits_runCounts false v, List.length_replicate]
    omega
  · rw [List.map_nil, List.nil_append, length_rexpBits_runCounts false v, Nat.zero_add]

theorem rexpBits_rcompCounts {v : Bool} {Ls : List Nat} (h : RunLengthDomain v Ls) :
    rexpBits false ((rcompCounts v Ls).map (BitVec.ofNat 8)) = expandRuns v Ls := by
  rcases h with rfl | ⟨rfl, hLs⟩
  · cases v <;> rfl
  · exact rexpBits_runCounts false Ls hLs

/-- Outside the domain the decoded sequence is longer than the bit sequence. -/
theorem runLengthDomain_of_length_le {v : Bool} {Ls : List Nat}
    (h : (rexpBits false ((rcompCounts v Ls).map (BitVec.ofNat 8))).length ≤ (expandRuns v Ls).length) :
    RunLengthDomain v Ls := by
  rw [length_rexpBits_rcompCounts] at h
  exact obstacles_eq_zero.1 (by omega)

theorem rexpBits_rcompCounts_eq_iff (v : Bool) (Ls : List Nat) :
    rexpBits false ((rcompCounts v Ls).map (BitVec.ofNat 8)) = expandRuns v Ls ↔ RunLengthDomain v Ls :=
  ⟨fun h => runLengthDomain_of_length_le (h ▸ le_rfl), rexpBits_rcompCounts⟩

/-! ## Whole bytes -/

/-- Whole bytes are the output exactly where their bits are the padded output bits (20_memory.md R70, R71). -/
theorem packBytes_padToByte_eq_iff {bits : List Bool} {bs : List Byte} :
    packBytes (padToByte bits) = bs ↔ padToByte bits = bytesBits bs := by
  have hwhole : (padToByte bits).length % 8 = 0 := by
    rw [padToByte, List.length_append, List.length_replicate]
    omega
  refine ⟨fun h => ?_, fun h => by rw [h, packBytes_bytesBits]⟩
  rw [← h, bytesBits_packBytes (Nat.mul_div_cancel' (Nat.dvd_of_mod_eq_zero hwhole)).symm]

/-- For whole bytes the padding does not hide an obstacle. -/
theorem packBytes_rexpBits_eq_iff {v : Bool} {Ls : List Nat} {b : List Byte} (hb : bytesBits b = expandRuns v Ls) :
    packBytes (padToByte (rexpBits false ((rcompCounts v Ls).map (BitVec.ofNat 8)))) = b ↔ RunLengthDomain v Ls := by
  rw [packBytes_padToByte_eq_iff, hb]
  constructor
  · intro h
    apply runLengthDomain_of_length_le
    rw [← h, padToByte, List.length_append]
    exact Nat.le_add_right _ _
  · intro h
    rw [rexpBits_rcompCounts h, ← hb, padToByte_of_whole (by rw [length_bytesBits, Nat.mul_mod_right])]

end Sys2Proof.Machine

open Sys2Proof Sys2Proof.Machine

/-- Settles O60: the closed form of the encoder's counts, given to the decoder function. -/
theorem runLengthRoundTripExactlyOnItsDomain : Obligations.RunLengthRoundTripExactlyOnItsDomain := by
  refine ⟨fun v Ls _ => rexpBits_rcompCounts_eq_iff v Ls, fun caps s b v Ls hs hsched hLs hruns => ?_⟩
  obtain ⟨t, hreach, hhost, hdone, -, hobits, -, -, -⟩ := rcompWritesTheClosedForm caps s b v Ls hs hsched hLs hruns
  have hbytes : t.outBytes = (rcompCounts v Ls).map (BitVec.ofNat 8) := by
    rw [State.outBytes, hobits, flatMap_bitsOf_eight, packBytes_bytesBits]
  refine ⟨t, hreach, hhost, hdone, fun s' hs' hsched' => ?_⟩
  rw [hbytes] at hsched'
  obtain ⟨u, hreach', hhost', hdone', -, hobits', -, -, -⟩ := rexpComputesTheDecoderFunction caps s' _ hs' hsched'
  refine ⟨u, hreach', hhost', hdone', ?_⟩
  rw [State.outBytes, hobits']
  exact packBytes_rexpBits_eq_iff hruns

end

section
/-! The dictionary encoder by its phase table (42_dict_encoder.md R161 to R171): how it starts, and what each row answers,
once per branch. -/

namespace Sys2Proof.Machine

section
variable {s : State}

/-! ## The rows of the phase table (R160) -/

section
variable (caps : Config.Caps) (hb : s.status = .busy)
include hb

theorem engineStep_dLoad (hp : s.phase = .dLoad) : engineStep caps s = dLoad caps s := by
  rw [engineStep, if_neg (not_not.2 hb), hp]

theorem engineStep_dCalc (hp : s.phase = .dCalc) : engineStep caps s = dCalc s := by
  rw [engineStep, if_neg (not_not.2 hb), hp]

theorem engineStep_dHdr (hp : s.phase = .dHdr) : engineStep caps s = dHdr s := by
  rw [engineStep, if_neg (not_not.2 hb), hp]

theorem engineStep_dDict (hp : s.phase = .dDict) : engineStep caps s = dDict s := by
  rw [engineStep, if_neg (not_not.2 hb), hp]

theorem engineStep_dCode (hp : s.phase = .dCode) : engineStep caps s = dCode s := by
  rw [engineStep, if_neg (not_not.2 hb), hp]

end

/-! ## Whole bytes of input -/

/-- At a byte boundary `InBits(8)` gives that byte's bits (20_memory.md R63, R66). -/
theorem inBits_byte {k : Nat} (hk : k < s.inBytes.length) (hi : s.ipos = 8 * k) :
    inBits 8 s = some (byteBits s.inBytes[k], s.advance 8) :=
  inBits_eq_some.2 ⟨by omega, by rw [hi, map_inBit_eq_byteBits hk], rfl⟩

theorem ofNat_natOf_byteBits (b : Byte) : BitVec.ofNat 8 (natOf (byteBits b)) = b := by
  rw [byteBits, natOf_bitsOf_of_lt b.isLt, BitVec.ofNat_toNat, BitVec.setWidth_eq]

/-! ## `D_LOAD` (R162 to R164) -/

/-- A byte that is there is read, and checked against the capacity before it is stored and tracked. -/
theorem dLoad_byte (caps : Config.Caps) {k : Nat} (hk : k < s.inBytes.length) (hi : s.ipos = 8 * k) :
    dLoad caps s =
      if atCap caps.msgCap s.length then raise .capacity (s.advance 8)
      else dTrack s.inBytes[k] (dStore s.inBytes[k] (s.advance 8)) := by
  rw [dLoad, inEmpty_of_lt (by omega), if_neg Bool.false_ne_true, inBits_byte hk hi]
  simp only [ofNat_natOf_byteBits, advance_length]

theorem dLoad_end (caps : Config.Caps) (hend : s.inEnd = true) (hi : s.ipos = 8 * s.inBytes.length) :
    dLoad caps s = .next (s.setPhase .dCalc) :=
  if_pos (inEmpty_iff.2 ⟨hend, hi⟩)

/-- With all supplied bytes read and the input not ended the engine waits (44_control.md R224). -/
theorem dLoad_wait (caps : Config.Caps) (hend : s.inEnd = false) (hi : s.ipos = 8 * s.inBytes.length) :
    dLoad caps s = .next s := by
  have hempty : ¬ s.inEmpty = true := fun h => Bool.false_ne_true (hend.symm.trans (inEmpty_iff.1 h).1)
  have hnone : inBits 8 s = none := inBits_eq_none.2 (by omega)
  rw [dLoad, if_neg hempty, hnone]
  exact (onShort_eq s).trans (by rw [hend]; rfl)

/-- A value met before is stored and nothing more. -/
theorem dLoad_seen (caps : Config.Caps) {k : Nat} (hk : k < s.inBytes.length) (hi : s.ipos = 8 * k)
    (hcap : ¬ atCap caps.msgCap s.length = true) (hseen : Table.read s.seen s.inBytes[k].toNat ≠ 0#1) :
    dLoad caps s = .next (dStore s.inBytes[k] (s.advance 8)) := by
  rw [dLoad_byte caps hk hi, if_neg hcap]
  exact if_neg hseen

/-- A value met for the first time is stored and takes a code, if one is left. -/
theorem dLoad_unseen (caps : Config.Caps) {k : Nat} (hk : k < s.inBytes.length) (hi : s.ipos = 8 * k)
    (hcap : ¬ atCap caps.msgCap s.length = true) (hseen : Table.read s.seen s.inBytes[k].toNat = 0#1)
    (hu : s.unique.toNat < 256) :
    dLoad caps s = .next (dAssign s.inBytes[k] (dStore s.inBytes[k] (s.advance 8))) := by
  rw [dLoad_byte caps hk hi, if_neg hcap]
  exact (if_pos hseen).trans (withEntry_lt hu)

/-- The code given is `unique`, and `unique` moves on. -/
theorem dAssign_eq (b : Byte) (s : State) :
    dAssign b s =
      { s with
        seen := Table.write s.seen b.toNat 1#1, dict := Table.write s.dict s.unique.toNat b,
        idx := Table.write s.idx b.toNat (BitVec.ofNat 8 s.unique.toNat),
        unique := BitVec.ofNat 9 (s.unique.toNat + 1) } := by
  rw [BitVec.ofNat_add, BitVec.ofNat_toNat, BitVec.ofNat_toNat, BitVec.setWidth_eq]
  rfl

/-! ## `D_CALC` (R166, R167) -/

/-- The computed width fits the register `cw`: it is at most 8. -/
theorem toNat_dWidths_cw (hu : s.unique.toNat ≤ 256) : (dWidths s).cw.toNat = codeWidth s.unique.toNat := by
  have hcw := codeWidth_le_eight hu
  rw [dWidths_cw, BitVec.toNat_ofNat, Nat.mod_eq_of_lt (by omega)]

theorem toNat_dWidths_rem (s : State) :
    (dWidths s).rem.toNat = remainder (codeWidth s.unique.toNat) s.length := by
  rw [dWidths_rem, BitVec.toNat_ofNat, Nat.mod_eq_of_lt (remainder_lt _ _)]

/-! ## `D_HDR` (R168, R169) -/

theorem dHdr_open (hopen : s.closed = false) :
    dHdr s = .next
      { s with
        obits := s.obits ++ (bitsOf 3 s.rem.toNat ++ bitsOf 8 (storedUnique s.unique.toNat)), j := 0,
        phase := .dDict } := by
  have hrem : outBits 3 s.rem.toNat s = .next (s.emit (bitsOf 3 s.rem.toNat)) :=
    outBits_open (by decide) (by decide) s.rem.isLt hopen
  have hunique (bs : List Bool) : outBits 8 (storedUnique (s.emit bs).unique.toNat) (s.emit bs) =
      .next ((s.emit bs).emit (bitsOf 8 (storedUnique s.unique.toNat))) :=
    outBits_open (by decide) (by decide) (Nat.mod_lt _ (by decide)) hopen
  rw [dHdr, hrem, andThen_next, hunique, andThen_next, ← List.append_assoc]
  rfl

/-! ## `D_DICT` (R170) -/

theorem dDict_entry (hopen : s.closed = false) (hu : s.unique.toNat ≤ 256) (hj : s.j < s.unique.toNat) :
    dDict s = .next { s with obits := s.obits ++ byteBits (Table.read s.dict s.j), j := s.j + 1 } := by
  rw [dDict, if_pos hj, withEntry_lt (by omega), outBits_open (by decide) (by decide) (BitVec.isLt _) hopen, andThen_next]
  rfl

theorem dDict_end (hj : ¬ s.j < s.unique.toNat) : dDict s = .next { s with j := 0, phase := .dCode } := if_neg hj

/-! ## `D_CODE` (R171) -/

theorem dCode_code (hopen : s.closed = false) (h1 : 1 ≤ s.cw.toNat) (h8 : s.cw.toNat ≤ 8)
    (hfits : (Table.read s.idx (Table.read s.msg s.j).toNat).toNat < 2 ^ s.cw.toNat) (hj : s.j < s.length) :
    dCode s = .next
      { s with
        obits := s.obits ++ bitsOf s.cw.toNat (Table.read s.idx (Table.read s.msg s.j).toNat).toNat, j := s.j + 1 } := by
  rw [dCode, if_pos hj, outBits_open h1 (by omega) hfits hopen, andThen_next]
  rfl

theorem dCode_end (hj : ¬ s.j < s.length) : dCode s = .next { s with phase := .dClose } := if_neg hj

end

end Sys2Proof.Machine

open Sys2Proof Sys2Proof.Machine

/-- Settles O2: six closed words, decoded. -/
theorem wordsReadAsTheSpecEncodesThem : Obligations.WordsReadAsTheSpecEncodesThem := by
  unfold Obligations.WordsReadAsTheSpecEncodesThem
  decide

/-- Settles O15: with no engine running the START is accepted. -/
theorem dcompStartsTheDictionaryEncoder : Obligations.DcompStartsTheDictionaryEncoder := by
  intro s hs
  refine ⟨?_, Table.read_nil⟩
  rw [exec, execDcomp, startEngine_accepted hs]
  rfl

/-- Settles O35: the capacity check, then the two ways of the tracker; and the end test. -/
theorem dLoadStoresAndTracksAByte : Obligations.DLoadStoresAndTracksAByte := by
  refine ⟨fun caps s b hb hp hmod hbyte => ?_, fun caps s hb hp hend hi => ?_⟩
  · obtain ⟨hk, rfl⟩ := List.getElem?_eq_some_iff.1 hbyte
    have hi : s.ipos = 8 * (s.ipos / 8) := by omega
    rw [engineStep_dLoad caps hb hp]
    split_ifs with hcap hseen
    · refine ⟨(s.advance 8).abort .capacity, ?_, rfl, rfl, rfl, rfl⟩
      rw [dLoad_byte caps hk hi, if_pos hcap, raise_eq]
    · intro hu
      rw [dLoad_unseen caps hk hi hcap hseen hu, dAssign_eq]
      rfl
    · exact dLoad_seen caps hk hi hcap hseen
  · rw [engineStep_dLoad caps hb hp, dLoad_end caps hend hi]
    rfl

/-- Settles O36: both values fit their registers. -/
theorem dCalcComputesWidthAndRemainder : Obligations.DCalcComputesWidthAndRemainder := by
  intro caps s hb hp hu
  have hcw := toNat_dWidths_cw hu
  refine ⟨(dWidths s).cw, (dWidths s).rem, engineStep_dCalc caps hb hp, hcw, ?_⟩
  rw [hcw]
  exact toNat_dWidths_rem s

/-- Settles O37: the two fields together are the header's encoding. -/
theorem dHdrWritesTheHeader : Obligations.DHdrWritesTheHeader := by
  intro caps s hb hp hopen
  rw [engineStep_dHdr caps hb hp, dHdr_open hopen, encode, BitVec.toNat_ofNat, Nat.mod_mod]
  rfl

/-- Settles O38: an entry is there below `unique`, and every entry below 256 exists. -/
theorem dDictWritesOneEntry : Obligations.DDictWritesOneEntry := by
  intro caps s hb hp hopen hu
  rw [engineStep_dDict caps hb hp]
  split
  next hj => exact dDict_entry hopen hu hj
  next hj => exact dDict_end hj

/-- Settles O39: a code is there below `length`, and it fits the width. -/
theorem dCodeWritesOneCode : Obligations.DCodeWritesOneCode := by
  intro caps s hb hp hopen h1 h8 hfits
  rw [engineStep_dCode caps hb hp]
  split
  next hj => exact dCode_code hopen h1 h8 hfits hj
  next hj => exact dCode_end hj

end

section
/-! `DCOMP` writes the dictionary stream (42_dict_encoder.md R173). The tables hold the bytes read so far, their distinct
values in first-occurrence order and their codes; each later phase appends its part of the stream of 30_encoding.md R98. -/

namespace Sys2Proof.Machine

/-! ## The dictionary of a message (10_state.md R34) -/

theorem firstOccurrences_concat (bs : List Byte) (b : Byte) :
    firstOccurrences (bs ++ [b]) =
      if b ∈ firstOccurrences bs then firstOccurrences bs else firstOccurrences bs ++ [b] := by
  rw [firstOccurrences, List.foldl_append]
  rfl

theorem firstOccurrences_concat_of_mem {bs : List Byte} {b : Byte} (h : b ∈ firstOccurrences bs) :
    firstOccurrences (bs ++ [b]) = firstOccurrences bs := by
  rw [firstOccurrences_concat, if_pos h]

theorem firstOccurrences_concat_of_notMem {bs : List Byte} {b : Byte} (h : b ∉ firstOccurrences bs) :
    firstOccurrences (bs ++ [b]) = firstOccurrences bs ++ [b] := by
  rw [firstOccurrences_concat, if_neg h]

theorem nodup_firstOccurrences (bs : List Byte) : (firstOccurrences bs).Nodup := by
  induction bs using List.reverseRecOn with
  | nil => exact List.nodup_nil
  | append_singleton bs b ih =>
    by_cases h : b ∈ firstOccurrences bs
    · rwa [firstOccurrences_concat_of_mem h]
    · rw [firstOccurrences_concat_of_notMem h]
      exact List.concat_eq_append ▸ ih.concat h

theorem mem_firstOccurrences {bs : List Byte} {b : Byte} : b ∈ firstOccurrences bs ↔ b ∈ bs := by
  induction bs using List.reverseRecOn with
  | nil => exact Iff.rfl
  | append_singleton bs c ih =>
    rw [List.mem_append, List.mem_singleton, ← ih]
    by_cases h : c ∈ firstOccurrences bs
    · rw [firstOccurrences_concat_of_mem h]
      exact ⟨.inl, fun hb => hb.elim id fun hc => hc ▸ h⟩
    · rw [firstOccurrences_concat_of_notMem h, List.mem_append, List.mem_singleton]

/-- There are 256 byte values (42_dict_encoder.md R165). -/
theorem length_firstOccurrences_le (bs : List Byte) : (firstOccurrences bs).length ≤ 256 := by
  have hnodup : ((firstOccurrences bs).map BitVec.toNat).Nodup :=
    (nodup_firstOccurrences bs).map fun _ _ => BitVec.eq_of_toNat_eq
  have hrange : (firstOccurrences bs).map BitVec.toNat ⊆ List.range 256 := fun v hv => by
    obtain ⟨b, -, rfl⟩ := List.mem_map.1 hv
    exact List.mem_range.2 b.isLt
  simpa using (hnodup.subperm hrange).length_le

/-- A value not met before leaves room for its code (42_dict_encoder.md R163). -/
theorem length_firstOccurrences_lt {bs : List Byte} {b : Byte} (h : b ∉ firstOccurrences bs) :
    (firstOccurrences bs).length < 256 := by
  have hle := length_firstOccurrences_le (bs ++ [b])
  rw [firstOccurrences_concat_of_notMem h, List.length_append] at hle
  exact hle

/-! ## What the tables hold (R162, R163) -/

/-- The entries of `t` from 0 on are the bytes `bs`. -/
def Lists (t : Memory) (bs : List Byte) : Prop := ∀ k (h : k < bs.length), Table.read t k = bs[k]

theorem lists_nil (t : Memory) : Lists t [] := fun _ h => absurd h (Nat.not_lt_zero _)

/-- The entry behind the bytes takes one byte more. -/
theorem Lists.concat {t : Memory} {bs : List Byte} (h : Lists t bs) (hw : Memory.wf t) (b : Byte) :
    Lists (Table.write t bs.length b) (bs ++ [b]) := by
  intro k hk
  rw [List.length_append, List.length_singleton] at hk
  rcases Nat.lt_succ_iff_lt_or_eq.1 hk with hlt | rfl
  · rw [Table.read_write_other _ _ hlt.ne, h k hlt, List.getElem_append_left hlt]
  · rw [Table.read_write_same hw, List.getElem_concat_length rfl]

/-- The message buffer holds the bytes `bs`. -/
structure Stored (bs : List Byte) (msg : Memory) (length : Nat) : Prop where
  msg_wf : Memory.wf msg
  length_eq : length = bs.length
  lists : Lists msg bs

theorem stored_nil {msg : Memory} (h : Memory.wf msg) : Stored [] msg 0 := ⟨h, rfl, lists_nil msg⟩

theorem Stored.concat {bs : List Byte} {msg : Memory} {length : Nat} (h : Stored bs msg length) (b : Byte) :
    Stored (bs ++ [b]) (Table.write msg length b) (length + 1) := by
  obtain ⟨hwf, rfl, hlists⟩ := h
  exact ⟨Table.write_wf hwf _ _, by simp, hlists.concat hwf b⟩

/-- The tracker's tables hold the dictionary `d`: its values are the seen ones, and a value's code is its place. -/
structure Tracked (d : List Byte) (seen : Table 1) (dict idx : Memory) (unique : BitVec 9) : Prop where
  seen_wf : Table.wf seen
  dict_wf : Memory.wf dict
  idx_wf : Memory.wf idx
  unique_eq : unique.toNat = d.length
  seen_iff : ∀ b : Byte, Table.read seen b.toNat ≠ 0#1 ↔ b ∈ d
  lists : Lists dict d
  read_idx : ∀ b ∈ d, (Table.read idx b.toNat).toNat = d.idxOf b

theorem tracked_nil {dict idx : Memory} (hd : Memory.wf dict) (hi : Memory.wf idx) : Tracked [] [] dict idx 0#9 where
  seen_wf := Table.wf_nil
  dict_wf := hd
  idx_wf := hi
  unique_eq := rfl
  seen_iff _ := by simp
  lists := lists_nil dict
  read_idx _ h := absurd h List.not_mem_nil

/-- A value met for the first time is listed behind the others (R163). -/
theorem Tracked.concat {d : List Byte} {seen : Table 1} {dict idx : Memory} {unique : BitVec 9}
    (h : Tracked d seen dict idx unique) {b : Byte} (hb : b ∉ d) (hlt : d.length < 256) :
    Tracked (d ++ [b]) (Table.write seen b.toNat 1#1) (Table.write dict unique.toNat b)
      (Table.write idx b.toNat (unique.setWidth 8)) (unique + 1#9) := by
  obtain ⟨hseenwf, hdictwf, hidxwf, hunique, hseen, hdict, hidx⟩ := h
  refine ⟨Table.write_wf hseenwf _ _, Table.write_wf hdictwf _ _, Table.write_wf hidxwf _ _, ?unique, ?seen,
    hunique ▸ hdict.concat hdictwf b, ?code⟩
  case unique =>
    rw [BitVec.toNat_add, hunique, List.length_append]
    exact Nat.mod_eq_of_lt (by simp; omega)
  case seen =>
    intro c
    rw [List.mem_append, List.mem_singleton]
    by_cases hc : c = b
    · subst hc
      rw [Table.read_write_same hseenwf]
      exact iff_of_true (by decide) (.inr rfl)
    · rw [Table.read_write_other _ _ fun h => hc (BitVec.eq_of_toNat_eq h), hseen, or_iff_left hc]
  case code =>
    intro c hc
    rcases List.mem_append.1 hc with hold | hnew
    · have hne : c ≠ b := fun h => hb (h ▸ hold)
      rw [Table.read_write_other _ _ fun h => hne (BitVec.eq_of_toNat_eq h), hidx c hold,
        List.idxOf_append_of_mem hold]
    · obtain rfl := List.mem_singleton.1 hnew
      rw [Table.read_write_same hidxwf, BitVec.toNat_setWidth, hunique, Nat.mod_eq_of_lt hlt,
        List.idxOf_append_of_notMem hb, List.idxOf_cons_self, Nat.add_zero]

/-! ## The stream and its parts (30_encoding.md R98) -/

/-- The remainder and the stored `unique` (30_encoding.md R99). -/
def dictHeader (m : List Byte) : List Bool :=
  bitsOf 3 (remainder (codeWidth (firstOccurrences m).length) m.length) ++
    bitsOf 8 (storedUnique (firstOccurrences m).length)

/-- The codes of the bytes `bs` in the dictionary `d` (30_encoding.md R102). -/
def codesOf (d bs : List Byte) : List Bool := bs.flatMap fun b => bitsOf (codeWidth d.length) (d.idxOf b)

theorem dictStream_eq (m : List Byte) :
    dictStream m = dictHeader m ++ bytesBits (firstOccurrences m) ++ codesOf (firstOccurrences m) m := rfl

theorem bytesBits_concat (bs : List Byte) (b : Byte) : bytesBits (bs ++ [b]) = bytesBits bs ++ byteBits b := by
  simp [bytesBits]

theorem codesOf_concat (d bs : List Byte) (b : Byte) :
    codesOf d (bs ++ [b]) = codesOf d bs ++ bitsOf (codeWidth d.length) (d.idxOf b) := by
  simp [codesOf]

theorem length_codesOf (d bs : List Byte) : (codesOf d bs).length = codeWidth d.length * bs.length := by
  simp [codesOf, List.length_flatMap, Nat.mul_comm]

/-- `T` of R173. -/
theorem length_dictStream (m : List Byte) :
    (dictStream m).length =
      codeAddr (firstOccurrences m).length (codeWidth (firstOccurrences m).length) m.length := by
  simp only [dictStream_eq, dictHeader, List.length_append, length_bitsOf, length_bytesBits, length_codesOf, codeAddr]

theorem length_padToByte (bits : List Bool) : (padToByte bits).length = bits.length + padOf (bits.length % 8) := by
  simp [padToByte, padOf]

end Sys2Proof.Machine

end

section
/-! A run of `DCOMP` phase by phase (42_dict_encoder.md R162 to R173), on the tables and the stream's parts of the section
before. -/

namespace Sys2Proof.Machine

/-! ## The phases of a run -/

/-- In `D_LOAD` the bytes `bs` have been read, and nothing has been written. -/
structure LoadPhase (bs : List Byte) (s : State) : Prop where
  busy : s.status = .busy
  phase : s.phase = .dLoad
  output_open : s.closed = false
  err : s.err = .none
  obits_eq : s.obits = []
  read_prefix : bs <+: s.inBytes
  ipos_eq : s.ipos = 8 * bs.length
  stored : Stored bs s.msg s.length
  tracked : Tracked (firstOccurrences bs) s.seen s.dict s.idx s.unique

/-- In a later phase `p` the whole message has been read, and `bits` have been written. -/
structure WritePhase (m : List Byte) (p : Phase) (bits : List Bool) (s : State) : Prop where
  busy : s.status = .busy
  phase : s.phase = p
  output_open : s.closed = false
  err : s.err = .none
  input_ended : s.inEnd = true
  obits_eq : s.obits = bits
  stored : Stored m s.msg s.length
  tracked : Tracked (firstOccurrences m) s.seen s.dict s.idx s.unique

/-- From `D_HDR` on `cw` and `rem` hold R166's and R167's values. -/
structure Widths (m : List Byte) (s : State) : Prop where
  cw_eq : s.cw.toNat = codeWidth (firstOccurrences m).length
  rem_eq : s.rem.toNat = remainder (codeWidth (firstOccurrences m).length) m.length

/-- The run has written the stream and closed the output. -/
structure DcompDone (m : List Byte) (s : State) : Prop where
  done : s.status = .done
  phase : s.phase = .halt
  err : s.err = .none
  input_ended : s.inEnd = true
  obits_eq : s.obits = padToByte (dictStream m)
  stored : Stored m s.msg s.length
  tracked : Tracked (firstOccurrences m) s.seen s.dict s.idx s.unique
  widths : Widths m s

/-- Where a run of `DCOMP` stands. -/
inductive DcompRun (m : List Byte) (s : State) : Prop
  | load (bs : List Byte) (h : LoadPhase bs s)
  | widths (h : WritePhase m .dCalc [] s)
  | header (h : WritePhase m .dHdr [] s) (hw : Widths m s)
  | entries (h : WritePhase m .dDict (dictHeader m ++ bytesBits ((firstOccurrences m).take s.j)) s) (hw : Widths m s)
  | codes
      (h : WritePhase m .dCode
        (dictHeader m ++ bytesBits (firstOccurrences m) ++ codesOf (firstOccurrences m) (m.take s.j)) s)
      (hw : Widths m s)
  | close (h : WritePhase m .dClose (dictStream m) s) (hw : Widths m s)
  | done (h : DcompDone m s)

/-- A bound of the steps a run has left once its input has ended. A byte to load counts for eight, and adds at most an entry
and a code to what is to be written. -/
def dcompLeft (s : State) : Nat :=
  match s.phase with
  | .dLoad => 8 * s.inBytes.length - s.ipos + s.unique.toNat + s.length + 6
  | .dCalc => s.unique.toNat + s.length + 5
  | .dHdr => s.unique.toNat + s.length + 4
  | .dDict => s.unique.toNat - s.j + s.length + 3
  | .dCode => s.length - s.j + 2
  | .dClose => 1
  | _ => 0

section
variable {s : State}

theorem dcompLeft_of_dLoad (h : s.phase = .dLoad) :
    dcompLeft s = 8 * s.inBytes.length - s.ipos + s.unique.toNat + s.length + 6 := by rw [dcompLeft, h]

theorem dcompLeft_of_dCalc (h : s.phase = .dCalc) : dcompLeft s = s.unique.toNat + s.length + 5 := by
  rw [dcompLeft, h]

theorem dcompLeft_of_dHdr (h : s.phase = .dHdr) : dcompLeft s = s.unique.toNat + s.length + 4 := by
  rw [dcompLeft, h]

theorem dcompLeft_of_dDict (h : s.phase = .dDict) : dcompLeft s = s.unique.toNat - s.j + s.length + 3 := by
  rw [dcompLeft, h]

theorem dcompLeft_of_dCode (h : s.phase = .dCode) : dcompLeft s = s.length - s.j + 2 := by rw [dcompLeft, h]

theorem dcompLeft_of_dClose (h : s.phase = .dClose) : dcompLeft s = 1 := by rw [dcompLeft, h]

theorem dcompLeft_of_halt (h : s.phase = .halt) : dcompLeft s = 0 := by rw [dcompLeft, h]

end

/-- What a step of a run answers. -/
def StepsOn (m : List Byte) (s : State) (o : Res) : Prop :=
  ∃ t, o = .next t ∧ DcompRun m t ∧ SameFeed s t ∧ (s.inEnd = true → dcompLeft t < dcompLeft s)

section
variable {m bs : List Byte} {p : Phase} {bits : List Bool} {s : State}

/-! ## The host's turns -/

theorem LoadPhase.setHost (turns : List HostTurn) (h : LoadPhase bs s) : LoadPhase bs (s.setHost turns) := by
  obtain ⟨hb, hp, hopen, herr, hobits, hread, hipos, hstored, htracked⟩ := h
  exact ⟨hb, hp, hopen, herr, hobits, hread, hipos, hstored, htracked⟩

theorem LoadPhase.addInput (b : Byte) (h : LoadPhase bs s) : LoadPhase bs (s.addInput b) := by
  obtain ⟨hb, hp, hopen, herr, hobits, hread, hipos, hstored, htracked⟩ := h
  exact ⟨hb, hp, hopen, herr, hobits, hread.trans (List.prefix_append _ _), hipos, hstored, htracked⟩

theorem LoadPhase.endInput (h : LoadPhase bs s) : LoadPhase bs s.endInput := by
  obtain ⟨hb, hp, hopen, herr, hobits, hread, hipos, hstored, htracked⟩ := h
  exact ⟨hb, hp, hopen, herr, hobits, hread, hipos, hstored, htracked⟩

theorem WritePhase.setHost (turns : List HostTurn) (h : WritePhase m p bits s) :
    WritePhase m p bits (s.setHost turns) := by
  obtain ⟨hb, hp, hopen, herr, hend, hobits, hstored, htracked⟩ := h
  exact ⟨hb, hp, hopen, herr, hend, hobits, hstored, htracked⟩

theorem Widths.setHost (turns : List HostTurn) (hw : Widths m s) : Widths m (s.setHost turns) :=
  ⟨hw.cw_eq, hw.rem_eq⟩

theorem DcompDone.setHost (turns : List HostTurn) (h : DcompDone m s) : DcompDone m (s.setHost turns) := by
  obtain ⟨hd, hp, herr, hend, hobits, hstored, htracked, hw⟩ := h
  exact ⟨hd, hp, herr, hend, hobits, hstored, htracked, hw.setHost turns⟩

theorem DcompRun.setHost (turns : List HostTurn) (hI : DcompRun m s) : DcompRun m (s.setHost turns) := by
  cases hI with
  | load bs h => exact .load bs (h.setHost turns)
  | widths h => exact .widths (h.setHost turns)
  | header h hw => exact .header (h.setHost turns) (hw.setHost turns)
  | entries h hw => exact .entries (h.setHost turns) (hw.setHost turns)
  | codes h hw => exact .codes (h.setHost turns) (hw.setHost turns)
  | close h hw => exact .close (h.setHost turns) (hw.setHost turns)
  | done h => exact .done (h.setHost turns)

/-- While the input is open the engine loads. -/
theorem DcompRun.exists_loadPhase_of_open (hI : DcompRun m s) (hopen : s.inEnd = false) : ∃ bs, LoadPhase bs s := by
  have hclosed (hend : s.inEnd = true) : ∃ bs, LoadPhase bs s := absurd (hopen.symm.trans hend) Bool.false_ne_true
  cases hI with
  | load bs h => exact ⟨bs, h⟩
  | widths h => exact hclosed h.input_ended
  | header h _ => exact hclosed h.input_ended
  | entries h _ => exact hclosed h.input_ended
  | codes h _ => exact hclosed h.input_ended
  | close h _ => exact hclosed h.input_ended
  | done h => exact hclosed h.input_ended

/-! ## `D_LOAD` (R162 to R164) -/

/-- A message within the capacity is never turned away. -/
theorem LoadPhase.not_atCap (h : LoadPhase bs s) (hk : bs.length < s.inBytes.length) (hprefix : s.inBytes <+: m)
    {cap : Option Nat} (hcap : ∀ c, cap = some c → m.length ≤ c) : ¬ atCap cap s.length = true := by
  have hlen := h.stored.length_eq
  have hle := hprefix.length_le
  cases cap with
  | none => exact Bool.false_ne_true
  | some c =>
    have hc := hcap c rfl
    rw [atCap_some, decide_eq_true_eq]
    omega

/-- A byte is stored, and the tables go on to the dictionary with it. -/
theorem LoadPhase.store (h : LoadPhase bs s) (hk : bs.length < s.inBytes.length) {seen : Table 1} {dict idx : Memory}
    {unique : BitVec 9} (ht : Tracked (firstOccurrences (bs ++ [s.inBytes[bs.length]])) seen dict idx unique) :
    LoadPhase (bs ++ [s.inBytes[bs.length]])
      { dStore s.inBytes[bs.length] (s.advance 8) with seen := seen, dict := dict, idx := idx, unique := unique } := by
  obtain ⟨hb, hp, hopen, herr, hobits, hread, hipos, hstored, -⟩ := h
  refine ⟨hb, hp, hopen, herr, hobits, List.concat_get_prefix hread hk, ?_, hstored.concat _, ht⟩
  rw [List.length_append, Nat.mul_add, ← hipos]
  rfl

/-- Each byte that is there is loaded: where it was met before, the dictionary stays, else it is listed behind the
others. -/
theorem LoadPhase.exists_next_of_byte (caps : Config.Caps) (h : LoadPhase bs s) (hk : bs.length < s.inBytes.length)
    (hcap : ¬ atCap caps.msgCap s.length = true) :
    ∃ t, dLoad caps s = .next t ∧ LoadPhase (bs ++ [s.inBytes[bs.length]]) t ∧ SameFeed s t := by
  have hseen := h.tracked.seen_iff s.inBytes[bs.length]
  by_cases hb : s.inBytes[bs.length] ∈ firstOccurrences bs
  · have ht := h.tracked
    rw [← firstOccurrences_concat_of_mem hb] at ht
    exact ⟨_, dLoad_seen caps hk h.ipos_eq hcap (hseen.2 hb), h.store hk ht, ⟨rfl, rfl, rfl⟩⟩
  · have hlt := length_firstOccurrences_lt hb
    have hu : s.unique.toNat < 256 := h.tracked.unique_eq ▸ hlt
    have ht := h.tracked.concat hb hlt
    rw [← firstOccurrences_concat_of_notMem hb] at ht
    exact ⟨_, dLoad_unseen caps hk h.ipos_eq hcap (not_not.1 (mt hseen.1 hb)) hu, h.store hk ht, ⟨rfl, rfl, rfl⟩⟩

/-- A byte takes eight bits from the input and brings at most one entry. -/
theorem LoadPhase.dcompLeft_lt {t : State} {b : Byte} (h : LoadPhase bs s) (ht : LoadPhase (bs ++ [b]) t)
    (hsame : SameFeed s t) : dcompLeft t < dcompLeft s := by
  have hentries : (firstOccurrences (bs ++ [b])).length ≤ (firstOccurrences bs).length + 1 := by
    rw [firstOccurrences_concat]
    split <;> simp
  have hle := ht.read_prefix.length_le
  have hipos := ht.ipos_eq
  have hlen := ht.stored.length_eq
  rw [List.length_append, List.length_singleton] at hle hipos hlen
  rw [dcompLeft_of_dLoad h.phase, dcompLeft_of_dLoad ht.phase, hsame.inBytes_eq, hlen, hipos, h.ipos_eq,
    h.stored.length_eq, h.tracked.unique_eq, ht.tracked.unique_eq]
  rw [hsame.inBytes_eq] at hle
  omega

/-- At the end of the input the whole message has been loaded. -/
theorem LoadPhase.writePhase (h : LoadPhase s.inBytes s) (hend : s.inEnd = true) (hall : s.inBytes = m) :
    WritePhase m .dCalc [] (s.setPhase .dCalc) := by
  subst hall
  obtain ⟨hb, -, hopen, herr, hobits, -, -, hstored, htracked⟩ := h
  exact ⟨hb, rfl, hopen, herr, hend, hobits, hstored, htracked⟩

theorem LoadPhase.stepsOn (caps : Config.Caps) (h : LoadPhase bs s) (hprefix : s.inBytes <+: m)
    (hall : s.inEnd = true → s.inBytes = m) (hcap : ∀ c, caps.msgCap = some c → m.length ≤ c) :
    StepsOn m s (dLoad caps s) := by
  rcases h.read_prefix.length_le.lt_or_eq with hk | heq
  · obtain ⟨t, hstep, ht, hsame⟩ := h.exists_next_of_byte caps hk (h.not_atCap hk hprefix hcap)
    exact ⟨t, hstep, .load _ ht, hsame, fun _ => h.dcompLeft_lt ht hsame⟩
  obtain rfl := h.read_prefix.eq_of_length heq
  cases hend : s.inEnd with
  | true =>
    have ht := h.writePhase hend (hall hend)
    refine ⟨_, dLoad_end caps hend h.ipos_eq, .widths ht, ⟨rfl, rfl, rfl⟩, fun _ => ?_⟩
    rw [dcompLeft_of_dLoad h.phase, dcompLeft_of_dCalc ht.phase, setPhase_unique, setPhase_length]
    omega
  | false =>
    exact ⟨s, dLoad_wait caps hend h.ipos_eq, .load _ h, SameFeed.refl s, fun hf => absurd (hend ▸ hf) Bool.false_ne_true⟩

/-! ## The later phases (R166 to R172) -/

theorem WritePhase.unique_le (h : WritePhase m p bits s) : s.unique.toNat ≤ 256 :=
  h.tracked.unique_eq ▸ length_firstOccurrences_le m

/-- A step that writes `more` and goes to the entry or code `k`. -/
theorem WritePhase.append (h : WritePhase m p bits s) {more bits' : List Bool} (hbits : bits ++ more = bits') (k : Nat) :
    WritePhase m p bits' { s with obits := s.obits ++ more, j := k } := by
  obtain ⟨hb, hp, hopen, herr, hend, hobits, hstored, htracked⟩ := h
  exact ⟨hb, hp, hopen, herr, hend, hbits ▸ congrArg (· ++ more) hobits, hstored, htracked⟩

/-- A step that goes to the phase `q` and the entry or code `k`. -/
theorem WritePhase.goto (h : WritePhase m p bits s) (q : Phase) (k : Nat) :
    WritePhase m q bits { s with j := k, phase := q } := by
  obtain ⟨hb, -, hopen, herr, hend, hobits, hstored, htracked⟩ := h
  exact ⟨hb, rfl, hopen, herr, hend, hobits, hstored, htracked⟩

theorem WritePhase.goto_dWidths (h : WritePhase m p bits s) (q : Phase) :
    WritePhase m q bits ((dWidths s).setPhase q) := by
  obtain ⟨hb, -, hopen, herr, hend, hobits, hstored, htracked⟩ := h
  exact ⟨hb, rfl, hopen, herr, hend, hobits, hstored, htracked⟩

theorem WritePhase.widths_dWidths (h : WritePhase m p bits s) (q : Phase) : Widths m ((dWidths s).setPhase q) where
  cw_eq := (toNat_dWidths_cw h.unique_le).trans (by rw [h.tracked.unique_eq])
  rem_eq := (toNat_dWidths_rem s).trans (by rw [h.tracked.unique_eq, h.stored.length_eq])

/-- R166, R167. -/
theorem WritePhase.stepsOn_dCalc (h : WritePhase m .dCalc [] s) : StepsOn m s (dCalc s) := by
  refine ⟨_, rfl, .header (h.goto_dWidths .dHdr) (h.widths_dWidths .dHdr), ⟨rfl, rfl, rfl⟩, fun _ => ?_⟩
  rw [dcompLeft_of_dCalc h.phase, dcompLeft_of_dHdr rfl]
  exact Nat.lt_succ_self _

/-- R168, R169. -/
theorem WritePhase.stepsOn_dHdr (h : WritePhase m .dHdr [] s) (hw : Widths m s) : StepsOn m s (dHdr s) := by
  have hheader : bitsOf 3 s.rem.toNat ++ bitsOf 8 (storedUnique s.unique.toNat) = dictHeader m := by
    rw [hw.rem_eq, h.tracked.unique_eq, dictHeader]
  have hbits : [] ++ dictHeader m = dictHeader m ++ bytesBits ((firstOccurrences m).take 0) :=
    (List.append_nil _).symm
  have hstep := dHdr_open h.output_open
  rw [hheader] at hstep
  refine ⟨_, hstep, .entries ((h.append hbits 0).goto .dDict 0) ⟨hw.cw_eq, hw.rem_eq⟩, ⟨rfl, rfl, rfl⟩, fun _ => ?_⟩
  rw [dcompLeft_of_dHdr h.phase, dcompLeft_of_dDict rfl]
  exact Nat.lt_succ_self _

/-- R170: the entry at `j` is the dictionary's. -/
theorem WritePhase.stepsOn_dDict
    (h : WritePhase m .dDict (dictHeader m ++ bytesBits ((firstOccurrences m).take s.j)) s) (hw : Widths m s) :
    StepsOn m s (dDict s) := by
  have hunique := h.tracked.unique_eq
  by_cases hj : s.j < s.unique.toNat
  · have hlt : s.j < (firstOccurrences m).length := hunique ▸ hj
    have hstep := dDict_entry h.output_open h.unique_le hj
    rw [h.tracked.lists s.j hlt] at hstep
    have hbits : dictHeader m ++ bytesBits ((firstOccurrences m).take s.j) ++ byteBits (firstOccurrences m)[s.j] =
        dictHeader m ++ bytesBits ((firstOccurrences m).take (s.j + 1)) := by
      rw [List.append_assoc, ← bytesBits_concat, List.take_concat_get' _ _ hlt]
    refine ⟨_, hstep, .entries (h.append hbits _) ⟨hw.cw_eq, hw.rem_eq⟩, ⟨rfl, rfl, rfl⟩, fun _ => ?_⟩
    rw [dcompLeft_of_dDict h.phase, dcompLeft_of_dDict (by exact h.phase)]
    dsimp only
    omega
  · have hbits := h
    rw [List.take_of_length_le (by omega), ← List.append_nil (_ ++ _)] at hbits
    refine ⟨_, dDict_end hj, .codes (hbits.goto .dCode 0) ⟨hw.cw_eq, hw.rem_eq⟩, ⟨rfl, rfl, rfl⟩, fun _ => ?_⟩
    rw [dcompLeft_of_dDict h.phase, dcompLeft_of_dCode rfl]
    dsimp only
    omega

/-- The code of a message byte is its place in the dictionary (R165). -/
theorem WritePhase.read_code (h : WritePhase m p bits s) (hj : s.j < m.length) :
    (Table.read s.idx (Table.read s.msg s.j).toNat).toNat = (firstOccurrences m).idxOf m[s.j] := by
  rw [h.stored.lists s.j hj, h.tracked.read_idx _ (mem_firstOccurrences.2 (List.getElem_mem hj))]

/-- R171: the code at `j` is that of the message byte, and it fits the code width. -/
theorem WritePhase.stepsOn_dCode
    (h : WritePhase m .dCode
      (dictHeader m ++ bytesBits (firstOccurrences m) ++ codesOf (firstOccurrences m) (m.take s.j)) s)
    (hw : Widths m s) : StepsOn m s (dCode s) := by
  have hlen := h.stored.length_eq
  have hcw := hw.cw_eq
  by_cases hj : s.j < s.length
  · have hlt : s.j < m.length := hlen ▸ hj
    have hcode := h.read_code hlt
    have hfits : (firstOccurrences m).idxOf m[s.j] < 2 ^ s.cw.toNat := by
      rw [hcw]
      exact (List.idxOf_lt_length_of_mem (mem_firstOccurrences.2 (List.getElem_mem hlt))).trans_le
        (le_two_pow_codeWidth _)
    have hstep := dCode_code h.output_open (hcw ▸ codeWidth_pos _)
      (hcw ▸ codeWidth_le_eight (length_firstOccurrences_le m)) (hcode ▸ hfits) hj
    rw [hcode, hcw] at hstep
    have hbits : dictHeader m ++ bytesBits (firstOccurrences m) ++ codesOf (firstOccurrences m) (m.take s.j) ++
          bitsOf (codeWidth (firstOccurrences m).length) ((firstOccurrences m).idxOf m[s.j]) =
        dictHeader m ++ bytesBits (firstOccurrences m) ++ codesOf (firstOccurrences m) (m.take (s.j + 1)) := by
      rw [List.append_assoc _ (codesOf _ _), ← codesOf_concat, List.take_concat_get' _ _ hlt]
    refine ⟨_, hstep, .codes (h.append hbits _) ⟨hw.cw_eq, hw.rem_eq⟩, ⟨rfl, rfl, rfl⟩, fun _ => ?_⟩
    rw [dcompLeft_of_dCode h.phase, dcompLeft_of_dCode (by exact h.phase)]
    dsimp only
    omega
  · have hbits := h
    rw [List.take_of_length_le (by omega), ← dictStream_eq] at hbits
    refine ⟨_, dCode_end hj, .close (hbits.goto .dClose s.j) ⟨hw.cw_eq, hw.rem_eq⟩, ⟨rfl, rfl, rfl⟩, fun _ => ?_⟩
    rw [dcompLeft_of_dCode h.phase, dcompLeft_of_dClose rfl]
    omega

/-- R172. -/
theorem WritePhase.stepsOn_dClose (h : WritePhase m .dClose (dictStream m) s) (hw : Widths m s) :
    StepsOn m s (complete s) := by
  obtain ⟨-, hp, -, herr, hend, hobits, hstored, htracked⟩ := h
  refine ⟨_, complete_eq_padToByte s, .done ?_, ⟨rfl, rfl, rfl⟩, fun _ => ?_⟩
  · exact ⟨rfl, rfl, herr, hend, congrArg padToByte hobits, hstored, htracked, hw.cw_eq, hw.rem_eq⟩
  · rw [dcompLeft_of_dClose hp, dcompLeft_of_halt rfl]
    exact Nat.one_pos

end

/-- The run of `DCOMP` on a message within the capacity. -/
theorem dcomp_runRule {caps : Config.Caps} {m : List Byte} (hcap : ∀ c, caps.msgCap = some c → m.length ≤ c) :
    RunRule caps m (DcompRun m) dcompLeft where
  setHost _ turns hI := hI.setHost turns
  addInput _ b hI hopen :=
    have ⟨bs, h⟩ := hI.exists_loadPhase_of_open hopen
    .load bs (h.addInput b)
  endInput _ hI hopen :=
    have ⟨bs, h⟩ := hI.exists_loadPhase_of_open hopen
    .load bs h.endInput
  busy _ hI hopen :=
    have ⟨_, h⟩ := hI.exists_loadPhase_of_open hopen
    h.busy
  step s hI hb hprefix hall := by
    cases hI with
    | load bs h => exact engineStep_dLoad caps hb h.phase ▸ h.stepsOn caps hprefix hall hcap
    | widths h => exact engineStep_dCalc caps hb h.phase ▸ h.stepsOn_dCalc
    | header h hw => exact engineStep_dHdr caps hb h.phase ▸ h.stepsOn_dHdr hw
    | entries h hw => exact engineStep_dDict caps hb h.phase ▸ h.stepsOn_dDict hw
    | codes h hw => exact engineStep_dCode caps hb h.phase ▸ h.stepsOn_dCode hw
    | close h hw => exact engineStep_dClose caps hb h.phase ▸ h.stepsOn_dClose hw
    | done h => exact absurd (hb.symm.trans h.done) (by decide)

/-- START of `DCOMP` opens a run that has read nothing (R161). -/
theorem dcomp_started (m : List Byte) {s : State} (ht : TablesOk s) (hs : s.status ≠ .busy) (turns : List HostTurn) :
    ∃ t, runCommand 0x00#8 (s.setHost turns) = .next t ∧ Started (DcompRun m) turns t := by
  have hcmd : decode .command (byteBits 0x00#8) = some (.dcomp, []) := by decide
  obtain ⟨hstart, -⟩ := dcompStartsTheDictionaryEncoder (s.setHost turns) hs
  refine ⟨_, (runCommand_of _ hcmd).trans hstart, .load [] ?_, rfl, rfl, rfl⟩
  exact ⟨rfl, rfl, rfl, rfl, rfl, List.nil_prefix, rfl, stored_nil ht.msg_wf, tracked_nil ht.dict_wf ht.idx_wf⟩

end Sys2Proof.Machine

open Sys2Proof Sys2Proof.Machine

/-- Settles O57: the run ends with the stream closed, and the lengths are those of its parts. -/
theorem dcompWritesTheDictionaryStream : Obligations.DcompWritesTheDictionaryStream := by
  intro caps s m hinv hs hsched hcap
  obtain ⟨t, hreach, hhost, hI, hidle⟩ :=
    (dcomp_runRule hcap).ends_of_isSchedule hs hsched (dcomp_started m hinv.tables hs)
  cases hI with
  | load bs h => exact absurd h.busy hidle
  | widths h => exact absurd h.busy hidle
  | header h _ => exact absurd h.busy hidle
  | entries h _ => exact absurd h.busy hidle
  | codes h _ => exact absurd h.busy hidle
  | close h _ => exact absurd h.busy hidle
  | done h =>
    obtain ⟨hcw, hrem⟩ := h.widths
    have hunique := h.tracked.unique_eq
    have hlen := h.stored.length_eq
    have htotal := length_dictStream m
    have hmod : (dictStream m).length % 8 = t.rem.toNat := by rw [htotal, codeAddr_mod_eight, hrem]
    refine ⟨t, hreach, hhost, h.done, h.err, h.obits_eq, hunique, hlen, ?_, hmod, ?_⟩
    · rw [htotal, codeAddr, hunique, hcw, hlen]
    · rw [State.outBytes, length_packBytes, h.obits_eq, length_padToByte, hmod]

end

section
/-! The dictionary decoder by its phase table (43_dict_decoder.md R191 to R205): how it starts, and what each row
answers, once per branch. -/

namespace Sys2Proof.Machine

section
variable {s : State}

/-- `o` is the abort with the error `e`, `CMD` kept (60_exceptions.md R250). -/
def AbortsWith (e : ErrCode) (s : State) (o : Res) : Prop :=
  ∃ t, o = .next t ∧ t.status = .error ∧ t.err = e ∧ t.phase = .halt ∧ t.cmd = s.cmd

theorem raise_abortsWith (e : ErrCode) {s t : State} (h : t.cmd = s.cmd) : AbortsWith e s (raise e t) :=
  ⟨_, raise_eq e t, rfl, rfl, rfl, h⟩

/-! ## The rows of the phase table that read no token (R190) -/

theorem engineStep_eLoad (caps : Config.Caps) (hb : s.status = .busy) (hp : s.phase = .eLoad) :
    engineStep caps s = eLoad caps s := by
  rw [engineStep, if_neg (not_not.2 hb), hp]

theorem engineStep_eCalc (caps : Config.Caps) (hb : s.status = .busy) (hp : s.phase = .eCalc) :
    engineStep caps s = eCalc s := by
  rw [engineStep, if_neg (not_not.2 hb), hp]

/-! ## `E_LOAD` (R192) -/

/-- A byte that is there is checked against the capacity and stored. -/
theorem eLoad_byte (caps : Config.Caps) {k : Nat} (hk : k < s.inBytes.length) (hi : s.ipos = 8 * k) :
    eLoad caps s =
      if atCap caps.inCap s.B then raise .capacity s else .next (eStore s.inBytes[k] (s.advance 8)) := by
  rw [eLoad, inEmpty_of_lt (by omega), if_neg Bool.false_ne_true, inBits_byte hk hi]
  simp only [ofNat_natOf_byteBits]

theorem eLoad_end (caps : Config.Caps) (hend : s.inEnd = true) (hi : s.ipos = 8 * s.inBytes.length) :
    eLoad caps s = .next (s.setPhase .eHdr) :=
  if_pos (inEmpty_iff.2 ⟨hend, hi⟩)

/-- With all supplied bytes read and the input not ended the engine waits (44_control.md R224). -/
theorem eLoad_wait (caps : Config.Caps) (hend : s.inEnd = false) (hi : s.ipos = 8 * s.inBytes.length) :
    eLoad caps s = .next s := by
  have hempty : ¬ s.inEmpty = true := fun h => Bool.false_ne_true (hend.symm.trans (inEmpty_iff.1 h).1)
  have hnone : inBits 8 s = none := inBits_eq_none.2 (by omega)
  rw [eLoad, if_neg hempty, hnone]
  exact (onShort_eq s).trans (by rw [hend]; rfl)

/-! ## `E_HDR` and `E_DICT` (R194 to R197) -/

theorem eHdr_short (h : 8 * s.B < 11) : eHdr s = raise .malformed s := if_pos h

theorem eDict_short (h : 8 * s.B < 11 + 8 * s.unique.toNat) : eDict s = raise .malformed s := if_pos h

theorem eDict_end (hfits : 11 + 8 * s.unique.toNat ≤ 8 * s.B) (hj : s.unique.toNat ≤ s.j) :
    eDict s = .next (s.setPhase .eCalc) := by
  rw [eDict, if_neg (by omega), if_neg (by omega)]

theorem execDictEnt_of_lt (b : BitVec 8) (hj : s.j < 256) :
    execDictEnt b s = .next ((eEntry b s).setJ (s.j + 1)) := withEntry_lt hj

/-! ## `E_CALC` (R198 to R202) -/

/-- The computed width fits the register `cw`: it is at most 8. -/
theorem toNat_eWidths_cw (hu : s.unique.toNat ≤ 256) : (eWidths s).cw.toNat = codeWidth s.unique.toNat := by
  have hcw := codeWidth_le_eight hu
  rw [eWidths_cw, BitVec.toNat_ofNat, Nat.mod_eq_of_lt (by omega)]

theorem toNat_eWidths_pad (s : State) : (eWidths s).pad.toNat = padOf s.rem.toNat := by
  rw [eWidths_pad, BitVec.toNat_ofNat, Nat.mod_eq_of_lt (padOf_lt _)]

/-- R199, R200: no room for the padding, or codes without a dictionary. -/
theorem eCalc_format (h : (eWidths s).payload < 0 ∨ (s.unique = 0#9 ∧ (eWidths s).payload ≠ 0)) :
    eCalc s = raise .format (eWidths s) := by
  rw [eCalc]
  split
  · rfl
  next hneg => exact if_pos (h.resolve_left hneg)

/-- R201: the codes are no whole number. -/
theorem eCalc_malformed (h : ¬ ((eWidths s).payload < 0 ∨ (s.unique = 0#9 ∧ (eWidths s).payload ≠ 0)))
    (hmod : (eWidths s).payload % (eWidths s).cw.toNat ≠ 0) : eCalc s = raise .malformed (eWidths s) := by
  obtain ⟨hneg, hempty⟩ := not_or.1 h
  exact (if_neg hneg).trans ((if_neg hempty).trans (if_pos hmod))

/-- R202: the number of codes. -/
theorem eCalc_codes (h : ¬ ((eWidths s).payload < 0 ∨ (s.unique = 0#9 ∧ (eWidths s).payload ≠ 0)))
    (hmod : (eWidths s).payload % (eWidths s).cw.toNat = 0) :
    eCalc s = .next
      ((((eWidths s).setN ((eWidths s).payload / (eWidths s).cw.toNat).toNat).setJ 0).setPhase .eCode) := by
  obtain ⟨hneg, hempty⟩ := not_or.1 h
  exact (if_neg hneg).trans ((if_neg hempty).trans (if_neg (not_not_intro hmod)))

/-! ## `E_CODE` and `E_EMIT` (R203, R204) -/

/-- `i` is the code `c`, in one of the eight widths (30_encoding.md R102). -/
def IsCode (i : Instr) (c : Nat) : Prop :=
  (∃ x, i = .dictCode1 x ∧ c = x.toNat) ∨ (∃ x, i = .dictCode2 x ∧ c = x.toNat) ∨
    (∃ x, i = .dictCode3 x ∧ c = x.toNat) ∨ (∃ x, i = .dictCode4 x ∧ c = x.toNat) ∨
    (∃ x, i = .dictCode5 x ∧ c = x.toNat) ∨ (∃ x, i = .dictCode6 x ∧ c = x.toNat) ∨
    (∃ x, i = .dictCode7 x ∧ c = x.toNat) ∨ (∃ x, i = .dictCode8 x ∧ c = x.toNat)

/-- In every width a code is run by the one operation on codes, as a byte. -/
theorem exec_of_isCode {i : Instr} {c : Nat} (h : IsCode i c) (s : State) :
    c < 256 ∧ exec i s = codeToken (BitVec.ofNat 8 c) s := by
  have hbyte {w : Nat} (x : BitVec w) (hw : w ≤ 8) : x.toNat < 256 :=
    x.isLt.trans_le (Nat.pow_le_pow_right (by decide) hw)
  rcases h with h | h | h | h | h | h | h | h
  all_goals
    obtain ⟨x, rfl, rfl⟩ := h
    exact ⟨hbyte x (by decide), by rw [BitVec.ofNat_toNat]; rfl⟩

theorem codeToken_eCode_of_lt {c : Byte} (hp : s.phase = .eCode) (hc : c.toNat < s.unique.toNat) :
    codeToken c s = .next ((s.setCode c).setJ (s.j + 1)) := by
  rw [codeToken, if_pos hp, validateCode, if_neg (by omega)]

theorem codeToken_eCode_of_le {c : Byte} (hp : s.phase = .eCode) (hc : s.unique.toNat ≤ c.toNat) :
    codeToken c s = raise .format (s.setCode c) := by
  rw [codeToken, if_pos hp, validateCode, if_pos hc]

theorem codeToken_writes {c : Byte} (hp : s.phase ≠ .eCode) (hopen : s.closed = false) :
    codeToken c s = .next
      { s with code := c, obits := s.obits ++ byteBits (Table.read s.dict c.toNat), j := s.j + 1 } := by
  rw [codeToken, if_neg hp, emitCode,
    outBits_open (s := s.setCode c) (by decide) (by decide) (BitVec.isLt _) hopen, andThen_next]
  rfl

theorem eCode_end (hj : s.n ≤ s.j) : eCode s = .next ((s.setJ 0).setPhase .eEmit) := if_neg (by omega)

end

end Sys2Proof.Machine

open Sys2Proof Sys2Proof.Machine

/-- Settles O16: with no engine running the START is accepted. -/
theorem dexpStartsTheDictionaryDecoder : Obligations.DexpStartsTheDictionaryDecoder := by
  intro s hs
  rw [exec, execDexp, startEngine_accepted hs]
  rfl

/-- Settles O40: the capacity check, then the store; and the end test. -/
theorem eLoadStoresAByte : Obligations.ELoadStoresAByte := by
  refine ⟨fun caps s b hb hp hmod hbyte => ?_, fun caps s hb hp hend hi => ?_⟩
  · obtain ⟨hk, rfl⟩ := List.getElem?_eq_some_iff.1 hbyte
    have hi : s.ipos = 8 * (s.ipos / 8) := by omega
    rw [engineStep_eLoad caps hb hp, eLoad_byte caps hk hi]
    split
    · exact raise_abortsWith .capacity rfl
    · rfl
  · rw [engineStep_eLoad caps hb hp, eLoad_end caps hend hi]
    rfl

/-- Settles O41: the two length checks, and the end of `E_DICT`. -/
theorem shortStreamsAreMalformed : Obligations.ShortStreamsAreMalformed := by
  refine ⟨fun caps s hb hshort => ?_, fun caps s hb hp hfits hj => ?_⟩
  · rcases hshort with ⟨hp, h⟩ | ⟨hp, h⟩
    · rw [engineStep_eHdr caps hb hp, eHdr_short h]
      exact raise_abortsWith .malformed rfl
    · rw [engineStep_eDict caps hb hp, eDict_short h]
      exact raise_abortsWith .malformed rfl
  · rw [engineStep_eDict caps hb hp, eDict_end hfits hj]
    rfl

/-- Settles O42: a stored form that is not 0 is widened, which keeps its value. -/
theorem dictHdrResolvesUnique : Obligations.DictHdrResolvesUnique := by
  intro rem u s
  rw [BitVec.ofNat_toNat]
  rfl

/-- Settles O43: one write to a table of canonical form. -/
theorem dictEntFillsOneEntry : Obligations.DictEntFillsOneEntry := by
  intro b s hj hwf
  exact ⟨_, execDictEnt_of_lt b hj, Table.write_wf hwf _ _, Table.read_write_same hwf _ _,
    fun k hk => Table.read_write_other _ _ hk⟩

/-- Settles O44: the three checks in their order. -/
theorem eCalcChecksInOrder : Obligations.ECalcChecksInOrder := by
  intro caps s cw pad payload hb hp hu hcw hpad hpayload
  have hwidth : (eWidths s).cw.toNat = cw := (toNat_eWidths_cw hu).trans hcw.symm
  have hpay : (eWidths s).payload = payload := by rw [hpayload, hpad]; rfl
  rw [engineStep_eCalc caps hb hp]
  split_ifs with hformat hmod
  · rw [eCalc_format (hpay ▸ hformat)]
    exact raise_abortsWith .format rfl
  · rw [eCalc_malformed (hpay ▸ hformat) (by rwa [hwidth, hpay])]
    exact raise_abortsWith .malformed rfl
  · rw [eCalc_codes (hpay ▸ hformat) (by rw [hwidth, hpay]; exact not_not.1 hmod), hwidth, hpay]
    subst hcw hpad hpayload
    rfl

/-- Settles O45: a code of any width is checked as a byte; and the end of `E_CODE`. -/
theorem codesAreValidated : Obligations.CodesAreValidated := by
  refine ⟨fun s i c hp hcode => ?_, fun caps s hb hp hj => ?_⟩
  · obtain ⟨hbyte, hexec⟩ := exec_of_isCode hcode s
    have hval : (BitVec.ofNat 8 c).toNat = c := Nat.mod_eq_of_lt hbyte
    rw [hexec]
    split
    next hc => exact codeToken_eCode_of_lt hp (hval.symm ▸ hc)
    next hc =>
      rw [codeToken_eCode_of_le hp (by omega)]
      exact raise_abortsWith .format rfl
  · rw [engineStep_eCode caps hb hp, eCode_end hj]
    rfl

/-- Settles O46: a code of any width is written out as a byte. -/
theorem codesAreWrittenOut : Obligations.CodesAreWrittenOut := by
  intro s i c hp hopen hcode
  obtain ⟨hbyte, hexec⟩ := exec_of_isCode hcode s
  have hval : (BitVec.ofNat 8 c).toNat = c := Nat.mod_eq_of_lt hbyte
  rw [hexec, codeToken_writes hp hopen, hval]
  rfl

end

section
/-! What the decoder reads has one encoding (30_encoding.md sections 2 to 4): a field read is the bits it was read from,
and each place gives back the instruction that these bits encode. -/

namespace Sys2Proof

/-! ## Fields -/

/-- What a field read answers, where it answers. -/
theorem takeField_eq_some {n : Nat} {bits : List Bool} {f : Nat × List Bool} :
    takeField n bits = some f ↔ n ≤ bits.length ∧ f = (natOf (bits.take n), bits.drop n) := by
  rw [takeField]
  split <;> simp_all [eq_comm]

/-- A field's value stands for its bits. -/
theorem bitsOf_natOf_take {n : Nat} {bits : List Bool} (h : n ≤ bits.length) :
    bitsOf n (natOf (bits.take n)) = bits.take n := by
  have hlen : (bits.take n).length = n := List.length_take_of_le h
  have hbits := bitsOf_natOf (bits.take n)
  rwa [hlen] at hbits

/-! ## Each place -/

/-- `i` is an instruction of the place `ctx`, and `bits` are its encoding. -/
structure EncodedAs (ctx : Ctx) (bits : List Bool) (i : Instr) : Prop where
  wellFormed : i.wellFormed = true
  ctx_eq : i.ctx = ctx
  encode_eq : encode i = bits

/-- With `RSV` 0 the byte is one of the first four. -/
theorem toNat_lt_four_of_rsv_eq_zero {c : Byte} (h : c.extractLsb' 2 6 = 0#6) : c.toNat < 4 := by
  have hlt := c.isLt
  have hrsv := congrArg BitVec.toNat h
  rw [BitVec.extractLsb'_toNat, Nat.shiftRight_eq_div_pow, BitVec.toNat_ofNat] at hrsv
  omega

/-- R91, R92: of the command bytes that decode there are four. -/
theorem encodedAs_of_decodeCommand {v : Nat} {i : Instr} (hv : v < 256)
    (h : decodeCommand (BitVec.ofNat 8 v) = some i) : EncodedAs .command (bitsOf 8 v) i := by
  have hrsv : (BitVec.ofNat 8 v).extractLsb' 2 6 = 0#6 := by
    by_contra hne
    rw [decodeCommand_of_rsv_ne_zero hne] at h
    cases h
  have hlt := toNat_lt_four_of_rsv_eq_zero hrsv
  rw [BitVec.toNat_ofNat, Nat.mod_eq_of_lt hv] at hlt
  obtain rfl | rfl | rfl | rfl : v = 0 ∨ v = 1 ∨ v = 2 ∨ v = 3 := by omega
  · obtain rfl : Instr.dcomp = i := Option.some.inj h
    exact ⟨rfl, rfl, rfl⟩
  · obtain rfl : Instr.dexp = i := Option.some.inj h
    exact ⟨rfl, rfl, rfl⟩
  · obtain rfl : Instr.rcomp = i := Option.some.inj h
    exact ⟨rfl, rfl, rfl⟩
  · obtain rfl : Instr.rexp = i := Option.some.inj h
    exact ⟨rfl, rfl, rfl⟩

/-- R95, R96: a count is the escape or a run of at least one bit. -/
theorem encodedAs_decodeCount {v : Nat} (hv : v < 256) : EncodedAs .count (bitsOf 8 v) (decodeCount v) := by
  rw [decodeCount]
  split
  next h0 => exact ⟨rfl, rfl, by rw [h0]; rfl⟩
  next h0 =>
    have hval : (BitVec.ofNat 8 v).toNat = v := Nat.mod_eq_of_lt hv
    have hne : BitVec.ofNat 8 v ≠ 0#8 := fun h => h0 (hval.symm.trans (congrArg BitVec.toNat h))
    exact ⟨bne_iff_ne.2 hne, rfl, by rw [encode, hval]⟩

/-- R102: a code of one of the eight widths. -/
theorem encodedAs_of_decodeCode {cw v : Nat} {i : Instr} (h : decodeCode cw v = some i) :
    EncodedAs (.code cw) (bitsOf cw v) i := by
  unfold decodeCode at h
  split at h
  case h_9 => cases h
  all_goals
    cases h
    exact ⟨rfl, rfl, by rw [encode, BitVec.toNat_ofNat, bitsOf_mod]⟩

/-! ## The decoder -/

/-- `decode` in the place `ctx` read `i` from the front of `bits`, and left the rest. -/
structure ReadsFrom (ctx : Ctx) (bits : List Bool) (i : Instr) (rest : List Bool) : Prop where
  width_le : ctx.width ≤ bits.length
  rest_eq : rest = bits.drop ctx.width
  encoded : EncodedAs ctx (bits.take ctx.width) i

theorem readsFrom_of_decode_command {bits rest : List Bool} {i : Instr} (h : decode .command bits = some (i, rest)) :
    ReadsFrom .command bits i rest := by
  obtain ⟨f, hf, hcmd⟩ := Option.bind_eq_some_iff.1 h
  obtain ⟨hlen, rfl⟩ := takeField_eq_some.1 hf
  obtain ⟨i', hi', hpair⟩ := Option.map_eq_some_iff.1 hcmd
  cases hpair
  have hv : natOf (bits.take 8) < 256 := by simpa [hlen] using natOf_lt (bits.take 8)
  have henc := encodedAs_of_decodeCommand hv hi'
  rw [bitsOf_natOf_take hlen] at henc
  exact ⟨hlen, rfl, henc⟩

theorem readsFrom_of_decode_count {bits rest : List Bool} {i : Instr} (h : decode .count bits = some (i, rest)) :
    ReadsFrom .count bits i rest := by
  obtain ⟨f, hf, hpair⟩ := Option.map_eq_some_iff.1 h
  obtain ⟨hlen, rfl⟩ := takeField_eq_some.1 hf
  cases hpair
  have hv : natOf (bits.take 8) < 256 := by simpa [hlen] using natOf_lt (bits.take 8)
  have henc := encodedAs_decodeCount hv
  rw [bitsOf_natOf_take hlen] at henc
  exact ⟨hlen, rfl, henc⟩

/-- R99: the two fields of the header one behind the other. -/
theorem readsFrom_of_decode_header {bits rest : List Bool} {i : Instr} (h : decode .header bits = some (i, rest)) :
    ReadsFrom .header bits i rest := by
  obtain ⟨r, hr, hu⟩ := Option.bind_eq_some_iff.1 h
  obtain ⟨hrem, rfl⟩ := takeField_eq_some.1 hr
  obtain ⟨u, hu, hpair⟩ := Option.map_eq_some_iff.1 hu
  obtain ⟨hunique, rfl⟩ := takeField_eq_some.1 hu
  cases hpair
  have hlen : 11 ≤ bits.length := by rw [List.length_drop] at hunique; omega
  refine ⟨hlen, List.drop_drop, rfl, rfl, ?_⟩
  rw [encode, BitVec.toNat_ofNat, BitVec.toNat_ofNat, bitsOf_mod, bitsOf_mod, bitsOf_natOf_take hrem,
    bitsOf_natOf_take hunique]
  exact List.take_add.symm

theorem readsFrom_of_decode_entry {bits rest : List Bool} {i : Instr} (h : decode .entry bits = some (i, rest)) :
    ReadsFrom .entry bits i rest := by
  obtain ⟨f, hf, hpair⟩ := Option.map_eq_some_iff.1 h
  obtain ⟨hlen, rfl⟩ := takeField_eq_some.1 hf
  cases hpair
  exact ⟨hlen, rfl, rfl, rfl, byteBits_ofNat_natOf (List.length_take_of_le hlen)⟩

theorem readsFrom_of_decode_code {cw : Nat} {bits rest : List Bool} {i : Instr}
    (h : decode (.code cw) bits = some (i, rest)) : ReadsFrom (.code cw) bits i rest := by
  obtain ⟨f, hf, hcode⟩ := Option.bind_eq_some_iff.1 h
  obtain ⟨hlen, rfl⟩ := takeField_eq_some.1 hf
  obtain ⟨i', hi', hpair⟩ := Option.map_eq_some_iff.1 hcode
  cases hpair
  have henc := encodedAs_of_decodeCode hi'
  rw [bitsOf_natOf_take hlen] at henc
  exact ⟨hlen, rfl, henc⟩

/-- R103, R205: padding is counted, and its bits are not in the instruction. -/
theorem decode_padding_eq_some {pad : Nat} {bits rest : List Bool} {i : Instr}
    (h : decode (.padding pad) bits = some (i, rest)) :
    pad ≤ bits.length ∧ rest = bits.drop pad ∧ ∃ p : BitVec 3, p.toNat = pad ∧ i = .dictPad p := by
  rw [decode] at h
  split at h
  next hpad =>
    cases h
    exact ⟨hpad.2, rfl, BitVec.ofNat 3 pad, Nat.mod_eq_of_lt hpad.1, rfl⟩
  next => cases h

end Sys2Proof

open Sys2Proof Sys2Proof.Machine

/-- Settles O4: place by place; in each but the padding's the bits read are the instruction's encoding. -/
theorem encodeInvertsDecode : Obligations.EncodeInvertsDecode := by
  intro ctx bits rest i h
  suffices hread : ReadsFrom ctx bits i rest ∨ ∃ pad, ctx = .padding pad by
    rcases hread with ⟨hlen, rfl, hwf, hctx, hbits⟩ | ⟨pad, rfl⟩
    · exact ⟨hwf, hctx, hlen, rfl, fun _ => by rw [hbits, List.take_append_drop]⟩
    · obtain ⟨hlen, hrest, p, rfl, rfl⟩ := decode_padding_eq_some h
      exact ⟨rfl, rfl, hlen, hrest, fun hp => absurd rfl (hp p)⟩
  cases ctx with
  | command => exact .inl (readsFrom_of_decode_command h)
  | count => exact .inl (readsFrom_of_decode_count h)
  | header => exact .inl (readsFrom_of_decode_header h)
  | entry => exact .inl (readsFrom_of_decode_entry h)
  | code cw => exact .inl (readsFrom_of_decode_code h)
  | padding pad => exact .inr ⟨pad, rfl⟩

end

section
/-! The dictionary decoder's function in parts (43_dict_decoder.md R208, R211): the fields of a stream by their
positions (30_encoding.md R98), and the function's value once per check. -/

namespace Sys2Proof.Machine

/-! ## The fields of a stream -/

/-- The field `rem` (R195). -/
def DictStream.rem (stream : List Byte) : Nat := fieldAt (bytesBits stream) 0 3

/-- `unique`, resolved (R195, R196). -/
def DictStream.unique (stream : List Byte) : BitVec 9 :=
  resolveUnique (BitVec.ofNat 8 (fieldAt (bytesBits stream) 3 8)) stream.length

/-- The code width (R198). -/
def DictStream.cw (stream : List Byte) : Nat := codeWidth (DictStream.unique stream).toNat

/-- Entry `i` of the dictionary (R197). -/
def DictStream.entry (stream : List Byte) (i : Nat) : Byte :=
  BitVec.ofNat 8 (fieldAt (bytesBits stream) (entryAddr i) 8)

/-- The bits of all codes (R198); negative where there is no room for the padding. -/
def DictStream.payload (stream : List Byte) : Int :=
  8 * (stream.length : Int) - padOf (DictStream.rem stream) - 11 - 8 * (DictStream.unique stream).toNat

/-- The number of codes (R202). -/
def DictStream.count (stream : List Byte) : Nat := (DictStream.payload stream / DictStream.cw stream).toNat

/-- Code `k` (R203). -/
def DictStream.code (stream : List Byte) (k : Nat) : Nat :=
  fieldAt (bytesBits stream) (codeAddr (DictStream.unique stream).toNat (DictStream.cw stream) k) (DictStream.cw stream)

/-- The byte that code `k` stands for (R204). -/
def DictStream.byte (stream : List Byte) (k : Nat) : Byte := DictStream.entry stream (DictStream.code stream k)

/-- There is no room for the padding, or there are codes and no dictionary (R199, R200). -/
def DictStream.BadFormat (stream : List Byte) : Prop :=
  DictStream.payload stream < 0 ∨ (DictStream.unique stream = 0#9 ∧ DictStream.payload stream ≠ 0)

section
variable {stream : List Byte}

theorem DictStream.unique_le (stream : List Byte) : (DictStream.unique stream).toNat ≤ 256 := resolveUnique_le _ _

/-- The codes that there are lie before the padding (R198, R202). -/
theorem DictStream.codes_le (h : 0 ≤ DictStream.payload stream) :
    codeAddr (DictStream.unique stream).toNat (DictStream.cw stream) (DictStream.count stream) +
      padOf (DictStream.rem stream) ≤ 8 * stream.length := by
  obtain ⟨p, hp⟩ := Int.eq_ofNat_of_zero_le h
  have hcount : DictStream.count stream = p / DictStream.cw stream := by
    rw [DictStream.count, hp, ← Int.natCast_div, Int.toNat_natCast]
  have hle : DictStream.cw stream * (p / DictStream.cw stream) ≤ p := Nat.mul_div_le _ _
  rw [DictStream.payload] at hp
  rw [codeAddr, hcount]
  omega

/-- Where the codes are a whole number, the padding is all that is left behind them (R201, R202). -/
theorem DictStream.total (h : 0 ≤ DictStream.payload stream)
    (hmod : DictStream.payload stream % DictStream.cw stream = 0) :
    codeAddr (DictStream.unique stream).toNat (DictStream.cw stream) (DictStream.count stream) +
      padOf (DictStream.rem stream) = 8 * stream.length := by
  have hcount : (DictStream.count stream : Int) = DictStream.payload stream / DictStream.cw stream :=
    Int.toNat_of_nonneg (Int.ediv_nonneg h (Int.natCast_nonneg _))
  have hmul : (DictStream.cw stream : Int) * DictStream.count stream = DictStream.payload stream := by
    rw [hcount, Int.mul_ediv_cancel' (Int.dvd_of_emod_eq_zero hmod)]
  rw [DictStream.payload, ← Int.natCast_mul] at hmul
  rw [codeAddr]
  omega

/-! ## The function, check by check (R208) -/

theorem expandDict_eq (stream : List Byte) :
    expandDict stream =
      if 8 * stream.length < 11 then .error .malformed
      else if 8 * stream.length < 11 + 8 * (DictStream.unique stream).toNat then .error .malformed
      else if DictStream.payload stream < 0 then .error .format
      else if (DictStream.unique stream).toNat = 0 ∧ DictStream.payload stream ≠ 0 then .error .format
      else if DictStream.payload stream % DictStream.cw stream ≠ 0 then .error .malformed
      else expandCodes (bytesBits stream) (DictStream.unique stream).toNat (DictStream.count stream) := by
  simp only [expandDict, length_bytesBits, Nat.cast_mul, Nat.cast_ofNat]
  rfl

theorem expandDict_of_short (h : 8 * stream.length < 11 + 8 * (DictStream.unique stream).toNat) :
    expandDict stream = .error .malformed := by
  rw [expandDict_eq, if_pos h, ite_self]

section
variable (hfits : 11 + 8 * (DictStream.unique stream).toNat ≤ 8 * stream.length)
include hfits

theorem expandDict_of_badFormat (h : DictStream.BadFormat stream) : expandDict stream = .error .format := by
  rw [expandDict_eq, if_neg (by omega), if_neg (by omega)]
  by_cases hneg : DictStream.payload stream < 0
  · exact if_pos hneg
  · obtain ⟨hempty, hne⟩ := h.resolve_left hneg
    rw [if_neg hneg]
    exact if_pos ⟨congrArg BitVec.toNat hempty, hne⟩

theorem expandDict_of_not_badFormat (h : ¬ DictStream.BadFormat stream) :
    expandDict stream =
      if DictStream.payload stream % DictStream.cw stream ≠ 0 then .error .malformed
      else expandCodes (bytesBits stream) (DictStream.unique stream).toNat (DictStream.count stream) := by
  obtain ⟨hneg, hempty⟩ := not_or.1 h
  have hnone : ¬ ((DictStream.unique stream).toNat = 0 ∧ DictStream.payload stream ≠ 0) :=
    fun ⟨hu, hne⟩ => hempty ⟨BitVec.eq_of_toNat_eq hu, hne⟩
  rw [expandDict_eq, if_neg (by omega), if_neg (by omega), if_neg hneg, if_neg hnone]

theorem expandDict_of_ragged (h : ¬ DictStream.BadFormat stream)
    (hmod : DictStream.payload stream % DictStream.cw stream ≠ 0) : expandDict stream = .error .malformed := by
  rw [expandDict_of_not_badFormat hfits h, if_pos hmod]

theorem expandDict_of_counted (h : ¬ DictStream.BadFormat stream)
    (hmod : DictStream.payload stream % DictStream.cw stream = 0) :
    expandDict stream = expandCodes (bytesBits stream) (DictStream.unique stream).toNat (DictStream.count stream) := by
  rw [expandDict_of_not_badFormat hfits h, if_neg (not_not_intro hmod)]

end

/-! ## The codes (R203, R204) -/

/-- The first `k` codes are below `unique` (R203). -/
def CodesValid (stream : List Byte) (k : Nat) : Prop :=
  ∀ i < k, DictStream.code stream i < (DictStream.unique stream).toNat

theorem codesValid_zero (stream : List Byte) : CodesValid stream 0 := fun i hi => absurd hi (Nat.not_lt_zero i)

theorem CodesValid.succ {k : Nat} (h : CodesValid stream k)
    (hk : DictStream.code stream k < (DictStream.unique stream).toNat) : CodesValid stream (k + 1) := by
  intro i hi
  rcases Nat.lt_succ_iff_lt_or_eq.1 hi with hi | rfl
  · exact h i hi
  · exact hk

theorem expandCodes_eq (stream : List Byte) (n : Nat) :
    expandCodes (bytesBits stream) (DictStream.unique stream).toNat n =
      if ∀ k < n, DictStream.code stream k < (DictStream.unique stream).toNat then
        .ok ((List.range n).map (DictStream.byte stream))
      else .error .format := by
  rw [expandCodes]
  simp only [List.all_map, List.all_eq_true, List.mem_range, Function.comp_apply, decide_eq_true_eq, List.map_map]
  rfl

theorem expandCodes_of_valid {n : Nat} (h : CodesValid stream n) :
    expandCodes (bytesBits stream) (DictStream.unique stream).toNat n =
      .ok ((List.range n).map (DictStream.byte stream)) :=
  (expandCodes_eq stream n).trans (if_pos h)

theorem expandCodes_of_invalid {n k : Nat} (hk : k < n)
    (h : (DictStream.unique stream).toNat ≤ DictStream.code stream k) :
    expandCodes (bytesBits stream) (DictStream.unique stream).toNat n = .error .format := by
  rw [expandCodes_eq, if_neg fun hall => Nat.not_lt.2 h (hall k hk)]

end

/-! ## Fields in a part of the stream -/

/-- A field inside the first `N` bits does not depend on the others. -/
theorem fieldAt_take {bits : List Bool} {addr n N : Nat} (h : addr + n ≤ N) :
    fieldAt (bits.take N) addr n = fieldAt bits addr n := by
  rw [fieldAt, fieldAt, List.drop_take, List.take_take, Nat.min_eq_left (by omega)]

theorem fieldAt_lt (bits : List Bool) (addr n : Nat) : fieldAt bits addr n < 2 ^ n :=
  (natOf_lt _).trans_le (Nat.pow_le_pow_right (by decide) (List.length_take_le ..))

/-- The header's two fields (R195). -/
theorem decode_header_take {bits : List Bool} (h : 11 ≤ bits.length) :
    decode .header (bits.take 11) =
      some (.dictHdr (BitVec.ofNat 3 (fieldAt bits 0 3)) (BitVec.ofNat 8 (fieldAt bits 3 8)), []) := by
  have hlen : (bits.take 11).length = 11 := List.length_take_of_le h
  have hrest : ((bits.take 11).drop 3).length = 8 := by rw [List.length_drop, hlen]
  rw [decode, takeField_eq (by omega), Option.bind_some, takeField_eq hrest.ge, Option.map_some,
    List.drop_eq_nil_of_le hrest.le, ← fieldAt_take (show 0 + 3 ≤ 11 by decide),
    ← fieldAt_take (show 3 + 8 ≤ 11 by decide)]
  rfl

/-- Eight bits in the place of an entry are that byte (R197). -/
theorem decode_entry {bits : List Bool} (h : bits.length = 8) :
    decode .entry bits = some (.dictEnt (BitVec.ofNat 8 (natOf bits)), []) := by
  rw [decode, takeField_eq h.ge, Option.map_some, List.take_of_length_le h.le, List.drop_eq_nil_of_le h.le]

end Sys2Proof.Machine

end

section
/-! `DEXP` computes the decoder function (43_dict_decoder.md R208, R211): a run phase by phase, each with the part of
the stream it has read in the registers. -/

namespace Sys2Proof.Machine

/-! ## The phases of a run -/

/-- In `E_LOAD` the bytes `bs` have been read into the buffer. -/
structure ELoadPhase (bs : List Byte) (s : State) : Prop where
  busy : s.status = .busy
  phase : s.phase = .eLoad
  output_open : s.closed = false
  err : s.err = .none
  obits_eq : s.obits = []
  read_prefix : bs <+: s.inBytes
  ipos_eq : s.ipos = 8 * bs.length
  stored : Stored bs s.ibuf s.B
  dict_wf : Memory.wf s.dict

/-- In a later phase `p` the buffer holds the whole stream, and the bytes `out` have been written. -/
structure ExpandPhase (stream : List Byte) (p : Phase) (out : List Byte) (s : State) : Prop where
  busy : s.status = .busy
  phase : s.phase = p
  output_open : s.closed = false
  err : s.err = .none
  input_ended : s.inEnd = true
  input_eq : s.inBytes = stream
  ipos_eq : s.ipos = 8 * stream.length
  obits_eq : s.obits = bytesBits out
  stored : Stored stream s.ibuf s.B
  dict_wf : Memory.wf s.dict

/-- The header has been read, and `k` entries of the dictionary (R195 to R197). -/
structure DictRead (stream : List Byte) (k : Nat) (s : State) : Prop where
  rem_eq : s.rem.toNat = DictStream.rem stream
  unique_eq : s.unique = DictStream.unique stream
  lists : Lists s.dict ((List.range k).map (DictStream.entry stream))

/-- The whole dictionary has been read, which the stream is long enough for (R194). -/
structure DictDone (stream : List Byte) (s : State) : Prop where
  read : DictRead stream (DictStream.unique stream).toNat s
  fits : 11 + 8 * (DictStream.unique stream).toNat ≤ 8 * stream.length

/-- The stream has passed the checks of `E_CALC` (R198 to R202), and its codes decide. -/
structure Counted (stream : List Byte) (s : State) : Prop where
  cw_eq : s.cw.toNat = DictStream.cw stream
  pad_eq : s.pad.toNat = padOf (DictStream.rem stream)
  n_eq : s.n = DictStream.count stream
  total : codeAddr (DictStream.unique stream).toNat (DictStream.cw stream) (DictStream.count stream) +
    padOf (DictStream.rem stream) = 8 * stream.length
  result_eq : expandDict stream =
    expandCodes (bytesBits stream) (DictStream.unique stream).toNat (DictStream.count stream)

/-- The run has ended with the decoder function's result. -/
structure DexpEnded (stream : List Byte) (s : State) : Prop where
  idle : s.status ≠ .busy
  phase : s.phase = .halt
  input_ended : s.inEnd = true
  ipos_eq : s.ipos = 8 * stream.length
  result : s.hasResult (expandDict stream)

/-- Where a run of `DEXP` stands. -/
inductive DexpRun (stream : List Byte) (s : State) : Prop
  | load (bs : List Byte) (h : ELoadPhase bs s)
  | header (h : ExpandPhase stream .eHdr [] s)
  | entries (h : ExpandPhase stream .eDict [] s) (hd : DictRead stream s.j s)
      (hj : s.j ≤ (DictStream.unique stream).toNat)
  | widths (h : ExpandPhase stream .eCalc [] s) (hd : DictDone stream s)
  | check (h : ExpandPhase stream .eCode [] s) (hd : DictDone stream s) (hc : Counted stream s)
      (hj : s.j ≤ DictStream.count stream) (hvalid : CodesValid stream s.j)
  | emit (h : ExpandPhase stream .eEmit ((List.range s.j).map (DictStream.byte stream)) s) (hd : DictDone stream s)
      (hc : Counted stream s) (hj : s.j ≤ DictStream.count stream)
      (hvalid : CodesValid stream (DictStream.count stream))
  | ended (h : DexpEnded stream s)

/-- A bound of the steps a run has left once its input has ended: a stream has at most 256 entries, and at most one code
per bit, read twice. -/
def dexpLeft (s : State) : Nat :=
  match s.phase with
  | .eLoad => 8 * s.inBytes.length - s.ipos + 16 * s.inBytes.length + 264
  | .eHdr => 16 * s.inBytes.length + 263
  | .eDict => 16 * s.inBytes.length + (257 - s.j) + 3
  | .eCalc => 16 * s.inBytes.length + 3
  | .eCode => 16 * s.inBytes.length - s.j + 2
  | .eEmit => 8 * s.inBytes.length - s.j + 1
  | _ => 0

section
variable {s : State}

theorem dexpLeft_of_eLoad (h : s.phase = .eLoad) :
    dexpLeft s = 8 * s.inBytes.length - s.ipos + 16 * s.inBytes.length + 264 := by rw [dexpLeft, h]

theorem dexpLeft_of_eHdr (h : s.phase = .eHdr) : dexpLeft s = 16 * s.inBytes.length + 263 := by rw [dexpLeft, h]

theorem dexpLeft_of_eDict (h : s.phase = .eDict) : dexpLeft s = 16 * s.inBytes.length + (257 - s.j) + 3 := by
  rw [dexpLeft, h]

theorem dexpLeft_of_eCalc (h : s.phase = .eCalc) : dexpLeft s = 16 * s.inBytes.length + 3 := by rw [dexpLeft, h]

theorem dexpLeft_of_eCode (h : s.phase = .eCode) : dexpLeft s = 16 * s.inBytes.length - s.j + 2 := by
  rw [dexpLeft, h]

theorem dexpLeft_of_eEmit (h : s.phase = .eEmit) : dexpLeft s = 8 * s.inBytes.length - s.j + 1 := by rw [dexpLeft, h]

theorem dexpLeft_of_halt (h : s.phase = .halt) : dexpLeft s = 0 := by rw [dexpLeft, h]

end

/-- What a step of a run answers. -/
def ExpandsOn (stream : List Byte) (s : State) (o : Res) : Prop :=
  ∃ t, o = .next t ∧ DexpRun stream t ∧ SameFeed s t ∧ (s.inEnd = true → dexpLeft t < dexpLeft s)

/-- A row of the decoder behind `E_LOAD` that ends no run: besides the decoder's own registers, its phase and its output
everything stays. -/
structure KeepsRun (s t : State) : Prop extends SameFeed s t where
  status_eq : t.status = s.status
  closed_eq : t.closed = s.closed
  err_eq : t.err = s.err
  ipos_eq : t.ipos = s.ipos
  ibuf_eq : t.ibuf = s.ibuf
  B_eq : t.B = s.B

/-- A row that goes to the next entry, code or phase. -/
theorem keepsRun_next (s : State) (dict : Memory) (code : BitVec 8) (j : Nat) (q : Phase) :
    KeepsRun s { s with dict := dict, code := code, j := j, phase := q } :=
  ⟨⟨rfl, rfl, rfl⟩, rfl, rfl, rfl, rfl, rfl, rfl⟩

/-- The buffer's bits are the stream's (R193). -/
theorem Stored.bufBits_eq {stream : List Byte} {s : State} (h : Stored stream s.ibuf s.B) {a n : Nat}
    (hfits : a + n ≤ 8 * stream.length) : bufBits a n s = ((bytesBits stream).drop a).take n := by
  rw [bufBits_inside (h.length_eq ▸ hfits), take_drop_eq_map_range (by rwa [length_bytesBits])]
  refine List.map_congr_left fun i hi => ?_
  have hbyte : (a + i) / 8 < stream.length := by have := List.mem_range.1 hi; omega
  rw [State.bufBit, h.lists _ hbyte, List.getD_eq_getElem?_getD, getElem?_bytesBits hbyte, Option.getD_some]

/-- A buffer that is to hold no more than `n` bytes takes one more. -/
theorem not_atCap_of_lt {cap : Option Nat} {k n : Nat} (hk : k < n) (hcap : ∀ c, cap = some c → n ≤ c) :
    ¬ atCap cap k = true := by
  cases cap with
  | none => exact Bool.false_ne_true
  | some c =>
    have := hcap c rfl
    rw [atCap_some, decide_eq_true_eq]
    omega

section
variable {stream bs out : List Byte} {p : Phase} {s : State} {k : Nat}

/-! ## The host's turns -/

theorem ELoadPhase.setHost (turns : List HostTurn) (h : ELoadPhase bs s) : ELoadPhase bs (s.setHost turns) := by
  obtain ⟨hb, hp, hopen, herr, hobits, hread, hipos, hstored, hwf⟩ := h
  exact ⟨hb, hp, hopen, herr, hobits, hread, hipos, hstored, hwf⟩

theorem ELoadPhase.addInput (b : Byte) (h : ELoadPhase bs s) : ELoadPhase bs (s.addInput b) := by
  obtain ⟨hb, hp, hopen, herr, hobits, hread, hipos, hstored, hwf⟩ := h
  exact ⟨hb, hp, hopen, herr, hobits, hread.trans (List.prefix_append _ _), hipos, hstored, hwf⟩

theorem ELoadPhase.endInput (h : ELoadPhase bs s) : ELoadPhase bs s.endInput := by
  obtain ⟨hb, hp, hopen, herr, hobits, hread, hipos, hstored, hwf⟩ := h
  exact ⟨hb, hp, hopen, herr, hobits, hread, hipos, hstored, hwf⟩

theorem ExpandPhase.setHost (turns : List HostTurn) (h : ExpandPhase stream p out s) :
    ExpandPhase stream p out (s.setHost turns) := by
  obtain ⟨hb, hp, hopen, herr, hend, hinput, hipos, hobits, hstored, hwf⟩ := h
  exact ⟨hb, hp, hopen, herr, hend, hinput, hipos, hobits, hstored, hwf⟩

theorem dictRead_of_eq {t : State} (h : DictRead stream k s) (hrem : t.rem = s.rem) (hu : t.unique = s.unique)
    (hdict : t.dict = s.dict) : DictRead stream k t :=
  ⟨hrem ▸ h.rem_eq, hu ▸ h.unique_eq, hdict ▸ h.lists⟩

theorem dictDone_of_eq {t : State} (h : DictDone stream s) (hrem : t.rem = s.rem) (hu : t.unique = s.unique)
    (hdict : t.dict = s.dict) : DictDone stream t :=
  ⟨dictRead_of_eq h.read hrem hu hdict, h.fits⟩

theorem counted_of_eq {t : State} (h : Counted stream s) (hcw : t.cw = s.cw) (hpad : t.pad = s.pad)
    (hn : t.n = s.n) : Counted stream t :=
  ⟨hcw ▸ h.cw_eq, hpad ▸ h.pad_eq, hn ▸ h.n_eq, h.total, h.result_eq⟩

theorem DexpRun.setHost (turns : List HostTurn) (hI : DexpRun stream s) : DexpRun stream (s.setHost turns) := by
  cases hI with
  | load bs h => exact .load bs (h.setHost turns)
  | header h => exact .header (h.setHost turns)
  | entries h hd hj => exact .entries (h.setHost turns) (dictRead_of_eq hd rfl rfl rfl) hj
  | widths h hd => exact .widths (h.setHost turns) (dictDone_of_eq hd rfl rfl rfl)
  | check h hd hc hj hvalid =>
    exact .check (h.setHost turns) (dictDone_of_eq hd rfl rfl rfl) (counted_of_eq hc rfl rfl rfl) hj hvalid
  | emit h hd hc hj hvalid =>
    exact .emit (h.setHost turns) (dictDone_of_eq hd rfl rfl rfl) (counted_of_eq hc rfl rfl rfl) hj hvalid
  | ended h =>
    obtain ⟨hidle, hp, hend, hipos, hresult⟩ := h
    exact .ended ⟨hidle, hp, hend, hipos, hresult⟩

/-- While the input is open the engine loads. -/
theorem DexpRun.exists_eLoadPhase_of_open (hI : DexpRun stream s) (hopen : s.inEnd = false) :
    ∃ bs, ELoadPhase bs s := by
  have hclosed (hend : s.inEnd = true) : ∃ bs, ELoadPhase bs s := absurd (hopen.symm.trans hend) Bool.false_ne_true
  cases hI with
  | load bs h => exact ⟨bs, h⟩
  | header h => exact hclosed h.input_ended
  | entries h _ _ => exact hclosed h.input_ended
  | widths h _ => exact hclosed h.input_ended
  | check h _ _ _ _ => exact hclosed h.input_ended
  | emit h _ _ _ _ => exact hclosed h.input_ended
  | ended h => exact hclosed h.input_ended

/-! ## `E_LOAD` (R192) -/

theorem ELoadPhase.store (h : ELoadPhase bs s) (hk : bs.length < s.inBytes.length) :
    ELoadPhase (bs ++ [s.inBytes[bs.length]]) (eStore s.inBytes[bs.length] (s.advance 8)) := by
  obtain ⟨hb, hp, hopen, herr, hobits, hread, hipos, hstored, hwf⟩ := h
  refine ⟨hb, hp, hopen, herr, hobits, List.concat_get_prefix hread hk, ?_, hstored.concat _, hwf⟩
  rw [List.length_append, Nat.mul_add, ← hipos]
  rfl

/-- At the end of the input the whole stream has been loaded. -/
theorem ELoadPhase.expandPhase (h : ELoadPhase s.inBytes s) (hend : s.inEnd = true) (hall : s.inBytes = stream) :
    ExpandPhase stream .eHdr [] (s.setPhase .eHdr) := by
  subst hall
  obtain ⟨hb, -, hopen, herr, hobits, -, hipos, hstored, hwf⟩ := h
  exact ⟨hb, rfl, hopen, herr, hend, rfl, hipos, hobits, hstored, hwf⟩

theorem ELoadPhase.expandsOn (caps : Config.Caps) (h : ELoadPhase bs s) (hprefix : s.inBytes <+: stream)
    (hall : s.inEnd = true → s.inBytes = stream) (hcap : ∀ c, caps.inCap = some c → stream.length ≤ c) :
    ExpandsOn stream s (eLoad caps s) := by
  rcases h.read_prefix.length_le.lt_or_eq with hk | heq
  · have hroom : ¬ atCap caps.inCap s.B = true := by
      rw [h.stored.length_eq]
      exact not_atCap_of_lt (hk.trans_le hprefix.length_le) hcap
    have ht := h.store hk
    refine ⟨_, (eLoad_byte caps hk h.ipos_eq).trans (if_neg hroom), .load _ ht, ⟨rfl, rfl, rfl⟩, fun _ => ?_⟩
    have hipos := h.ipos_eq
    rw [dexpLeft_of_eLoad h.phase, dexpLeft_of_eLoad ht.phase, eStore_ipos, eStore_inBytes, advance_ipos,
      advance_inBytes]
    omega
  obtain rfl := h.read_prefix.eq_of_length heq
  cases hend : s.inEnd with
  | true =>
    have ht := h.expandPhase hend (hall hend)
    refine ⟨_, eLoad_end caps hend h.ipos_eq, .header ht, ⟨rfl, rfl, rfl⟩, fun _ => ?_⟩
    rw [dexpLeft_of_eLoad h.phase, dexpLeft_of_eHdr ht.phase, setPhase_inBytes]
    omega
  | false =>
    exact ⟨s, eLoad_wait caps hend h.ipos_eq, .load _ h, SameFeed.refl s,
      fun hf => absurd (hend ▸ hf) Bool.false_ne_true⟩

/-! ## The ways a later row ends -/

/-- An error that is the function's ends the run; the whole stream has been read, so none of it is discarded (R250). -/
theorem ExpandPhase.expandsOn_raise (h : ExpandPhase stream p out s) {e : ErrCode}
    (hresult : expandDict stream = .error e) {t : State} (hsame : SameFeed s t) (hipos : t.ipos = s.ipos) (hleft : 0 < dexpLeft s) :
    ExpandsOn stream s (raise e t) := by
  have hkept : t.inBytes.take ((t.ipos + 7) / 8) = t.inBytes := by
    refine List.take_of_length_le ?_
    rw [hipos, h.ipos_eq, hsame.inBytes_eq, h.input_eq]
    omega
  have hended : DexpEnded stream (t.abort e) := by
    refine ⟨by simp, by simp, ?_, ?_, ?_⟩
    · exact hsame.inEnd_eq.trans h.input_ended
    · exact hipos.trans h.ipos_eq
    · rw [hresult]; rfl
  refine ⟨_, raise_eq e t, .ended hended, ⟨hkept.trans hsame.inBytes_eq, hsame.inEnd_eq, hsame.host_eq⟩, fun _ => ?_⟩
  rwa [dexpLeft_of_halt hended.phase]

/-- A row that goes to the phase `q` with nothing written. -/
theorem ExpandPhase.goto (h : ExpandPhase stream p out s) {t : State} {q : Phase} (hkeeps : KeepsRun s t)
    (hq : t.phase = q) (hobits : t.obits = s.obits) (hwf : Memory.wf t.dict) : ExpandPhase stream q out t where
  busy := hkeeps.status_eq.trans h.busy
  phase := hq
  output_open := hkeeps.closed_eq.trans h.output_open
  err := hkeeps.err_eq.trans h.err
  input_ended := hkeeps.inEnd_eq.trans h.input_ended
  input_eq := hkeeps.inBytes_eq.trans h.input_eq
  ipos_eq := hkeeps.ipos_eq.trans h.ipos_eq
  obits_eq := hobits.trans h.obits_eq
  stored := by rw [hkeeps.ibuf_eq, hkeeps.B_eq]; exact h.stored
  dict_wf := hwf

/-- A row that writes a byte. -/
theorem ExpandPhase.write (h : ExpandPhase stream p out s) (b code : Byte) (j : Nat) :
    ExpandPhase stream p (out ++ [b]) { s with code := code, obits := s.obits ++ byteBits b, j := j } := by
  obtain ⟨hb, hp, hopen, herr, hend, hinput, hipos, hobits, hstored, hwf⟩ := h
  refine ⟨hb, hp, hopen, herr, hend, hinput, hipos, ?_, hstored, hwf⟩
  rw [bytesBits_concat, ← hobits]

/-! ## `E_HDR` and `E_DICT` (R194 to R197) -/

theorem keepsRun_eHeader (rem : BitVec 3) (u : BitVec 8) (s : State) :
    KeepsRun s (((eHeader rem u s).setJ 0).setPhase .eDict) := by
  refine ⟨⟨?_, ?_, ?_⟩, ?_, ?_, ?_, ?_, ?_, ?_⟩ <;> simp

/-- A stream too short for its header, or the header's two fields. -/
theorem ExpandPhase.expandsOn_eHdr (h : ExpandPhase stream .eHdr [] s) : ExpandsOn stream s (eHdr s) := by
  have hB := h.stored.length_eq
  by_cases hshort : 8 * s.B < 11
  · rw [eHdr_short hshort]
    refine h.expandsOn_raise (expandDict_of_short (by omega)) (SameFeed.refl s) rfl ?_
    rw [dexpLeft_of_eHdr h.phase]
    exact Nat.succ_pos _
  · have hbits := h.stored.bufBits_eq (a := 0) (n := 11) (by omega)
    have hlen : 11 ≤ (bytesBits stream).length := by rw [length_bytesBits]; omega
    have hrem : (BitVec.ofNat 3 (fieldAt (bytesBits stream) 0 3)).toNat = DictStream.rem stream :=
      Nat.mod_eq_of_lt (fieldAt_lt _ _ _)
    rw [eHdr_token (by omega), hbits, List.drop_zero, runToken_of (decode_header_take hlen)]
    have hkeeps := keepsRun_eHeader (BitVec.ofNat 3 (fieldAt (bytesBits stream) 0 3))
      (BitVec.ofNat 8 (fieldAt (bytesBits stream) 3 8)) s
    have ht := h.goto hkeeps (setPhase_phase _ _) (by simp) (by simpa using h.dict_wf)
    refine ⟨_, rfl, .entries ht ⟨hrem, congrArg (resolveUnique _) hB, lists_nil _⟩ (Nat.zero_le _),
      hkeeps.toSameFeed, fun _ => ?_⟩
    rw [dexpLeft_of_eHdr h.phase, dexpLeft_of_eDict rfl]
    simp only [setPhase_inBytes, setJ_inBytes, eHeader_inBytes]
    omega

/-- The entry at `j` is the stream's. -/
theorem DictRead.concat (hd : DictRead stream s.j s) (hwf : Memory.wf s.dict) :
    DictRead stream (s.j + 1) ((eEntry (DictStream.entry stream s.j) s).setJ (s.j + 1)) := by
  have hlists := hd.lists.concat hwf (DictStream.entry stream s.j)
  rw [List.length_map, List.length_range] at hlists
  refine ⟨hd.rem_eq, hd.unique_eq, ?_⟩
  rwa [List.range_succ, List.map_append]

theorem ExpandPhase.eDict_entry (h : ExpandPhase stream .eDict out s)
    (hfits : 11 + 8 * s.unique.toNat ≤ 8 * stream.length) (hj : s.j < s.unique.toNat) (hu : s.unique.toNat ≤ 256) :
    eDict s = .next ((eEntry (DictStream.entry stream s.j) s).setJ (s.j + 1)) := by
  have hB := h.stored.length_eq
  have hbits := h.stored.bufBits_eq (a := entryAddr s.j) (n := 8) (by rw [entryAddr]; omega)
  have hlen : (bufBits (entryAddr s.j) 8 s).length = 8 := bufBits_length (by rw [entryAddr]; omega)
  rw [eDict_token (by omega) hj, ← entryAddr, runToken_of (decode_entry hlen), hbits]
  exact execDictEnt_of_lt _ (by omega)

/-- A stream too short for its dictionary, one entry more, or all entries read. -/
theorem ExpandPhase.expandsOn_eDict (h : ExpandPhase stream .eDict [] s) (hd : DictRead stream s.j s)
    (hj : s.j ≤ (DictStream.unique stream).toNat) : ExpandsOn stream s (eDict s) := by
  have hB := h.stored.length_eq
  have hle := DictStream.unique_le stream
  have hunique := hd.unique_eq
  have hleft := dexpLeft_of_eDict h.phase
  rw [← hunique] at hj hle
  by_cases hshort : 8 * s.B < 11 + 8 * s.unique.toNat
  · rw [eDict_short hshort]
    refine h.expandsOn_raise (expandDict_of_short ?_) (SameFeed.refl s) rfl (by omega)
    rwa [← hB, ← hunique]
  by_cases hlt : s.j < s.unique.toNat
  · rw [h.eDict_entry (by omega) hlt hle]
    refine ⟨_, rfl, .entries (h.goto (keepsRun_next s _ _ _ _) h.phase rfl (Table.write_wf h.dict_wf _ _))
      (hd.concat h.dict_wf) (hunique ▸ hlt), ⟨rfl, rfl, rfl⟩, fun _ => ?_⟩
    rw [hleft, dexpLeft_of_eDict (by exact h.phase), setJ_inBytes, setJ_j, eEntry_inBytes]
    omega
  · have hall : s.j = s.unique.toNat := by omega
    rw [hall, hunique] at hd
    rw [eDict_end (by omega) (by omega)]
    refine ⟨_, rfl, .widths (h.goto (keepsRun_next s _ _ _ _) rfl rfl h.dict_wf)
      ⟨dictRead_of_eq hd rfl rfl rfl, ?_⟩, ⟨rfl, rfl, rfl⟩, fun _ => ?_⟩
    · rw [← hunique, ← hB]
      omega
    · rw [hleft, dexpLeft_of_eCalc rfl, setPhase_inBytes]
      omega

/-! ## `E_CALC` (R198 to R202) -/

/-- The computed payload is the stream's. -/
theorem ExpandPhase.eWidths_payload_eq (h : ExpandPhase stream p out s) (hd : DictDone stream s) :
    (eWidths s).payload = DictStream.payload stream := by
  rw [eWidths_payload, h.stored.length_eq, hd.read.rem_eq, hd.read.unique_eq, DictStream.payload]

theorem DictDone.eWidths_cw_eq (hd : DictDone stream s) : (eWidths s).cw.toNat = DictStream.cw stream := by
  have hu := DictStream.unique_le stream
  rw [← hd.read.unique_eq] at hu
  rw [toNat_eWidths_cw hu, hd.read.unique_eq, DictStream.cw]

theorem keepsRun_eWidths (s : State) (n : Nat) : KeepsRun s ((((eWidths s).setN n).setJ 0).setPhase .eCode) := by
  refine ⟨⟨?_, ?_, ?_⟩, ?_, ?_, ?_, ?_, ?_, ?_⟩ <;> simp

/-- The checks fail as the function's do, or the codes are counted. -/
theorem ExpandPhase.expandsOn_eCalc (h : ExpandPhase stream .eCalc [] s) (hd : DictDone stream s) :
    ExpandsOn stream s (eCalc s) := by
  have hpayload := h.eWidths_payload_eq hd
  have hcw := hd.eWidths_cw_eq
  have hunique := hd.read.unique_eq
  have hleft := dexpLeft_of_eCalc h.phase
  have hsame : SameFeed s (eWidths s) := ⟨rfl, rfl, rfl⟩
  by_cases hbad : DictStream.BadFormat stream
  · rw [eCalc_format (by rwa [hpayload, hunique])]
    exact h.expandsOn_raise (expandDict_of_badFormat hd.fits hbad) hsame rfl (by omega)
  have hgood : ¬ ((eWidths s).payload < 0 ∨ (s.unique = 0#9 ∧ (eWidths s).payload ≠ 0)) := by
    rwa [hpayload, hunique]
  by_cases hmod : DictStream.payload stream % DictStream.cw stream = 0
  · have hpos : 0 ≤ DictStream.payload stream := Int.not_lt.1 (not_or.1 hbad).1
    rw [eCalc_codes hgood (by rwa [hpayload, hcw]), hpayload, hcw, ← DictStream.count]
    have hkeeps := keepsRun_eWidths s (DictStream.count stream)
    have ht := h.goto hkeeps (setPhase_phase _ _) (by simp) (by simpa using h.dict_wf)
    have hd' : DictDone stream ((((eWidths s).setN (DictStream.count stream)).setJ 0).setPhase .eCode) :=
      dictDone_of_eq hd (by simp) (by simp) (by simp)
    refine ⟨_, rfl, .check ht hd' ?_ (Nat.zero_le _) (codesValid_zero stream), hkeeps.toSameFeed, fun _ => ?_⟩
    · exact ⟨hcw, (toNat_eWidths_pad s).trans (congrArg padOf hd.read.rem_eq), rfl, DictStream.total hpos hmod,
        expandDict_of_counted hd.fits hbad hmod⟩
    · rw [hleft, dexpLeft_of_eCode rfl]
      simp only [setPhase_inBytes, setJ_inBytes, setN_inBytes, eWidths_inBytes]
      omega
  · rw [eCalc_malformed hgood (by rwa [hpayload, hcw])]
    exact h.expandsOn_raise (expandDict_of_ragged hd.fits hbad hmod) hsame rfl (by omega)

/-! ## `E_CODE` and `E_EMIT` (R203 to R205) -/

/-- There are no more codes than bits. -/
theorem Counted.count_le (hc : Counted stream s) : DictStream.count stream ≤ 8 * stream.length := by
  have hmul := Nat.le_mul_of_pos_left (DictStream.count stream) (codeWidth_pos (DictStream.unique stream).toNat)
  have htotal := hc.total
  rw [codeAddr, DictStream.cw] at htotal
  omega

/-- Both passes read code `j` of the stream. -/
theorem ExpandPhase.exists_runToken_code (h : ExpandPhase stream p out s) (hd : DictDone stream s)
    (hc : Counted stream s) (hj : s.j < DictStream.count stream) :
    ∃ c : Byte, c.toNat = DictStream.code stream s.j ∧
      runToken (.code s.cw.toNat) (codeBits s) s = codeToken c s := by
  have hcw := hc.cw_eq
  have h1 : 1 ≤ s.cw.toNat := hcw ▸ codeWidth_pos _
  have h8 : s.cw.toNat ≤ 8 := hcw ▸ codeWidth_le_eight (DictStream.unique_le stream)
  have hfits : codeAddr s.unique.toNat s.cw.toNat s.j + s.cw.toNat ≤ 8 * stream.length := by
    have hmul := Nat.mul_le_mul_left (DictStream.cw stream) hj
    have htotal := hc.total
    rw [codeAddr] at htotal
    rw [hd.read.unique_eq, hcw, codeAddr]
    rw [Nat.mul_succ] at hmul
    omega
  obtain ⟨c, hval, hrun⟩ := runToken_code (s := s) (bits := codeBits s) h1 h8
    (bufBits_length (h.stored.length_eq ▸ hfits))
  refine ⟨c, ?_, hrun⟩
  rw [hval, codeBits, h.stored.bufBits_eq hfits, hd.read.unique_eq, hcw]
  rfl

/-- A code that is not below `unique`, one code more that is, or all codes valid (R203). -/
theorem ExpandPhase.expandsOn_eCode (h : ExpandPhase stream .eCode [] s) (hd : DictDone stream s)
    (hc : Counted stream s) (hj : s.j ≤ DictStream.count stream) (hvalid : CodesValid stream s.j) :
    ExpandsOn stream s (eCode s) := by
  have hleft := dexpLeft_of_eCode h.phase
  have hcount := hc.count_le
  have hlen := congrArg List.length h.input_eq
  rcases hj.lt_or_eq with hlt | heq
  · obtain ⟨c, hval, hrun⟩ := h.exists_runToken_code hd hc hlt
    rw [eCode_token (hc.n_eq ▸ hlt), hrun]
    by_cases hcode : DictStream.code stream s.j < (DictStream.unique stream).toNat
    · rw [codeToken_eCode_of_lt h.phase (by rwa [hval, hd.read.unique_eq])]
      refine ⟨_, rfl, .check (h.goto (keepsRun_next s _ _ _ _) h.phase rfl h.dict_wf)
        (dictDone_of_eq hd rfl rfl rfl) (counted_of_eq hc rfl rfl rfl) hlt (hvalid.succ hcode), ⟨rfl, rfl, rfl⟩,
        fun _ => ?_⟩
      rw [hleft, dexpLeft_of_eCode (by exact h.phase), setJ_inBytes, setJ_j, setCode_inBytes]
      omega
    · rw [codeToken_eCode_of_le h.phase (by rw [hval, hd.read.unique_eq]; omega)]
      have hresult := hc.result_eq.trans (expandCodes_of_invalid hlt (Nat.not_lt.1 hcode))
      exact h.expandsOn_raise hresult ⟨rfl, rfl, rfl⟩ rfl (by omega)
  · rw [eCode_end (by rw [hc.n_eq, heq])]
    refine ⟨_, rfl, .emit (h.goto (keepsRun_next s _ _ _ _) rfl rfl h.dict_wf)
      (dictDone_of_eq hd rfl rfl rfl) (counted_of_eq hc rfl rfl rfl) (Nat.zero_le _) (heq ▸ hvalid), ⟨rfl, rfl, rfl⟩,
      fun _ => ?_⟩
    rw [hleft, dexpLeft_of_eEmit rfl, setPhase_inBytes, setPhase_j, setJ_inBytes, setJ_j]
    omega

/-- The byte a valid code stands for is the dictionary's (R204). -/
theorem DictDone.read_dict (hd : DictDone stream s) {c : Nat} (hc : c < (DictStream.unique stream).toNat) :
    Table.read s.dict c = DictStream.entry stream c := by
  have hread := hd.read.lists c (by simpa using hc)
  rwa [List.getElem_map, List.getElem_range] at hread

/-- Behind the last code comes the padding, and the run is done with all bytes written (R204, R205). -/
theorem ExpandPhase.expandsOn_padding
    (h : ExpandPhase stream .eEmit ((List.range (DictStream.count stream)).map (DictStream.byte stream)) s)
    (hd : DictDone stream s) (hc : Counted stream s) (hvalid : CodesValid stream (DictStream.count stream)) :
    ExpandsOn stream s (runToken (.padding s.pad.toNat) (padBits s) s) := by
  have hlen : (padBits s).length = s.pad.toNat := by
    refine bufBits_length ?_
    rw [hd.read.unique_eq, hc.cw_eq, hc.n_eq, hc.pad_eq, h.stored.length_eq, hc.total]
  obtain ⟨pad, r, hdec⟩ := decode_padding_of_length s.pad.isLt hlen.ge
  have hwhole : padToByte s.obits = s.obits :=
    padToByte_of_whole (by rw [h.obits_eq, length_bytesBits, Nat.mul_mod_right])
  rw [runToken_of hdec]
  refine ⟨_, complete_eq_padToByte s, .ended ⟨nofun, rfl, h.input_ended, h.ipos_eq, ?_⟩, ⟨rfl, rfl, rfl⟩,
    fun _ => ?_⟩
  · rw [hc.result_eq, expandCodes_of_valid hvalid]
    change some (Status.done, s.err, some (packBytes (padToByte s.obits))) = _
    rw [h.err, hwhole, h.obits_eq, packBytes_bytesBits]
  · rw [dexpLeft_of_eEmit h.phase, dexpLeft_of_halt rfl]
    exact Nat.succ_pos _

theorem ExpandPhase.expandsOn_eEmit
    (h : ExpandPhase stream .eEmit ((List.range s.j).map (DictStream.byte stream)) s) (hd : DictDone stream s)
    (hc : Counted stream s) (hj : s.j ≤ DictStream.count stream)
    (hvalid : CodesValid stream (DictStream.count stream)) : ExpandsOn stream s (eEmit s) := by
  rcases hj.lt_or_eq with hlt | heq
  · obtain ⟨c, hval, hrun⟩ := h.exists_runToken_code hd hc hlt
    have hcount := hc.count_le
    have hlen := congrArg List.length h.input_eq
    have hbyte : Table.read s.dict c.toNat = DictStream.byte stream s.j := by
      rw [hval, hd.read_dict (hvalid s.j hlt), DictStream.byte]
    have ht := h.write (DictStream.byte stream s.j) c (s.j + 1)
    rw [eEmit_token (hc.n_eq ▸ hlt), hrun, codeToken_writes (by rw [h.phase]; decide) h.output_open, hbyte]
    refine ⟨_, rfl, .emit ?_ (dictDone_of_eq hd rfl rfl rfl) (counted_of_eq hc rfl rfl rfl) hlt hvalid,
      ⟨rfl, rfl, rfl⟩, fun _ => ?_⟩
    · rwa [← List.map_singleton, ← List.map_append, ← List.range_succ] at ht
    · rw [dexpLeft_of_eEmit h.phase, dexpLeft_of_eEmit (by exact h.phase)]
      dsimp only
      omega
  · rw [eEmit_padding (by rw [hc.n_eq, heq])]
    exact (heq ▸ h : ExpandPhase stream .eEmit _ s).expandsOn_padding hd hc hvalid

end

/-- The run of `DEXP` on a stream within the capacity. -/
theorem dexp_runRule {caps : Config.Caps} {stream : List Byte} (hcap : ∀ c, caps.inCap = some c → stream.length ≤ c) :
    RunRule caps stream (DexpRun stream) dexpLeft where
  setHost _ turns hI := hI.setHost turns
  addInput _ b hI hopen :=
    have ⟨bs, h⟩ := hI.exists_eLoadPhase_of_open hopen
    .load bs (h.addInput b)
  endInput _ hI hopen :=
    have ⟨bs, h⟩ := hI.exists_eLoadPhase_of_open hopen
    .load bs h.endInput
  busy _ hI hopen :=
    have ⟨_, h⟩ := hI.exists_eLoadPhase_of_open hopen
    h.busy
  step s hI hb hprefix hall := by
    cases hI with
    | load bs h => exact engineStep_eLoad caps hb h.phase ▸ h.expandsOn caps hprefix hall hcap
    | header h => exact engineStep_eHdr caps hb h.phase ▸ h.expandsOn_eHdr
    | entries h hd hj => exact engineStep_eDict caps hb h.phase ▸ h.expandsOn_eDict hd hj
    | widths h hd => exact engineStep_eCalc caps hb h.phase ▸ h.expandsOn_eCalc hd
    | check h hd hc hj hvalid => exact engineStep_eCode caps hb h.phase ▸ h.expandsOn_eCode hd hc hj hvalid
    | emit h hd hc hj hvalid => exact engineStep_eEmit caps hb h.phase ▸ h.expandsOn_eEmit hd hc hj hvalid
    | ended h => exact absurd hb h.idle

/-- START of `DEXP` opens a run that has read nothing (R191). -/
theorem dexp_started (stream : List Byte) {s : State} (ht : TablesOk s) (hs : s.status ≠ .busy)
    (turns : List HostTurn) :
    ∃ t, runCommand 0x01#8 (s.setHost turns) = .next t ∧ Started (DexpRun stream) turns t := by
  have hcmd : decode .command (byteBits 0x01#8) = some (.dexp, []) := by decide
  refine ⟨_, (runCommand_of _ hcmd).trans (dexpStartsTheDictionaryDecoder (s.setHost turns) hs), .load [] ?_, rfl, rfl,
    rfl⟩
  exact ⟨rfl, rfl, rfl, rfl, rfl, List.nil_prefix, rfl, stored_nil ht.ibuf_wf, ht.dict_wf⟩

end Sys2Proof.Machine

open Sys2Proof Sys2Proof.Machine

/-- Settles O58: the run ends with the decoder function's result, whichever row ends it. -/
theorem dexpComputesTheDecoderFunction : Obligations.DexpComputesTheDecoderFunction := by
  intro caps s stream hinv hs hsched hcap
  obtain ⟨t, hreach, hhost, hI, hidle⟩ :=
    (dexp_runRule hcap).ends_of_isSchedule hs hsched (dexp_started stream hinv.tables hs)
  cases hI with
  | load bs h => exact absurd h.busy hidle
  | header h => exact absurd h.busy hidle
  | entries h _ _ => exact absurd h.busy hidle
  | widths h _ => exact absurd h.busy hidle
  | check h _ _ _ _ => exact absurd h.busy hidle
  | emit h _ _ _ _ => exact absurd h.busy hidle
  | ended h => exact ⟨t, hreach, hhost, h.ipos_eq, h.result⟩

end

section
/-! The padding bits are not examined (43_dict_decoder.md R205): every field the decoder function reads lies before them,
so two streams that agree there have the same fields. -/

namespace Sys2Proof.Machine

/-- The two streams have one length, and their first `N` bits are the same. -/
structure AgreeUpTo (N : Nat) (a b : List Byte) : Prop where
  length_eq : a.length = b.length
  take_eq : (bytesBits a).take N = (bytesBits b).take N

section
variable {N : Nat} {a b : List Byte}

theorem AgreeUpTo.fieldAt_eq (h : AgreeUpTo N a b) {addr n : Nat} (hN : addr + n ≤ N) :
    fieldAt (bytesBits b) addr n = fieldAt (bytesBits a) addr n := by
  rw [← fieldAt_take hN, ← h.take_eq, fieldAt_take hN]

/-! ## The fields of two such streams (30_encoding.md R98) -/

theorem AgreeUpTo.rem_eq (h : AgreeUpTo N a b) (hN : 11 ≤ N) : DictStream.rem b = DictStream.rem a :=
  h.fieldAt_eq (by omega)

theorem AgreeUpTo.unique_eq (h : AgreeUpTo N a b) (hN : 11 ≤ N) : DictStream.unique b = DictStream.unique a := by
  rw [DictStream.unique, DictStream.unique, h.fieldAt_eq (by omega), h.length_eq]

theorem AgreeUpTo.payload_eq (h : AgreeUpTo N a b) (hN : 11 ≤ N) : DictStream.payload b = DictStream.payload a := by
  rw [DictStream.payload, DictStream.payload, h.rem_eq hN, h.unique_eq hN, h.length_eq]

theorem AgreeUpTo.cw_eq (h : AgreeUpTo N a b) (hN : 11 ≤ N) : DictStream.cw b = DictStream.cw a := by
  rw [DictStream.cw, DictStream.cw, h.unique_eq hN]

theorem AgreeUpTo.count_eq (h : AgreeUpTo N a b) (hN : 11 ≤ N) : DictStream.count b = DictStream.count a := by
  rw [DictStream.count, DictStream.count, h.payload_eq hN, h.cw_eq hN]

theorem AgreeUpTo.entry_eq (h : AgreeUpTo N a b) {i : Nat} (hN : 11 + 8 * (i + 1) ≤ N) :
    DictStream.entry b i = DictStream.entry a i := by
  rw [DictStream.entry, DictStream.entry, h.fieldAt_eq (by rw [entryAddr]; omega)]

theorem AgreeUpTo.code_eq (h : AgreeUpTo N a b) {k : Nat}
    (hN : codeAddr (DictStream.unique a).toNat (DictStream.cw a) (k + 1) ≤ N) :
    DictStream.code b k = DictStream.code a k := by
  rw [codeAddr, Nat.mul_succ] at hN
  have h11 : 11 ≤ N := by omega
  rw [DictStream.code, DictStream.code, h.unique_eq h11, h.cw_eq h11]
  exact h.fieldAt_eq (by rw [codeAddr]; omega)

/-! ## The function's value -/

/-- The codes are the same, and so are the bytes they stand for. -/
theorem AgreeUpTo.expandCodes_eq (h : AgreeUpTo N a b) {n : Nat}
    (hN : codeAddr (DictStream.unique a).toNat (DictStream.cw a) n ≤ N) :
    expandCodes (bytesBits b) (DictStream.unique b).toNat n =
      expandCodes (bytesBits a) (DictStream.unique a).toNat n := by
  have hdict : 11 + 8 * (DictStream.unique a).toNat ≤ N := by rw [codeAddr] at hN; omega
  have hunique := h.unique_eq (by omega)
  have hcode (k : Nat) (hk : k < n) : DictStream.code b k = DictStream.code a k :=
    h.code_eq ((Nat.add_le_add_left (Nat.mul_le_mul_left _ hk) _).trans hN)
  by_cases hvalid : CodesValid a n
  · have hvalid' : CodesValid b n := fun k hk => by
      rw [hcode k hk, hunique]
      exact hvalid k hk
    rw [expandCodes_of_valid hvalid, expandCodes_of_valid hvalid']
    refine congrArg Except.ok (List.map_congr_left fun k hk => ?_)
    have hk : k < n := List.mem_range.1 hk
    have hlt := hvalid k hk
    rw [DictStream.byte, DictStream.byte, hcode k hk, h.entry_eq (by omega)]
  · obtain ⟨k, hk, hle⟩ : ∃ k < n, (DictStream.unique a).toNat ≤ DictStream.code a k := by
      simpa [CodesValid] using hvalid
    have hle' : (DictStream.unique b).toNat ≤ DictStream.code b k := by rwa [hcode k hk, hunique]
    rw [expandCodes_of_invalid hk hle, expandCodes_of_invalid hk hle']

/-- With room for the padding, all codes lie before it. -/
theorem expandDict_eq_of_agreeUpTo
    (h : AgreeUpTo (8 * a.length - padOf (DictStream.rem a)) a b)
    (hfits : 11 + 8 * (DictStream.unique a).toNat + padOf (DictStream.rem a) ≤ 8 * a.length) :
    expandDict b = expandDict a := by
  have h11 : 11 ≤ 8 * a.length - padOf (DictStream.rem a) := by omega
  have hfits' : 11 + 8 * (DictStream.unique b).toNat ≤ 8 * b.length := by
    rw [h.unique_eq h11, ← h.length_eq]
    omega
  have hpayload := h.payload_eq h11
  by_cases hbad : DictStream.BadFormat a
  · have hbad' : DictStream.BadFormat b := by rwa [DictStream.BadFormat, h.unique_eq h11, hpayload]
    rw [expandDict_of_badFormat (by omega) hbad, expandDict_of_badFormat hfits' hbad']
  · have hbad' : ¬ DictStream.BadFormat b := by rwa [DictStream.BadFormat, h.unique_eq h11, hpayload]
    have hcodes := DictStream.codes_le (Int.not_lt.1 (not_or.1 hbad).1)
    rw [expandDict_of_not_badFormat (by omega) hbad, expandDict_of_not_badFormat hfits' hbad', hpayload, h.cw_eq h11,
      h.count_eq h11, h.expandCodes_eq (by omega)]

end

/-! ## The result of an ended run -/

/-- A run has one result. -/
theorem result_eq_of_hasResult {s t : State} {r : Except ErrCode (List Byte)} (hs : s.hasResult r)
    (ht : t.hasResult r) : t.result = s.result := by
  cases r with
  | ok out => exact ht.trans hs.symm
  | error e => exact ht.trans hs.symm

end Sys2Proof.Machine

open Sys2Proof Sys2Proof.Machine

/-- Settles O47: the decoder function does not see the padding, and runs compute the function. -/
theorem paddingBitsAreNotExamined : Obligations.PaddingBitsAreNotExamined := by
  rintro a b _ _ hlen rfl rfl hfits hagree
  have heq : expandDict b = expandDict a := expandDict_eq_of_agreeUpTo ⟨hlen, hagree⟩ hfits
  refine ⟨heq, fun caps s s' hinv hinv' hs hs' hsched hsched' hcap => ?_⟩
  obtain ⟨t, hreach, hhost, -, hresult⟩ := dexpComputesTheDecoderFunction caps s a hinv hs hsched hcap
  obtain ⟨t', hreach', hhost', -, hresult'⟩ := dexpComputesTheDecoderFunction caps s' b hinv' hs' hsched' (hlen ▸ hcap)
  rw [heq] at hresult'
  exact ⟨t, t', hreach, hreach', hhost, hhost', hresult, result_eq_of_hasResult hresult hresult'⟩

end

section
/-! The dictionary round trip (43_dict_decoder.md R209): the fields that the decoder function finds in an encoded message
are the ones that the encoder wrote, so the function gives the message back. -/

namespace Sys2Proof.Machine

/-! ## Fields by their place in a bit sequence -/

/-- The field behind `pre`. -/
theorem fieldAt_append {pre f post : List Bool} {addr n : Nat} (haddr : pre.length = addr) (hn : f.length = n) :
    fieldAt (pre ++ (f ++ post)) addr n = natOf f := by
  rw [fieldAt, ← haddr, ← hn, List.drop_left, List.take_left]

/-- The field of element `k`, where behind `pre` every element takes `w` bits. -/
theorem fieldAt_flatMap {α : Type} {g : α → List Bool} {w k addr : Nat} {pre post : List Bool} {xs : List α}
    (hw : ∀ x, (g x).length = w) (hk : k < xs.length) (haddr : pre.length + w * k = addr) :
    fieldAt (pre ++ (xs.flatMap g ++ post)) addr w = natOf (g xs[k]) := by
  have hsplit : xs.flatMap g = (xs.take k).flatMap g ++ (g xs[k] ++ (xs.drop (k + 1)).flatMap g) := by
    rw [← List.flatMap_cons, ← List.flatMap_append, List.getElem_cons_drop, List.take_append_drop]
  have hpre : (pre ++ (xs.take k).flatMap g).length = addr := by
    simp [List.length_flatMap, hw, hk.le, Nat.mul_comm, ← haddr]
  rw [hsplit, List.append_assoc, List.append_assoc, ← List.append_assoc pre]
  exact fieldAt_append hpre (hw _)

/-! ## The encoded message (30_encoding.md R98) -/

/-- What `DCOMP` gives for a message. -/
def encodedDict (m : List Byte) : List Byte := packBytes (padToByte (dictStream m))

theorem bytesBits_encodedDict (m : List Byte) : bytesBits (encodedDict m) = padToByte (dictStream m) :=
  (packBytes_padToByte_eq_iff.1 rfl).symm

section
variable (m : List Byte)

theorem length_encodedDict :
    8 * (encodedDict m).length =
      codeAddr (firstOccurrences m).length (codeWidth (firstOccurrences m).length) m.length +
        padOf (remainder (codeWidth (firstOccurrences m).length) m.length) := by
  rw [← length_bytesBits, bytesBits_encodedDict, length_padToByte, length_dictStream, codeAddr_mod_eight]

/-- Only the empty message has an empty dictionary. -/
theorem length_firstOccurrences_eq_zero : (firstOccurrences m).length = 0 ↔ m.length = 0 := by
  rw [List.length_eq_zero_iff, List.length_eq_zero_iff, List.eq_nil_iff_forall_not_mem, List.eq_nil_iff_forall_not_mem]
  exact forall_congr' fun b => not_congr mem_firstOccurrences

/-- Only the empty message has an encoding of two bytes. -/
theorem length_encodedDict_eq_two : (firstOccurrences m).length = 0 ↔ (encodedDict m).length = 2 := by
  have hlen := length_encodedDict m
  rw [codeAddr] at hlen
  constructor
  · intro hu
    rw [(length_firstOccurrences_eq_zero m).1 hu, hu, Nat.mul_zero, remainder, Nat.mul_zero] at hlen
    have hpad : padOf ((3 + 0) % 8) = 5 := rfl
    omega
  · intro h2
    omega

/-- The header, the dictionary, the codes, and the fill of the last byte. -/
theorem exists_bytesBits_encodedDict :
    ∃ fill, bytesBits (encodedDict m) =
      dictHeader m ++ (bytesBits (firstOccurrences m) ++ (codesOf (firstOccurrences m) m ++ fill)) :=
  ⟨_, by rw [bytesBits_encodedDict, padToByte, dictStream_eq, List.append_assoc, List.append_assoc]⟩

theorem length_dictHeader : (dictHeader m).length = 11 := by
  rw [dictHeader, List.length_append, length_bitsOf, length_bitsOf]

/-! ## What the decoder finds (R195 to R203) -/

theorem rem_encodedDict :
    DictStream.rem (encodedDict m) = remainder (codeWidth (firstOccurrences m).length) m.length := by
  obtain ⟨fill, hbits⟩ := exists_bytesBits_encodedDict m
  rw [DictStream.rem, hbits, dictHeader, List.append_assoc]
  exact (fieldAt_append (pre := []) rfl (length_bitsOf 3 _)).trans (natOf_bitsOf_of_lt (remainder_lt _ _))

theorem fieldAt_encodedDict_unique :
    fieldAt (bytesBits (encodedDict m)) 3 8 = storedUnique (firstOccurrences m).length := by
  obtain ⟨fill, hbits⟩ := exists_bytesBits_encodedDict m
  have hlt : storedUnique (firstOccurrences m).length < 2 ^ 8 := Nat.mod_lt _ (by decide)
  rw [hbits, dictHeader, List.append_assoc, fieldAt_append (length_bitsOf 3 _) (length_bitsOf 8 _),
    natOf_bitsOf_of_lt hlt]

theorem unique_encodedDict : (DictStream.unique (encodedDict m)).toNat = (firstOccurrences m).length := by
  rw [DictStream.unique, fieldAt_encodedDict_unique]
  exact storedUniqueResolves _ _ (length_firstOccurrences_le m) (length_encodedDict_eq_two m)

theorem cw_encodedDict : DictStream.cw (encodedDict m) = codeWidth (firstOccurrences m).length := by
  rw [DictStream.cw, unique_encodedDict]

theorem payload_encodedDict :
    DictStream.payload (encodedDict m) = (codeWidth (firstOccurrences m).length * m.length : Nat) := by
  have hlen := length_encodedDict m
  rw [codeAddr] at hlen
  rw [DictStream.payload, rem_encodedDict, unique_encodedDict]
  omega

theorem count_encodedDict : DictStream.count (encodedDict m) = m.length := by
  rw [DictStream.count, payload_encodedDict, cw_encodedDict, ← Int.natCast_div, Int.toNat_natCast,
    Nat.mul_div_cancel_left _ (codeWidth_pos _)]

variable {m}

theorem entry_encodedDict {i : Nat} (hi : i < (firstOccurrences m).length) :
    DictStream.entry (encodedDict m) i = (firstOccurrences m)[i] := by
  obtain ⟨fill, hbits⟩ := exists_bytesBits_encodedDict m
  have haddr : (dictHeader m).length + 8 * i = entryAddr i := by rw [length_dictHeader, entryAddr]
  rw [DictStream.entry, hbits, bytesBits, fieldAt_flatMap length_byteBits hi haddr, ofNat_natOf_byteBits]

theorem idxOf_firstOccurrences_lt {k : Nat} (hk : k < m.length) :
    (firstOccurrences m).idxOf m[k] < (firstOccurrences m).length :=
  List.idxOf_lt_length_of_mem (mem_firstOccurrences.2 (List.getElem_mem hk))

theorem code_encodedDict {k : Nat} (hk : k < m.length) :
    DictStream.code (encodedDict m) k = (firstOccurrences m).idxOf m[k] := by
  obtain ⟨fill, hbits⟩ := exists_bytesBits_encodedDict m
  have hlt := (idxOf_firstOccurrences_lt hk).trans_le (le_two_pow_codeWidth _)
  have haddr : (dictHeader m ++ bytesBits (firstOccurrences m)).length +
      codeWidth (firstOccurrences m).length * k =
        codeAddr (firstOccurrences m).length (codeWidth (firstOccurrences m).length) k := by
    rw [List.length_append, length_dictHeader, length_bytesBits, codeAddr]
  rw [DictStream.code, hbits, unique_encodedDict, cw_encodedDict, ← List.append_assoc, codesOf,
    fieldAt_flatMap (fun _ => length_bitsOf _ _) hk haddr, natOf_bitsOf_of_lt hlt]

/-- Code `k` stands for byte `k` of the message. -/
theorem byte_encodedDict {k : Nat} (hk : k < m.length) : DictStream.byte (encodedDict m) k = m[k] := by
  rw [DictStream.byte, code_encodedDict hk, entry_encodedDict (idxOf_firstOccurrences_lt hk), List.getElem_idxOf]

variable (m)

/-! ## The message comes back -/

theorem codesValid_encodedDict : CodesValid (encodedDict m) m.length := by
  intro k hk
  rw [code_encodedDict hk, unique_encodedDict]
  exact idxOf_firstOccurrences_lt hk

theorem not_badFormat_encodedDict : ¬ DictStream.BadFormat (encodedDict m) := by
  rw [DictStream.BadFormat, payload_encodedDict]
  rintro (hneg | ⟨hempty, hne⟩)
  · exact Int.not_lt.2 (Int.natCast_nonneg _) hneg
  · have hzero : m.length = 0 := by
      rw [← length_firstOccurrences_eq_zero, ← unique_encodedDict, hempty]
      rfl
    exact hne (by rw [hzero, Nat.mul_zero]; rfl)

theorem expandDict_encodedDict : expandDict (encodedDict m) = .ok m := by
  have hfits : 11 + 8 * (DictStream.unique (encodedDict m)).toNat ≤ 8 * (encodedDict m).length := by
    rw [length_encodedDict, unique_encodedDict, codeAddr]
    omega
  have hmod : DictStream.payload (encodedDict m) % DictStream.cw (encodedDict m) = 0 := by
    rw [payload_encodedDict, cw_encodedDict, ← Int.natCast_mod, Nat.mul_mod_right]
    rfl
  have hbytes : (List.range m.length).map (DictStream.byte (encodedDict m)) = m := by
    refine List.ext_getElem (by simp) fun k _ hk => ?_
    rw [List.getElem_map, List.getElem_range, byte_encodedDict hk]
  rw [expandDict_of_counted hfits (not_badFormat_encodedDict m) hmod, count_encodedDict,
    expandCodes_of_valid (codesValid_encodedDict m), hbytes]

end

end Sys2Proof.Machine

open Sys2Proof Sys2Proof.Machine

/-- Settles O59: the run of `DCOMP` gives the encoded message, and the decoder function of that is the message. -/
theorem dictionaryRoundTrip : Obligations.DictionaryRoundTrip := by
  intro caps s m hinv hs hsched hcap
  obtain ⟨t, hreach, hhost, hdone, -, hobits, -, -, -, -, -⟩ :=
    dcompWritesTheDictionaryStream caps s m hinv hs hsched hcap
  have hout : t.outBytes = encodedDict m := congrArg packBytes hobits
  refine ⟨t, hreach, hhost, hdone, fun hcap' s' hinv' hs' hsched' => ?_⟩
  rw [hout] at hcap' hsched'
  obtain ⟨u, hreach', hhost', -, hresult⟩ := dexpComputesTheDecoderFunction caps s' _ hinv' hs' hsched' hcap'
  rw [expandDict_encodedDict] at hresult
  exact ⟨u, hreach', hhost', hresult⟩

end

section
/-! The control layer (44_control.md): a START in every state, by its five commands (R221 to R223, R227); RESET and reads
(R229, R233); and turns that the block does not heed while no engine runs. -/

namespace Sys2Proof.Machine

/-! ## START (R221 to R223, R227) -/

/-- What a command byte runs (30_encoding.md R92, R93): one of the four operations, or none. -/
inductive Command (c : Byte) : (State → Res) → Prop
  | dcomp (h : c = 0x00#8) : Command c execDcomp
  | dexp (h : c = 0x01#8) : Command c execDexp
  | rcomp (h : c = 0x02#8) : Command c execRcomp
  | rexp (h : c = 0x03#8) : Command c execRexp
  | reserved (h : decodeCommand c = none) : Command c (usageError c)

/-- A command byte that decodes to no instruction is a usage error (R223). -/
theorem runCommand_of_none {c : Byte} (h : decodeCommand c = none) (s : State) : runCommand c s = usageError c s := by
  rw [runCommand, decode_command_byteBits, h]
  rfl

theorem runCommand_of_some {c : Byte} {i : Instr} (h : decodeCommand c = some i) (s : State) :
    runCommand c s = exec i s :=
  runCommand_of (r := []) s (by rw [decode_command_byteBits, h]; rfl)

theorem command_runCommand (c : Byte) : Command c (runCommand c) := by
  by_cases hrsv : c.extractLsb' 2 6 = 0#6
  · have hlt := toNat_lt_four_of_rsv_eq_zero hrsv
    obtain h | h | h | h : c.toNat = 0 ∨ c.toNat = 1 ∨ c.toNat = 2 ∨ c.toNat = 3 := by omega
    · obtain rfl : c = 0x00#8 := BitVec.eq_of_toNat_eq h
      rw [funext (runCommand_of_some (show decodeCommand 0x00#8 = some .dcomp by decide))]
      exact .dcomp rfl
    · obtain rfl : c = 0x01#8 := BitVec.eq_of_toNat_eq h
      rw [funext (runCommand_of_some (show decodeCommand 0x01#8 = some .dexp by decide))]
      exact .dexp rfl
    · obtain rfl : c = 0x02#8 := BitVec.eq_of_toNat_eq h
      rw [funext (runCommand_of_some (show decodeCommand 0x02#8 = some .rcomp by decide))]
      exact .rcomp rfl
    · obtain rfl : c = 0x03#8 := BitVec.eq_of_toNat_eq h
      rw [funext (runCommand_of_some (show decodeCommand 0x03#8 = some .rexp by decide))]
      exact .rexp rfl
  · have hnone : decodeCommand c = none := if_neg hrsv
    rw [funext (runCommand_of_none hnone)]
    exact .reserved hnone

/-- R227, for each instruction that a command byte selects. -/
theorem exec_of_busy {s : State} {c : Byte} {i : Instr} (hb : s.status = .busy) (h : decodeCommand c = some i) :
    exec i s = .next s := by
  obtain ⟨c', init, hstart⟩ := exec_eq_startEngine_of_decodeCommand s h
  rw [hstart, startEngine_busy hb]

/-- R227, for every command byte. -/
theorem runCommand_busy {s : State} (c : Byte) (hb : s.status = .busy) : runCommand c s = .next s := by
  cases hd : decodeCommand c with
  | none => rw [runCommand_of_none hd, usageError_busy hb]
  | some i => rw [runCommand_of_some hd, exec_of_busy hb hd]

/-- Closing the empty output that a START leaves adds no bit (R223). -/
theorem outClose_accept_obits (c : Byte) (s : State) : (outClose (s.accept c)).obits = [] := by
  simp [State.opos]

/-! ## Turns that no engine heeds (R229, R233; log 3) -/

/-- The two turns that the block heeds in every state. -/
def HostTurn.commands : HostTurn → Bool
  | .reset | .start _ => true
  | .supply _ | .endInput | .read _ | .idle => false

/-- With no engine running any other turn is only over. -/
theorem hostTurn_of_not_busy {s : State} {turn : HostTurn} (caps : Config.Caps) (hs : s.status ≠ .busy)
    (hturn : turn.commands = false) : hostTurn caps turn s = .next s := by
  cases turn with
  | reset => cases hturn
  | start c => cases hturn
  | supply b => exact congrArg _ (if_neg fun h => hs h.1)
  | endInput => exact congrArg _ (if_neg hs)
  | read r => rfl
  | idle => exact engineStep_of_not_busy caps hs

theorem stepWith_of_not_busy {s : State} {turn : HostTurn} {rest : List HostTurn} (caps : Config.Caps)
    (hs : s.status ≠ .busy) (hhost : s.host = turn :: rest) (hturn : turn.commands = false) :
    stepWith caps s = .next (s.setHost rest) :=
  (stepWith_of_host_cons caps hhost).trans (hostTurn_of_not_busy (s := s.setHost rest) caps hs hturn)

theorem commands_iff {turn : HostTurn} : turn.commands = true ↔ turn = .reset ∨ ∃ c, turn = .start c := by
  cases turn <;> simp [HostTurn.commands]

end Sys2Proof.Machine

open Sys2Proof Sys2Proof.Machine

/-- Settles O19: with a reserved bit set the byte decodes to no instruction, and closing an empty output adds no bit. -/
theorem reservedCommandIsAUsageError : Obligations.ReservedCommandIsAUsageError := by
  intro caps s c rest hhost hs hrsv
  have hnone : decodeCommand c = none := if_neg hrsv
  have hstep : stepWith caps s = _ :=
    (stepWith_of_host_cons caps hhost).trans <|
      (runCommand_of_none hnone _).trans (usageError_accepted (s := s.setHost rest) hs)
  exact ⟨_, hstep, rfl, rfl, rfl, rfl, rfl, outClose_accept_obits c _, congrArg packBytes (outClose_accept_obits c _), rfl,
    rfl⟩

/-- Settles O20: the four operations turn a START away alike, and so does the usage error. -/
theorem startWhileBusyIsIgnored : Obligations.StartWhileBusyIsIgnored := by
  refine ⟨fun s hb => ?_, fun caps s c rest hhost hb => ?_⟩
  · have hignored (c : Byte) {i : Instr} (h : decodeCommand c = some i) : exec i s = .next s := exec_of_busy hb h
    exact ⟨hignored 0x00#8 (by decide), hignored 0x01#8 (by decide), hignored 0x02#8 (by decide),
      hignored 0x03#8 (by decide)⟩
  · rw [stepWith_of_host_cons caps hhost]
    exact runCommand_busy (s := s.setHost rest) c hb

/-- Settles O21: whatever the state is, RESET leaves the reset values. -/
theorem resetIsAcceptedInEveryState : Obligations.ResetIsAcceptedInEveryState := by
  intro caps s rest hhost
  exact ⟨resetBlock (s.setHost rest), stepWith_of_host_cons caps hhost, rfl, rfl, rfl, rfl, rfl, rfl, rfl, rfl, rfl, rfl,
    rfl, rfl, rfl, Table.read_nil, rfl⟩

/-- Settles O23: a read is only over, the numbers are the tables' of R22 and R241, and with no engine running every turn
but RESET and START is only over too. -/
theorem readsChangeNothingAndErrHolds : Obligations.ReadsChangeNothingAndErrHolds := by
  refine ⟨fun caps s r rest hhost => stepWith_of_host_cons caps hhost, fun s => ?numbers, fun caps s t hs hstep => ?holds⟩
  case numbers =>
    refine ⟨rfl, ?_, ?_, ?_, ?_, ?_, ?_, ?_, ?_, ?_⟩
    all_goals
      intro h
      rw [hostRead, h]
      rfl
  case holds =>
    cases hhost : s.host with
    | nil =>
      rw [stepWith_of_host_nil caps hhost, engineStep_of_not_busy caps hs] at hstep
      exact .inl (congrArg State.err (next_inj.1 hstep).symm)
    | cons turn rest =>
      by_cases hturn : turn.commands = true
      · obtain rfl | ⟨c, rfl⟩ := commands_iff.1 hturn
        · exact .inr ⟨rest, .inl rfl⟩
        · exact .inr ⟨rest, .inr ⟨c, rfl⟩⟩
      · rw [stepWith_of_not_busy caps hs hhost (Bool.eq_false_of_not_eq_true hturn)] at hstep
        exact .inl (by rw [← next_inj.1 hstep, setHost_err])

/-- Settles O26: each of the four phases finds too few bits, and no mark. -/
theorem anEngineWaitsForInput : Obligations.AnEngineWaitsForInput := by
  intro caps s hb hphase hi hend
  obtain hp | hp | hp | hp := hphase
  · rw [engineStep_rScan caps hb hp, rScan_wait hend hi]
  · rw [engineStep_xRead caps hb hp, xRead_wait hend hi]
  · rw [engineStep_dLoad caps hb hp, dLoad_wait caps hend hi]
  · rw [engineStep_eLoad caps hb hp, eLoad_wait caps hend hi]

end

section
/-! Every step keeps the invariant (10_state.md R22 to R28, R33 to R35; 44_control.md R224 to R231). One rule per way a row
of the phase tables ends, the dictionary encoder's tables under one more byte (42_dict_encoder.md R165), then one lemma per
row and per turn of the host. -/

namespace Sys2Proof.Machine

/-! ## The part of the invariant that belongs to a phase -/

section
variable {s : State}

theorem phaseOk_halt (hp : s.phase = .halt) : PhaseOk s := by rw [PhaseOk, hp]; trivial

theorem phaseOk_rScan (hp : s.phase = .rScan) :
    PhaseOk s ↔ s.valueCount.toNat < Config.MAX ∧ s.obits.length % 8 = 0 := by rw [PhaseOk, hp]

theorem phaseOk_rFlush (hp : s.phase = .rFlush) :
    PhaseOk s ↔ s.valueCount.toNat < Config.MAX ∧ s.obits.length % 8 = 0 := by rw [PhaseOk, hp]

theorem phaseOk_xRead (hp : s.phase = .xRead) : PhaseOk s ↔ s.ipos % 8 = 0 := by rw [PhaseOk, hp]

theorem phaseOk_dLoad (hp : s.phase = .dLoad) : PhaseOk s ↔ s.ipos = 8 * s.length ∧ s.obits = [] ∧ DictOk s := by
  rw [PhaseOk, hp]

theorem phaseOk_dCalc (hp : s.phase = .dCalc) : PhaseOk s ↔ s.obits = [] ∧ DictOk s := by rw [PhaseOk, hp]

theorem phaseOk_dHdr (hp : s.phase = .dHdr) : PhaseOk s ↔ s.obits = [] ∧ DictOk s ∧ EncWidthsOk s := by
  rw [PhaseOk, hp]

theorem phaseOk_dDict (hp : s.phase = .dDict) :
    PhaseOk s ↔ s.j ≤ s.unique.toNat ∧ s.obits.length = entryAddr s.j ∧ DictOk s ∧ EncWidthsOk s := by
  rw [PhaseOk, hp]

theorem phaseOk_dCode (hp : s.phase = .dCode) :
    PhaseOk s ↔ s.j ≤ s.length ∧ s.obits.length = codeAddr s.unique.toNat s.cw.toNat s.j ∧ DictOk s ∧ EncWidthsOk s := by
  rw [PhaseOk, hp]

theorem phaseOk_dClose (hp : s.phase = .dClose) :
    PhaseOk s ↔ s.obits.length = codeAddr s.unique.toNat s.cw.toNat s.length ∧ DictOk s ∧ EncWidthsOk s := by
  rw [PhaseOk, hp]

theorem phaseOk_eLoad (hp : s.phase = .eLoad) : PhaseOk s ↔ s.ipos = 8 * s.B ∧ s.obits = [] := by rw [PhaseOk, hp]

theorem phaseOk_eHdr (hp : s.phase = .eHdr) : PhaseOk s ↔ s.ipos = 8 * s.B ∧ s.obits = [] := by rw [PhaseOk, hp]

theorem phaseOk_eDict (hp : s.phase = .eDict) :
    PhaseOk s ↔ s.obits = [] ∧ 2 ≤ s.B ∧ s.unique = resolveUnique s.U s.B ∧ s.j ≤ s.unique.toNat := by
  rw [PhaseOk, hp]

theorem phaseOk_eCalc (hp : s.phase = .eCalc) : PhaseOk s ↔ s.obits = [] ∧ DecDictOk s := by rw [PhaseOk, hp]

theorem phaseOk_eCode (hp : s.phase = .eCode) :
    PhaseOk s ↔ s.obits = [] ∧ DecDictOk s ∧ DecWidthsOk s ∧ s.j ≤ s.n := by rw [PhaseOk, hp]

theorem phaseOk_eEmit (hp : s.phase = .eEmit) :
    PhaseOk s ↔ s.obits.length = 8 * s.j ∧ DecDictOk s ∧ DecWidthsOk s ∧ s.j ≤ s.n := by rw [PhaseOk, hp]

end

/-! ## The ways a row ends -/

/-- What an engine's step from `s` leaves: the invariant, `CMD` and the host's turns, and it is no RESET (R228). -/
structure EngineStepOk (s t : State) : Prop where
  invariant : Invariant t
  cmd_eq : t.cmd = s.cmd
  host_eq : t.host = s.host
  not_idle : t.status ≠ .idle

/-- A step that goes on with the run: the host's side, `CMD`, `STATUS`, `ERR` and `closed` stay. -/
structure SameRun (s t : State) : Prop extends SameFeed s t where
  cmd_eq : t.cmd = s.cmd
  status_eq : t.status = s.status
  err_eq : t.err = s.err
  closed_eq : t.closed = s.closed

theorem err_eq_none_of_busy {s : State} (h : ControlOk s) (hb : s.status = .busy) : s.err = .none :=
  not_not.1 fun herr => absurd (hb.symm.trans (h.error_iff.2 herr)) (by decide)

/-- An error leaves the invariant, whatever the registers were (60_exceptions.md R250, R252). -/
theorem invariant_abort {s : State} {e : ErrCode} (he : e ≠ .none) (hipos : s.ipos ≤ 8 * s.inBytes.length) :
    Invariant (s.abort e) where
  tables := forget_tables _
  streams := by
    refine ⟨?_, fun _ => ?_⟩
    · rw [abort_ipos, abort_inBytes, List.length_take]
      omega
    · rw [abort_obits, length_bytesBits, Nat.mul_mod_right]
  control := ⟨iff_of_false nofun (not_not_intro rfl), nofun, nofun, iff_of_true rfl he, fun _ => rfl, nofun⟩
  phase_ok := phaseOk_halt rfl

section
variable {s t : State}

theorem stepOk_raise {e : ErrCode} (he : e ≠ .none) (hcmd : t.cmd = s.cmd) (hhost : t.host = s.host)
    (hipos : t.ipos ≤ 8 * t.inBytes.length) : Answers (EngineStepOk s) (raise e t) :=
  answers_next ⟨invariant_abort he hipos, hcmd, hhost, nofun⟩

section
variable (h : Invariant s) (hb : s.status = .busy)
include h hb

/-- A wait. -/
theorem stepOk_same : Answers (EngineStepOk s) (.next s) :=
  answers_next ⟨h, rfl, rfl, by rw [hb]; decide⟩

/-- Completion with the output `bits`, the whole input read (R225). -/
theorem stepOk_completed (bits : List Bool) (hread : s.inEmpty = true) :
    EngineStepOk s { s with obits := padToByte bits, closed := true, phase := .halt, status := .done } where
  invariant := by
    have herr := err_eq_none_of_busy h.control hb
    refine ⟨tables_of_eq h.tables rfl rfl rfl rfl rfl, ⟨h.streams.ipos_le, fun _ => ?_⟩, ?_, phaseOk_halt rfl⟩
    · rw [length_padToByte, padOf]
      omega
    · exact ⟨iff_of_false nofun (not_not_intro rfl), nofun, nofun, iff_of_false nofun (not_not_intro herr), fun _ => rfl,
        fun _ => hread⟩
  cmd_eq := rfl
  host_eq := rfl
  not_idle := nofun

theorem stepOk_complete (hread : s.inEmpty = true) : Answers (EngineStepOk s) (complete s) := by
  rw [complete_eq_padToByte]
  exact answers_next (stepOk_completed h hb s.obits hread)

/-- A step within a run, to a phase of the same engine. -/
theorem stepOk_next (hrun : SameRun s t) (htables : TablesOk t) (hipos : t.ipos ≤ 8 * t.inBytes.length)
    (hengine : t.phase.engine = s.phase.engine) (hread : t.phase.afterInput = true → t.inEmpty = true)
    (hphase : PhaseOk t) : Answers (EngineStepOk s) (.next t) := by
  have hbusy : t.status = .busy := hrun.status_eq.trans hb
  have hopen : t.closed = false := hrun.closed_eq.trans (h.control.busy_open hb)
  have hcmd : t.phase.engine = some t.cmd := hengine.trans (hrun.cmd_eq ▸ h.control.busy_engine hb)
  have hrunning : t.phase ≠ .halt := fun hp => by rw [hp] at hcmd; cases hcmd
  have herr : t.err = .none := hrun.err_eq.trans (err_eq_none_of_busy h.control hb)
  refine answers_next ⟨⟨htables, ⟨hipos, fun hc => ?_⟩, ?_, hphase⟩, hrun.cmd_eq, hrun.host_eq, by rw [hbusy]; decide⟩
  · exact absurd (hopen.symm.trans hc) Bool.false_ne_true
  · refine ⟨iff_of_true hbusy hrunning, fun _ => hopen, fun _ => hcmd, ?_, ?_, ?_⟩
    · exact iff_of_false (by rw [hbusy]; decide) (not_not_intro herr)
    · rw [hbusy]
      exact fun hended => hended.elim nofun nofun
    · exact fun hend => hend.elim (fun hd => absurd (hbusy.symm.trans hd) (by decide)) hread

/-- A step of a phase behind the input, which reads no more of it. -/
theorem stepOk_later (hlater : s.phase.afterInput = true) (hrun : SameRun s t) (htables : TablesOk t)
    (hipos : t.ipos = s.ipos) (hengine : t.phase.engine = s.phase.engine) (hphase : PhaseOk t) :
    Answers (EngineStepOk s) (.next t) := by
  have hread : s.inEmpty = true := h.control.input_read (.inr hlater)
  refine stepOk_next h hb hrun htables ?_ hengine (fun _ => ?_) hphase
  · rw [hipos, hrun.inBytes_eq]
    exact h.streams.ipos_le
  · rwa [inEmpty_iff, hrun.inEnd_eq, hipos, hrun.inBytes_eq, ← inEmpty_iff]

/-- The whole input has been read, and the engine goes to the phase `q` behind it (20_memory.md R83). -/
theorem stepOk_input_read {q : Phase} (hend : s.inEnd = true) (hall : s.ipos = 8 * s.inBytes.length)
    (hq : q.engine = s.phase.engine) (hphase : PhaseOk (s.setPhase q)) : Answers (EngineStepOk s) (.next (s.setPhase q)) :=
  stepOk_next h hb ⟨⟨rfl, rfl, rfl⟩, rfl, rfl, rfl, rfl⟩ (tables_of_eq h.tables rfl rfl rfl rfl rfl) hall.le hq
    (fun _ => inEmpty_iff.2 ⟨hend, hall⟩) hphase

/-- A step of a phase behind the input that at most writes, moves `code` and `j`, and goes to the phase `q`. -/
theorem stepOk_goto {bits : List Bool} {code : BitVec 8} {j : Nat} {q : Phase} (hlater : s.phase.afterInput = true)
    (hq : q.engine = s.phase.engine) (hphase : PhaseOk { s with obits := bits, code := code, j := j, phase := q }) :
    Answers (EngineStepOk s) (.next { s with obits := bits, code := code, j := j, phase := q }) :=
  stepOk_later h hb hlater ⟨⟨rfl, rfl, rfl⟩, rfl, rfl, rfl, rfl⟩ (tables_of_eq h.tables rfl rfl rfl rfl rfl) rfl hq hphase

end

/-! ## The run-length engines -/

section
variable (h : Invariant s) (hb : s.status = .busy)
include h hb

/-- One bit read (40_rle_encoder.md R122 to R125). -/
theorem stepOk_rScan_bit (hp : s.phase = .rScan) (hlt : s.ipos < 8 * s.inBytes.length) {bits : List Bool} {count : BitVec 7}
    (value : Bool) (hcount : count.toNat < Config.MAX) (hwhole : bits.length % 8 = 0) :
    Answers (EngineStepOk s)
      (.next { s with ipos := s.ipos + 1, obits := bits, lastValue := value, valueCount := count }) := by
  refine stepOk_next h hb ⟨⟨rfl, rfl, rfl⟩, rfl, rfl, rfl, rfl⟩ (tables_of_eq h.tables rfl rfl rfl rfl rfl) hlt rfl
    (fun hf => ?_) ((phaseOk_rScan (by exact hp)).2 ⟨hcount, hwhole⟩)
  exact absurd (hp ▸ hf : Phase.rScan.afterInput = true) (by decide)

theorem stepOk_rScan (hp : s.phase = .rScan) : Answers (EngineStepOk s) (rScan s) := by
  obtain ⟨hcount, hwhole⟩ := (phaseOk_rScan hp).1 h.phase_ok
  have hopen := h.control.busy_open hb
  have hbyte (v : Nat) : (s.obits ++ bitsOf 8 v).length % 8 = 0 := by simp [hwhole]
  rcases h.streams.ipos_le.lt_or_eq with hlt | heq
  · by_cases hbit : s.inBit s.ipos = s.lastValue
    · rw [rScan_same hopen hcount hlt hbit]
      split
      · exact stepOk_rScan_bit h hb hp hlt _ (by decide) (hbyte 0)
      · next hmax =>
        refine stepOk_rScan_bit h hb hp hlt _ ?_ hwhole
        change s.valueCount.toNat < 127 at hcount
        change _ < 127
        rw [BitVec.toNat_ofNat]
        omega
    · rw [rScan_change hopen hlt hbit]
      exact stepOk_rScan_bit h hb hp hlt _ (by decide) (hbyte _)
  · cases hend : s.inEnd with
    | true =>
      rw [rScan_end hend heq]
      exact stepOk_input_read h hb hend heq (by rw [hp]; rfl) ((phaseOk_rFlush rfl).2 ⟨hcount, hwhole⟩)
    | false =>
      rw [rScan_wait hend heq]
      exact stepOk_same h hb

theorem stepOk_rFlush (hp : s.phase = .rFlush) : Answers (EngineStepOk s) (rFlush s) := by
  rw [rFlush_open (h.control.busy_open hb)]
  exact answers_next (stepOk_completed h hb _ (h.control.input_read (.inr (by rw [hp]; rfl))))

theorem stepOk_xRead (hp : s.phase = .xRead) : Answers (EngineStepOk s) (xRead s) := by
  have hmod := (phaseOk_xRead hp).1 h.phase_ok
  rcases h.streams.ipos_le.lt_or_eq with hlt | heq
  · rw [xRead_byte (k := s.ipos / 8) (by omega) (by omega) (h.control.busy_open hb)]
    refine stepOk_next h hb ⟨⟨rfl, rfl, rfl⟩, rfl, rfl, rfl, rfl⟩ (tables_of_eq h.tables rfl rfl rfl rfl rfl) ?_ rfl
      (fun hf => ?_) ((phaseOk_xRead (by exact hp)).2 ?_)
    · change s.ipos + 8 ≤ 8 * s.inBytes.length
      omega
    · exact absurd (hp ▸ hf : Phase.xRead.afterInput = true) (by decide)
    · change (s.ipos + 8) % 8 = 0
      omega
  · cases hend : s.inEnd with
    | true =>
      rw [xRead_end hend heq]
      exact stepOk_complete h hb (inEmpty_iff.2 ⟨hend, heq⟩)
    | false =>
      rw [xRead_wait hend heq]
      exact stepOk_same h hb

end

/-! ## The dictionary encoder's tables (42_dict_encoder.md R162 to R165) -/

/-- Storing a byte whose value has been seen. -/
theorem dictOk_dStore {b : Byte} (ht : TablesOk s) (hd : DictOk s) (hb : Table.read s.seen b.toNat = 1#1) :
    DictOk (dStore b s) := by
  obtain ⟨hunique, hmsg, hseen, hcode⟩ := hd
  refine ⟨hunique, fun k hk => ?_, hseen, hcode⟩
  rw [dStore_seen, dStore_msg]
  rcases Nat.lt_succ_iff_lt_or_eq.1 hk with hlt | rfl
  · rw [Table.read_write_other _ _ hlt.ne]
    exact hmsg k hlt
  · rwa [Table.read_write_same ht.msg_wf]

/-- The code of the new value is `unique`, which no other value has. -/
theorem dictOk_dAssign {b : Byte} (ht : TablesOk s) (hd : DictOk s) (hb : Table.read s.seen b.toNat = 0#1) :
    DictOk (dAssign b s) := by
  have hlt := unique_lt_of_unseen ht hd hb
  obtain ⟨hunique, hmsg, hseen, hcode⟩ := hd
  have hunique' : (s.unique + 1#9).toNat = s.unique.toNat + 1 := by
    rw [BitVec.toNat_add]
    exact Nat.mod_eq_of_lt (by simp; omega)
  have hnew : Table.read (Table.write s.seen b.toNat 1#1) b.toNat = 1#1 := Table.read_write_same ht.seen_wf _ _
  have hnewCode : (Table.read (Table.write s.idx b.toNat (s.unique.setWidth 8)) b.toNat).toNat = s.unique.toNat := by
    rw [Table.read_write_same ht.idx_wf, BitVec.toNat_setWidth, Nat.mod_eq_of_lt hlt]
  have hnewEntry : Table.read (Table.write s.dict s.unique.toNat b) s.unique.toNat = b :=
    Table.read_write_same ht.dict_wf _ _
  have hold {v : Nat} (hv : Table.read s.seen v = 1#1) : v ≠ b.toNat := by
    rintro rfl
    exact absurd (hb.symm.trans hv) (by decide)
  have hkept {v : Nat} (hv : Table.read s.seen v = 1#1) : Table.read (Table.write s.seen b.toNat 1#1) v = 1#1 := by
    rwa [Table.read_write_other _ _ (hold hv)]
  refine ⟨?_, fun k hk => hkept (hmsg k hk), fun v hv hread => ?_, fun i hi => ?_⟩
  · rw [dAssign_unique, dAssign_seen, hunique', Table.length_write_new ht.seen_wf hb (by decide), hunique]
  · rw [dAssign_seen] at hread
    rw [dAssign_idx, dAssign_dict, dAssign_unique, hunique']
    by_cases hvb : v = b.toNat
    · rw [hvb, hnewCode, hnewEntry]
      exact ⟨Nat.lt_succ_self _, rfl⟩
    · rw [Table.read_write_other _ _ hvb] at hread ⊢
      obtain ⟨hcodelt, hentry⟩ := hseen v hv hread
      rw [Table.read_write_other _ _ hcodelt.ne]
      exact ⟨hcodelt.trans (Nat.lt_succ_self _), hentry⟩
  · rw [dAssign_unique, hunique'] at hi
    rw [dAssign_seen, dAssign_idx, dAssign_dict]
    rcases Nat.lt_succ_iff_lt_or_eq.1 hi with hilt | rfl
    · obtain ⟨hentrySeen, hentryCode⟩ := hcode i hilt
      rw [Table.read_write_other s.dict _ hilt.ne, Table.read_write_other s.idx _ (hold hentrySeen)]
      exact ⟨hkept hentrySeen, hentryCode⟩
    · rw [hnewEntry]
      exact ⟨hnew, hnewCode⟩

theorem tablesOk_dStore (b : Byte) (ht : TablesOk s) : TablesOk (dStore b s) :=
  { ht with msg_wf := Table.write_wf ht.msg_wf _ _ }

theorem tablesOk_dAssign (b : Byte) (ht : TablesOk s) (hlt : s.unique.toNat < 256) : TablesOk (dAssign b s) :=
  { ht with
    seen_wf := Table.write_wf ht.seen_wf _ _
    dict_wf := Table.write_wf ht.dict_wf _ _
    idx_wf := Table.write_wf ht.idx_wf _ _
    seen_lt := Table.write_lt ht.seen_lt b.isLt
    dict_lt := Table.write_lt ht.dict_lt hlt
    idx_lt := Table.write_lt ht.idx_lt b.isLt }

/-! ## The dictionary encoder -/

section
variable (h : Invariant s) (hb : s.status = .busy)
include h hb

/-- One byte loaded into tables that are `d`'s. -/
theorem stepOk_dLoad_byte (hp : s.phase = .dLoad) (hlt : s.ipos < 8 * s.inBytes.length) (hrun : SameRun s t)
    (hphase : t.phase = .dLoad) (hipos : t.ipos = s.ipos + 8) (hlength : t.length = s.length + 1)
    (hobits : t.obits = s.obits) (htables : TablesOk t) (hd : DictOk t) : Answers (EngineStepOk s) (.next t) := by
  obtain ⟨hi, hempty, -⟩ := (phaseOk_dLoad hp).1 h.phase_ok
  refine stepOk_next h hb hrun htables ?_ (by rw [hp, hphase]) (fun hf => ?_) ((phaseOk_dLoad hphase).2 ⟨?_, ?_, hd⟩)
  · rw [hipos, hrun.inBytes_eq]
    omega
  · rw [hphase] at hf
    cases hf
  · omega
  · rw [hobits, hempty]

theorem stepOk_dLoad (caps : Config.Caps) (hp : s.phase = .dLoad) : Answers (EngineStepOk s) (dLoad caps s) := by
  obtain ⟨hi, hempty, hd⟩ := (phaseOk_dLoad hp).1 h.phase_ok
  rcases h.streams.ipos_le.lt_or_eq with hlt | heq
  · have hk : s.length < s.inBytes.length := by omega
    rw [dLoad_byte caps hk hi]
    split
    · refine stepOk_raise (by decide) rfl rfl ?_
      rw [advance_ipos, advance_inBytes]
      omega
    · have ht : TablesOk (s.advance 8) := tables_of_eq h.tables rfl rfl rfl rfl rfl
      have hd : DictOk (s.advance 8) := dictOk_of_eq hd rfl rfl rfl rfl rfl rfl
      rw [dTrack]
      split
      · next hunseen =>
        have hu := unique_lt_of_unseen ht hd hunseen
        have ht' := tablesOk_dAssign s.inBytes[s.length] ht hu
        refine answers_withEntry (stepOk_dLoad_byte h hb hp hlt ⟨⟨rfl, rfl, rfl⟩, rfl, rfl, rfl, rfl⟩ hp rfl rfl rfl
          (tablesOk_dStore s.inBytes[s.length] ht') (dictOk_dStore ht' (dictOk_dAssign ht hd hunseen) ?_))
        exact Table.read_write_same ht.seen_wf _ _
      · next hseen =>
        exact stepOk_dLoad_byte h hb hp hlt ⟨⟨rfl, rfl, rfl⟩, rfl, rfl, rfl, rfl⟩ hp rfl rfl rfl (tablesOk_dStore _ ht)
          (dictOk_dStore ht hd ((bit_zero_or_one _).resolve_left hseen))
  · cases hend : s.inEnd with
    | true =>
      rw [dLoad_end caps hend heq]
      exact stepOk_input_read h hb hend heq (by rw [hp]; rfl)
        ((phaseOk_dCalc rfl).2 ⟨hempty, dictOk_of_eq hd rfl rfl rfl rfl rfl rfl⟩)
    | false =>
      rw [dLoad_wait caps hend heq]
      exact stepOk_same h hb

theorem stepOk_dCalc (hp : s.phase = .dCalc) : Answers (EngineStepOk s) (dCalc s) := by
  obtain ⟨hempty, hd⟩ := (phaseOk_dCalc hp).1 h.phase_ok
  have hcw := toNat_dWidths_cw (unique_le h.tables hd)
  have hw : EncWidthsOk (dWidths s) := ⟨hcw, by rw [hcw]; exact toNat_dWidths_rem s⟩
  exact stepOk_later h hb (by rw [hp]; rfl) ⟨⟨rfl, rfl, rfl⟩, rfl, rfl, rfl, rfl⟩
    (tables_of_eq h.tables rfl rfl rfl rfl rfl) rfl (by rw [hp]; rfl)
    ((phaseOk_dHdr rfl).2 ⟨hempty, dictOk_of_eq hd rfl rfl rfl rfl rfl rfl, encWidthsOk_of_eq hw rfl rfl rfl rfl⟩)

theorem stepOk_dHdr (hp : s.phase = .dHdr) : Answers (EngineStepOk s) (dHdr s) := by
  obtain ⟨hempty, hd, hw⟩ := (phaseOk_dHdr hp).1 h.phase_ok
  rw [dHdr_open (h.control.busy_open hb)]
  refine stepOk_goto h hb (by rw [hp]; rfl) (by rw [hp]; rfl) ((phaseOk_dDict rfl).2
    ⟨Nat.zero_le _, ?_, dictOk_of_eq hd rfl rfl rfl rfl rfl rfl, encWidthsOk_of_eq hw rfl rfl rfl rfl⟩)
  simp [hempty, entryAddr]

theorem stepOk_dDict (hp : s.phase = .dDict) : Answers (EngineStepOk s) (dDict s) := by
  obtain ⟨hj, hlen, hd, hw⟩ := (phaseOk_dDict hp).1 h.phase_ok
  by_cases hlt : s.j < s.unique.toNat
  · rw [dDict_entry (h.control.busy_open hb) (unique_le h.tables hd) hlt]
    refine stepOk_goto h hb (by rw [hp]; rfl) rfl ((phaseOk_dDict (by exact hp)).2
      ⟨hlt, ?_, dictOk_of_eq hd rfl rfl rfl rfl rfl rfl, encWidthsOk_of_eq hw rfl rfl rfl rfl⟩)
    rw [List.length_append, length_byteBits, hlen, entryAddr, entryAddr, Nat.mul_succ, Nat.add_assoc]
  · rw [dDict_end hlt]
    refine stepOk_goto h hb (by rw [hp]; rfl) (by rw [hp]; rfl) ((phaseOk_dCode rfl).2
      ⟨Nat.zero_le _, ?_, dictOk_of_eq hd rfl rfl rfl rfl rfl rfl, encWidthsOk_of_eq hw rfl rfl rfl rfl⟩)
    rw [hlen, entryAddr, codeAddr, Nat.le_antisymm hj (Nat.not_lt.1 hlt), Nat.mul_zero, Nat.add_zero]

theorem stepOk_dCode (hp : s.phase = .dCode) : Answers (EngineStepOk s) (dCode s) := by
  obtain ⟨hj, hlen, hd, hw⟩ := (phaseOk_dCode hp).1 h.phase_ok
  have hcw := hw.cw_eq
  have h1 := codeWidth_pos s.unique.toNat
  have h8 := codeWidth_le_eight (unique_le h.tables hd)
  by_cases hlt : s.j < s.length
  · rw [dCode_code (h.control.busy_open hb) (by omega) (by omega) (messageCode_lt hd hw hlt) hlt]
    refine stepOk_goto h hb (by rw [hp]; rfl) rfl ((phaseOk_dCode (by exact hp)).2
      ⟨hlt, ?_, dictOk_of_eq hd rfl rfl rfl rfl rfl rfl, encWidthsOk_of_eq hw rfl rfl rfl rfl⟩)
    rw [List.length_append, length_bitsOf, hlen, codeAddr, codeAddr, Nat.mul_succ, Nat.add_assoc]
  · rw [dCode_end hlt]
    refine stepOk_goto h hb (by rw [hp]; rfl) (by rw [hp]; rfl) ((phaseOk_dClose rfl).2
      ⟨?_, dictOk_of_eq hd rfl rfl rfl rfl rfl rfl, encWidthsOk_of_eq hw rfl rfl rfl rfl⟩)
    rw [hlen, Nat.le_antisymm hj (Nat.not_lt.1 hlt)]

theorem stepOk_dClose (hp : s.phase = .dClose) : Answers (EngineStepOk s) (dClose s) :=
  stepOk_complete h hb (h.control.input_read (.inr (by rw [hp]; rfl)))

end

/-! ## The dictionary decoder -/

theorem tablesOk_eStore (b : Byte) (ht : TablesOk s) : TablesOk (eStore b s) :=
  { ht with ibuf_wf := Table.write_wf ht.ibuf_wf _ _ }

theorem tablesOk_eEntry (b : Byte) (ht : TablesOk s) (hj : s.j < 256) : TablesOk (eEntry b s) :=
  { ht with dict_wf := Table.write_wf ht.dict_wf _ _, dict_lt := Table.write_lt ht.dict_lt hj }

theorem sameRun_eWidths (s : State) (n : Nat) : SameRun s ((((eWidths s).setN n).setJ 0).setPhase .eCode) :=
  { keepsRun_eWidths s n with cmd_eq := by simp }

/-- The number of codes is the one for which the stream is the header, the dictionary, the codes and the padding (R202). -/
theorem exists_eCalc_codes (hd : DecDictOk s)
    (hgood : ¬ ((eWidths s).payload < 0 ∨ (s.unique = 0#9 ∧ (eWidths s).payload ≠ 0)))
    (hmod : (eWidths s).payload % (eWidths s).cw.toNat = 0) :
    ∃ n, eCalc s = .next ((((eWidths s).setN n).setJ 0).setPhase .eCode) ∧ DecWidthsOk ((eWidths s).setN n) := by
  obtain ⟨hneg, hempty⟩ := not_or.1 hgood
  obtain ⟨p, hp⟩ := Int.eq_ofNat_of_zero_le (Int.not_lt.1 hneg)
  have hcw := toNat_eWidths_cw (hd.unique_eq ▸ resolveUnique_le s.U s.B)
  have hpad := toNat_eWidths_pad s
  have hpayload := eWidths_payload s
  have hcodes := eCalc_codes hgood hmod
  rw [hp] at hmod hempty hpayload
  rw [hp, ← Int.natCast_div, Int.toNat_natCast] at hcodes
  have hwhole : (eWidths s).cw.toNat * (p / (eWidths s).cw.toNat) = p :=
    Nat.mul_div_cancel' (Nat.dvd_of_mod_eq_zero (by exact_mod_cast hmod))
  refine ⟨_, hcodes, hcw, hpad, ?total, fun hn => ?nonempty⟩
  case total =>
    rw [setN_unique, setN_cw, setN_n, setN_pad, setN_B, eWidths_unique, eWidths_B, hwhole, hpad]
    omega
  case nonempty =>
    refine Nat.pos_of_ne_zero fun hzero => hempty ⟨BitVec.eq_of_toNat_eq hzero, ?_⟩
    rintro hp0
    obtain rfl : p = 0 := by omega
    rw [setN_n, Nat.zero_div] at hn
    exact absurd hn (Nat.lt_irrefl 0)

section
variable (h : Invariant s) (hb : s.status = .busy)
include h hb

omit hb in
/-- An error of a phase that has not moved `ipos`. -/
theorem stepOk_raise_here {e : ErrCode} (he : e ≠ .none) (hrun : SameRun s t) (hipos : t.ipos = s.ipos) :
    Answers (EngineStepOk s) (raise e t) :=
  stepOk_raise he hrun.cmd_eq hrun.host_eq (by rw [hipos, hrun.inBytes_eq]; exact h.streams.ipos_le)

theorem stepOk_eLoad (caps : Config.Caps) (hp : s.phase = .eLoad) : Answers (EngineStepOk s) (eLoad caps s) := by
  obtain ⟨hi, hempty⟩ := (phaseOk_eLoad hp).1 h.phase_ok
  rcases h.streams.ipos_le.lt_or_eq with hlt | heq
  · have hk : s.B < s.inBytes.length := by omega
    rw [eLoad_byte caps hk hi]
    split
    · exact stepOk_raise_here h (by decide) ⟨⟨rfl, rfl, rfl⟩, rfl, rfl, rfl, rfl⟩ rfl
    · refine stepOk_next h hb ⟨⟨rfl, rfl, rfl⟩, rfl, rfl, rfl, rfl⟩
        (tablesOk_eStore _ (tables_of_eq h.tables rfl rfl rfl rfl rfl)) ?_ rfl (fun hf => ?_)
        ((phaseOk_eLoad (by exact hp)).2 ⟨?_, hempty⟩)
      · rw [eStore_ipos, eStore_inBytes, advance_ipos, advance_inBytes]
        omega
      · exact absurd (hp ▸ hf : Phase.eLoad.afterInput = true) (by decide)
      · rw [eStore_ipos, eStore_B, advance_ipos, advance_B, hi, Nat.mul_succ]
  · cases hend : s.inEnd with
    | true =>
      rw [eLoad_end caps hend heq]
      exact stepOk_input_read h hb hend heq (by rw [hp]; rfl) ((phaseOk_eHdr rfl).2 ⟨hi, hempty⟩)
    | false =>
      rw [eLoad_wait caps hend heq]
      exact stepOk_same h hb

theorem stepOk_eHdr (hp : s.phase = .eHdr) : Answers (EngineStepOk s) (eHdr s) := by
  obtain ⟨-, hempty⟩ := (phaseOk_eHdr hp).1 h.phase_ok
  rw [eHdr]
  split
  · exact stepOk_raise_here h (by decide) ⟨⟨rfl, rfl, rfl⟩, rfl, rfl, rfl, rfl⟩ rfl
  · next hlong =>
    refine answers_runToken fun i r hd => ?_
    obtain ⟨rem, u, rfl⟩ := exists_dictHdr_of_decode hd
    refine stepOk_later h hb (by rw [hp]; rfl) ⟨⟨rfl, rfl, rfl⟩, rfl, rfl, rfl, rfl⟩
      (tables_of_eq h.tables rfl rfl rfl rfl rfl) rfl (by rw [hp]; rfl)
      ((phaseOk_eDict rfl).2 ⟨hempty, ?_, rfl, Nat.zero_le _⟩)
    change 2 ≤ s.B
    omega

theorem stepOk_eDict (hp : s.phase = .eDict) : Answers (EngineStepOk s) (eDict s) := by
  obtain ⟨hempty, hB, hu, hj⟩ := (phaseOk_eDict hp).1 h.phase_ok
  have hle : s.unique.toNat ≤ 256 := hu ▸ resolveUnique_le s.U s.B
  by_cases hshort : 8 * s.B < 11 + 8 * s.unique.toNat
  · rw [eDict_short hshort]
    exact stepOk_raise_here h (by decide) ⟨⟨rfl, rfl, rfl⟩, rfl, rfl, rfl, rfl⟩ rfl
  by_cases hlt : s.j < s.unique.toNat
  · rw [eDict_token (by omega) hlt]
    refine answers_runToken fun i r hd => ?_
    obtain ⟨b, rfl⟩ := exists_dictEnt_of_decode hd
    exact answers_withEntry <|
      stepOk_later h hb (by rw [hp]; rfl) ⟨⟨rfl, rfl, rfl⟩, rfl, rfl, rfl, rfl⟩
        (tables_of_eq (tablesOk_eEntry b h.tables (by omega)) rfl rfl rfl rfl rfl) rfl rfl
        ((phaseOk_eDict (by exact hp)).2 ⟨hempty, hB, hu, hlt⟩)
  · rw [eDict_end (by omega) (by omega)]
    exact stepOk_goto h hb (by rw [hp]; rfl) (by rw [hp]; rfl) ((phaseOk_eCalc rfl).2 ⟨hempty, hu, Nat.not_lt.1 hshort⟩)

theorem stepOk_eCalc (hp : s.phase = .eCalc) : Answers (EngineStepOk s) (eCalc s) := by
  obtain ⟨hempty, hd⟩ := (phaseOk_eCalc hp).1 h.phase_ok
  by_cases hbad : (eWidths s).payload < 0 ∨ (s.unique = 0#9 ∧ (eWidths s).payload ≠ 0)
  · rw [eCalc_format hbad]
    exact stepOk_raise_here h (by decide) ⟨⟨rfl, rfl, rfl⟩, rfl, rfl, rfl, rfl⟩ rfl
  by_cases hmod : (eWidths s).payload % (eWidths s).cw.toNat = 0
  · obtain ⟨n, hcodes, hw⟩ := exists_eCalc_codes hd hbad hmod
    rw [hcodes]
    refine stepOk_later h hb (by rw [hp]; rfl) (sameRun_eWidths s n)
      (tables_of_eq h.tables (by simp) (by simp) (by simp) (by simp) (by simp)) (by simp) (by rw [hp]; rfl)
      ((phaseOk_eCode (setPhase_phase _ _)).2 ⟨by simpa using hempty, decDictOk_of_eq hd (by simp) (by simp) (by simp), ?_,
        Nat.zero_le _⟩)
    exact decWidthsOk_of_eq hw rfl rfl rfl rfl rfl rfl
  · rw [eCalc_malformed hbad hmod]
    exact stepOk_raise_here h (by decide) ⟨⟨rfl, rfl, rfl⟩, rfl, rfl, rfl, rfl⟩ rfl

theorem stepOk_eCode (hp : s.phase = .eCode) : Answers (EngineStepOk s) (eCode s) := by
  obtain ⟨hempty, hd, hw, hj⟩ := (phaseOk_eCode hp).1 h.phase_ok
  rcases hj.lt_or_eq with hlt | heq
  · rw [eCode_token hlt]
    refine answers_runToken fun i r hdec => ?_
    obtain ⟨c, hc⟩ := exec_eq_codeToken_of_decode s hdec
    rw [hc]
    by_cases hvalid : c.toNat < s.unique.toNat
    · rw [codeToken_eCode_of_lt hp hvalid]
      exact stepOk_goto h hb (by rw [hp]; rfl) rfl ((phaseOk_eCode (by exact hp)).2
        ⟨hempty, decDictOk_of_eq hd rfl rfl rfl, decWidthsOk_of_eq hw rfl rfl rfl rfl rfl rfl, hlt⟩)
    · rw [codeToken_eCode_of_le hp (by omega)]
      exact stepOk_raise_here h (by decide) ⟨⟨rfl, rfl, rfl⟩, rfl, rfl, rfl, rfl⟩ rfl
  · have hlen : s.obits.length = 8 * 0 := congrArg List.length hempty
    rw [eCode_end heq.ge]
    exact stepOk_goto h hb (by rw [hp]; rfl) (by rw [hp]; rfl) ((phaseOk_eEmit rfl).2
      ⟨hlen, decDictOk_of_eq hd rfl rfl rfl, decWidthsOk_of_eq hw rfl rfl rfl rfl rfl rfl, Nat.zero_le _⟩)

theorem stepOk_eEmit (hp : s.phase = .eEmit) : Answers (EngineStepOk s) (eEmit s) := by
  obtain ⟨hlen, hd, hw, hj⟩ := (phaseOk_eEmit hp).1 h.phase_ok
  rcases hj.lt_or_eq with hlt | heq
  · rw [eEmit_token hlt]
    refine answers_runToken fun i r hdec => ?_
    obtain ⟨c, hc⟩ := exec_eq_codeToken_of_decode s hdec
    rw [hc, codeToken_writes (by rw [hp]; decide) (h.control.busy_open hb)]
    refine stepOk_goto h hb (by rw [hp]; rfl) rfl ((phaseOk_eEmit (by exact hp)).2
      ⟨?_, decDictOk_of_eq hd rfl rfl rfl, decWidthsOk_of_eq hw rfl rfl rfl rfl rfl rfl, hlt⟩)
    rw [List.length_append, length_byteBits, hlen, Nat.mul_succ]
  · rw [eEmit_padding heq.ge]
    refine answers_runToken fun i r hdec => ?_
    obtain ⟨p, rfl⟩ := exists_dictPad_of_decode hdec
    exact stepOk_complete h hb (h.control.input_read (.inr (by rw [hp]; rfl)))

/-! ## The block's step -/

/-- Every row of the phase tables (44_control.md R224). -/
theorem stepOk_engineStep (caps : Config.Caps) : Answers (EngineStepOk s) (engineStep caps s) := by
  rw [engineStep, if_neg (not_not.2 hb)]
  cases hp : s.phase with
  | halt => exact absurd hp (h.control.busy_iff.1 hb)
  | rScan => exact stepOk_rScan h hb hp
  | rFlush => exact stepOk_rFlush h hb hp
  | xRead => exact stepOk_xRead h hb hp
  | dLoad => exact stepOk_dLoad h hb caps hp
  | dCalc => exact stepOk_dCalc h hb hp
  | dHdr => exact stepOk_dHdr h hb hp
  | dDict => exact stepOk_dDict h hb hp
  | dCode => exact stepOk_dCode h hb hp
  | dClose => exact stepOk_dClose h hb hp
  | eLoad => exact stepOk_eLoad h hb caps hp
  | eHdr => exact stepOk_eHdr h hb hp
  | eDict => exact stepOk_eDict h hb hp
  | eCalc => exact stepOk_eCalc h hb hp
  | eCode => exact stepOk_eCode h hb hp
  | eEmit => exact stepOk_eEmit h hb hp

end

/-! ## The host's turns (44_control.md R220 to R223, R229) -/

/-- An engine that has just started has read nothing (R221, R222). -/
theorem invariant_started (htables : TablesOk t) (hb : t.status = .busy) (herr : t.err = .none)
    (hopen : t.closed = false) (hipos : t.ipos = 0) (hengine : t.phase.engine = some t.cmd)
    (hreads : t.phase.afterInput = false) (hphase : PhaseOk t) : Invariant t := by
  have hrunning : t.phase ≠ .halt := fun hp => by rw [hp] at hengine; cases hengine
  refine ⟨htables, ⟨hipos ▸ Nat.zero_le _, fun hc => absurd (hopen.symm.trans hc) Bool.false_ne_true⟩,
    ⟨iff_of_true hb hrunning, fun _ => hopen, fun _ => hengine, ?_, ?_, ?_⟩, hphase⟩
  · exact iff_of_false (by rw [hb]; decide) (not_not_intro herr)
  · rw [hb]
    exact fun hended => hended.elim nofun nofun
  · rw [hb, hreads]
    exact fun hended => hended.elim nofun nofun

/-- Before the first byte nothing has been seen (R161). -/
theorem dictOk_of_empty (hseen : s.seen = []) (hunique : s.unique = 0#9) (hlength : s.length = 0) : DictOk s := by
  refine ⟨by rw [hseen, hunique]; rfl, fun k hk => ?_, fun v _ hv => ?_, fun i hi => ?_⟩
  · rw [hlength] at hk
    exact absurd hk (Nat.not_lt_zero k)
  · rw [hseen, Table.read_nil] at hv
    exact absurd hv (by decide)
  · rw [hunique] at hi
    exact absurd hi (Nat.not_lt_zero i)

/-- What an accepted START leaves, its command reserved or not. -/
structure StartOk (c : Byte) (s t : State) : Prop where
  invariant : Invariant t
  cmd_eq : t.cmd = c
  host_eq : t.host = s.host

theorem invariant_usageError (c : Byte) (s : State) :
    Invariant ((((outClose (s.accept c)).forget.setErr .usage).setPhase .halt).setStatus .error) where
  tables := tables_of_eq (forget_tables (outClose (s.accept c))) rfl rfl rfl rfl rfl
  streams := ⟨Nat.zero_le _, fun _ => outClose_whole (s.accept c)⟩
  control := ⟨iff_of_false nofun (not_not_intro rfl), nofun, nofun, iff_of_true rfl nofun, fun _ => rfl, nofun⟩
  phase_ok := phaseOk_halt rfl

theorem startOk_runCommand (c : Byte) (h : Invariant s) (hs : s.status ≠ .busy) :
    Answers (StartOk c s) (runCommand c s) := by
  have hcommand := command_runCommand c
  generalize runCommand c = run at hcommand
  have ht := h.tables
  cases hcommand with
  | dcomp hc =>
    subst hc
    rw [execDcomp, startEngine_accepted hs]
    have htables : TablesOk { s with seen := [] } := { ht with seen_wf := Table.wf_nil, seen_lt := nofun }
    exact answers_next ⟨invariant_started (tables_of_eq htables rfl rfl rfl rfl rfl) rfl rfl rfl rfl rfl rfl
      ((phaseOk_dLoad rfl).2 ⟨rfl, rfl, dictOk_of_empty rfl rfl rfl⟩), rfl, rfl⟩
  | dexp hc =>
    subst hc
    rw [execDexp, startEngine_accepted hs]
    exact answers_next ⟨invariant_started (tables_of_eq ht rfl rfl rfl rfl rfl) rfl rfl rfl rfl rfl rfl
      ((phaseOk_eLoad rfl).2 ⟨rfl, rfl⟩), rfl, rfl⟩
  | rcomp hc =>
    subst hc
    rw [execRcomp, startEngine_accepted hs]
    exact answers_next ⟨invariant_started (tables_of_eq ht rfl rfl rfl rfl rfl) rfl rfl rfl rfl rfl rfl
      ((phaseOk_rScan rfl).2 ⟨(by decide : (0#7).toNat < Config.MAX), rfl⟩), rfl, rfl⟩
  | rexp hc =>
    subst hc
    rw [execRexp, startEngine_accepted hs]
    exact answers_next ⟨invariant_started (tables_of_eq ht rfl rfl rfl rfl rfl) rfl rfl rfl rfl rfl rfl
      ((phaseOk_xRead rfl).2 rfl), rfl, rfl⟩
  | reserved hnone =>
    rw [usageError_accepted hs]
    exact answers_next ⟨invariant_usageError c s, rfl, rfl⟩

theorem invariant_resetBlock (s : State) : Invariant (resetBlock s) where
  tables := ⟨Table.wf_nil, Table.wf_nil, Table.wf_nil, Table.wf_nil, Table.wf_nil, nofun, nofun, nofun⟩
  streams := ⟨Nat.zero_le _, nofun⟩
  control := ⟨iff_of_false nofun (not_not_intro rfl), nofun, nofun, iff_of_false nofun (not_not_intro rfl),
    fun hended => hended.elim nofun nofun, fun hended => hended.elim nofun nofun⟩
  phase_ok := phaseOk_halt rfl

/-- In a phase that reads input, no register that the invariant speaks of is the input's but `ipos`. -/
theorem phaseOk_setInput (bs : List Byte) (e : Bool) (hreads : s.phase.afterInput = false) (h : PhaseOk s) :
    PhaseOk { s with inBytes := bs, inEnd := e } := by
  cases hp : s.phase with
  | halt => exact phaseOk_halt rfl
  | rScan => exact (phaseOk_rScan rfl).2 ((phaseOk_rScan hp).1 h)
  | xRead => exact (phaseOk_xRead rfl).2 ((phaseOk_xRead hp).1 h)
  | dLoad =>
    obtain ⟨hi, hempty, hd⟩ := (phaseOk_dLoad hp).1 h
    exact (phaseOk_dLoad rfl).2 ⟨hi, hempty, dictOk_of_eq hd rfl rfl rfl rfl rfl rfl⟩
  | eLoad => exact (phaseOk_eLoad rfl).2 ((phaseOk_eLoad hp).1 h)
  | rFlush | dCalc | dHdr | dDict | dCode | dClose | eHdr | eDict | eCalc | eCode | eEmit =>
    rw [hp] at hreads
    cases hreads

/-- While the input is open it may grow and end: the engine still reads it (20_memory.md R81, R83). -/
theorem invariant_setInput (h : Invariant s) (hb : s.status = .busy) (hopen : s.inEnd = false) {bs : List Byte}
    (e : Bool) (hle : s.inBytes.length ≤ bs.length) : Invariant { s with inBytes := bs, inEnd := e } := by
  have hreads : s.phase.afterInput = false := by
    refine Bool.eq_false_of_not_eq_true fun hf => ?_
    exact absurd (hopen.symm.trans (inEmpty_iff.1 (h.control.input_read (.inr hf))).1) Bool.false_ne_true
  obtain ⟨htables, ⟨hipos, hwhole⟩, ⟨hbusy, hclosed, hengine, herror, hended, -⟩, hphase⟩ := h
  refine ⟨tables_of_eq htables rfl rfl rfl rfl rfl, ⟨?_, hwhole⟩, ⟨hbusy, hclosed, hengine, herror, hended, ?_⟩,
    phaseOk_setInput bs e hreads hphase⟩
  · exact hipos.trans (Nat.mul_le_mul_left 8 hle)
  · exact fun hread => hread.elim (fun hd => absurd (hb.symm.trans hd) (by decide))
      (fun hf => absurd (hreads.symm.trans hf) Bool.false_ne_true)

theorem invariant_addInput (b : Byte) (h : Invariant s) (hb : s.status = .busy) (hopen : s.inEnd = false) :
    Invariant (s.addInput b) :=
  invariant_setInput h hb hopen s.inEnd (by simp)

theorem invariant_endInput (h : Invariant s) (hb : s.status = .busy) (hopen : s.inEnd = false) :
    Invariant s.endInput :=
  invariant_setInput h hb hopen true le_rfl

theorem endInput_of_inEnd (hend : s.inEnd = true) : s.endInput = s := by
  rw [State.endInput, ← hend]

theorem invariant_supply (b : Byte) (h : Invariant s) : Invariant (supply b s) := by
  rw [supply]
  split
  · next hfeeds => exact invariant_addInput b h hfeeds.1 hfeeds.2
  · exact h

theorem invariant_markEnd (h : Invariant s) : Invariant (markEnd s) := by
  rw [markEnd]
  split
  · next hb =>
    cases hend : s.inEnd with
    | false => exact invariant_endInput h hb hend
    | true => exact (endInput_of_inEnd hend).symm ▸ h
  · exact h

/-! ## The block's step -/

theorem invariant_of_engineStep (caps : Config.Caps) (h : Invariant s) : Answers Invariant (engineStep caps s) := by
  by_cases hb : s.status = .busy
  · exact fun t ht => (stepOk_engineStep h hb caps t ht).invariant
  · rw [engineStep_of_not_busy caps hb]
    exact answers_next h

theorem invariant_of_hostTurn (caps : Config.Caps) (turn : HostTurn) (h : Invariant s) :
    Answers Invariant (hostTurn caps turn s) := by
  cases turn with
  | reset => exact answers_next (invariant_resetBlock s)
  | start c =>
    by_cases hb : s.status = .busy
    · rw [hostTurn, runCommand_busy c hb]
      exact answers_next h
    · exact fun t ht => (startOk_runCommand c h hb t ht).invariant
  | supply b => exact answers_next (invariant_supply b h)
  | endInput => exact answers_next (invariant_markEnd h)
  | read r => exact answers_next h
  | idle => exact invariant_of_engineStep caps h

theorem invariant_of_stepWith (caps : Config.Caps) (h : Invariant s) : Answers Invariant (stepWith caps s) := by
  cases hhost : s.host with
  | nil =>
    rw [stepWith_of_host_nil caps hhost]
    exact invariant_of_engineStep caps h
  | cons turn rest =>
    rw [stepWith_of_host_cons caps hhost]
    exact invariant_of_hostTurn caps turn (invariant_setHost rest h)

/-! ## The ends of a run (R225 to R228) -/

/-- The three ways a run is over. -/
def RunOver (s t : State) : Prop :=
  (t.status = .done ∧ t.phase = .halt ∧ t.err = .none ∧ t.closed = true ∧ t.inEnd = true ∧
    t.ipos = 8 * t.inBytes.length) ∨
  (t.status = .error ∧ t.phase = .halt ∧ t.err ≠ .none ∧ t.closed = true) ∨
  (t.status = .idle ∧ ∃ rest, s.host = .reset :: rest)

/-- A state of the invariant in which no engine runs shows how its run ended, unless it is idle. -/
theorem runOver_of_invariant (s : State) (h : Invariant t) (ht : t.status ≠ .busy)
    (hidle : t.status = .idle → ∃ rest, s.host = .reset :: rest) : RunOver s t := by
  have hc := h.control
  have hhalt : t.phase = .halt := not_not.1 fun hp => ht (hc.busy_iff.2 hp)
  cases hst : t.status with
  | busy => exact absurd hst ht
  | idle => exact .inr (.inr ⟨hst, hidle hst⟩)
  | error => exact .inr (.inl ⟨hst, hhalt, hc.error_iff.1 hst, hc.ended_closed (.inr hst)⟩)
  | done =>
    have herr : t.err = .none := not_not.1 fun he => absurd (hst.symm.trans (hc.error_iff.2 he)) (by decide)
    exact .inl ⟨hst, hhalt, herr, hc.ended_closed (.inl hst), inEmpty_iff.1 (hc.input_read (.inl hst))⟩

theorem supply_status (b : Byte) (s : State) : (supply b s).status = s.status := by
  rw [supply]
  split
  · rfl
  · rfl

theorem markEnd_status (s : State) : (markEnd s).status = s.status := by
  rw [markEnd]
  split
  · rfl
  · rfl

/-- Of a running block's turns only RESET leaves it idle. -/
theorem reset_of_idle (caps : Config.Caps) (h : Invariant s) (hb : s.status = .busy) (hstep : stepWith caps s = .next t)
    (hidle : t.status = .idle) : ∃ rest, s.host = .reset :: rest := by
  have hengine {u : State} (hu : Invariant u) (hub : u.status = .busy) : engineStep caps u ≠ .next t :=
    fun ht => (stepOk_engineStep hu hub caps t ht).not_idle hidle
  have hkept {u : State} (hub : u.status = .busy) : (.next u : Res) ≠ .next t :=
    fun ht => absurd (hub.symm.trans (next_inj.1 ht ▸ hidle)) (by decide)
  cases hhost : s.host with
  | nil =>
    rw [stepWith_of_host_nil caps hhost] at hstep
    exact absurd hstep (hengine h hb)
  | cons turn rest =>
    rw [stepWith_of_host_cons caps hhost] at hstep
    cases turn with
    | reset => exact ⟨rest, rfl⟩
    | start c =>
      rw [hostTurn, runCommand_busy (s := { s with host := rest }) c hb] at hstep
      exact absurd hstep (hkept hb)
    | supply b => exact absurd hstep (hkept ((supply_status b _).trans hb))
    | endInput => exact absurd hstep (hkept ((markEnd_status _).trans hb))
    | read r => exact absurd hstep (hkept hb)
    | idle => exact absurd hstep (hengine (invariant_setHost rest h) hb)

end

end Sys2Proof.Machine

open Sys2Proof Sys2Proof.Machine

/-- Settles O49: every row of the phase tables and every turn of the host keeps the invariant. -/
theorem everyStepKeepsTheInvariant : Obligations.EveryStepKeepsTheInvariant :=
  ⟨fun caps _ t h hstep => invariant_of_stepWith caps h t hstep,
    fun _ t h hstep => invariant_of_stepWith Config.caps h t hstep⟩

/-- Settles O25: the invariant of the next state says how the run ended, and only RESET leaves the block idle. -/
theorem aRunEndsOnlyByCompletionErrorOrReset : Obligations.ARunEndsOnlyByCompletionErrorOrReset :=
  fun caps s t h hb hstep ht =>
    runOver_of_invariant s (invariant_of_stepWith caps h t hstep) ht (reset_of_idle caps h hb hstep)

end

section
/-! Two runs of one command on one input (44_control.md R232). `Running` relates two states of such runs: what the host and
the streams show is the same, and so is, phase by phase, what the engine has written and still reads. Every row of the phase
tables and every turn of the host keeps it, until both runs are over in the same way. -/

namespace Sys2Proof.Machine

/-! ## What two runs share -/

/-- The run-length encoder's registers. -/
def SameCounts (s t : State) : Prop := t.lastValue = s.lastValue ∧ t.valueCount = s.valueCount

/-- What the dictionary encoder has collected; of its tables the entries it has written (42_dict_encoder.md R162, R163). -/
def SameMessage (s t : State) : Prop :=
  t.length = s.length ∧ t.unique = s.unique ∧ t.seen = s.seen ∧
    (∀ k < s.length, Table.read t.msg k = Table.read s.msg k) ∧
    (∀ i < s.unique.toNat, Table.read t.dict i = Table.read s.dict i) ∧
    ∀ v, Table.read s.seen v = 1#1 → Table.read t.idx v = Table.read s.idx v

/-- The dictionary encoder's computed registers. -/
def SameWidths (s t : State) : Prop := t.cw = s.cw ∧ t.rem = s.rem

/-- The bytes the dictionary decoder has loaded. -/
def SameBuffer (s t : State) : Prop := t.B = s.B ∧ ∀ k < s.B, Table.read t.ibuf k = Table.read s.ibuf k

/-- The header's registers, and the first `k` entries of the dictionary. -/
def SameEntries (k : Nat) (s t : State) : Prop :=
  t.rem = s.rem ∧ t.unique = s.unique ∧ ∀ i < k, Table.read t.dict i = Table.read s.dict i

/-- The dictionary decoder's computed registers. -/
def SameCodes (s t : State) : Prop := t.cw = s.cw ∧ t.pad = s.pad ∧ t.n = s.n

/-- The first `k` codes have an entry in the dictionary (43_dict_decoder.md R203). -/
def CodesBelow (k : Nat) (s : State) : Prop :=
  ∀ i < k, natOf (bufBits (codeAddr s.unique.toNat s.cw.toNat i) s.cw.toNat s) < s.unique.toNat

/-- What the engine of the phase of `s` still reads of what it has written. -/
def SameLive (s t : State) : Prop :=
  match s.phase with
  | .halt => True
  | .rScan | .rFlush => SameCounts s t
  | .xRead => t.lastValue = s.lastValue
  | .dLoad | .dCalc => SameMessage s t
  | .dHdr => SameMessage s t ∧ SameWidths s t
  | .dDict | .dCode => SameMessage s t ∧ SameWidths s t ∧ t.j = s.j
  | .dClose => True
  | .eLoad | .eHdr => SameBuffer s t
  | .eDict => SameBuffer s t ∧ SameEntries s.j s t ∧ t.j = s.j
  | .eCalc => SameBuffer s t ∧ SameEntries s.unique.toNat s t
  | .eCode => SameBuffer s t ∧ SameEntries s.unique.toNat s t ∧ SameCodes s t ∧ t.j = s.j ∧ CodesBelow s.j s
  | .eEmit => SameBuffer s t ∧ SameEntries s.unique.toNat s t ∧ SameCodes s t ∧ t.j = s.j ∧ CodesBelow s.n s

/-- Two states of two runs of one command, after the same steps on the same input. -/
structure Running (s t : State) : Prop extends SameRun s t where
  busy : s.status = .busy
  phase_eq : t.phase = s.phase
  ipos_eq : t.ipos = s.ipos
  obits_eq : t.obits = s.obits
  live : SameLive s t

/-- Two states in which no engine runs, the last runs having ended in the same way. -/
structure Stopped (s t : State) : Prop where
  idle : s.status ≠ .busy
  status_eq : t.status = s.status
  err_eq : t.err = s.err
  cmd_eq : t.cmd = s.cmd
  host_eq : t.host = s.host
  obits_eq : s.status = .done → t.obits = s.obits

/-- Both runs go on, or both are over. -/
def Alike (s t : State) : Prop := Running s t ∨ Stopped s t

/-- Both answer a next state, and these are alike. -/
def Agree (o o' : Res) : Prop := ∃ u u', o = .next u ∧ o' = .next u' ∧ Alike u u'

section
variable {s t u u' : State}

theorem agree_next (h : Alike u u') : Agree (.next u) (.next u') := ⟨u, u', rfl, rfl, h⟩

theorem agree_raise (e : ErrCode) (hcmd : t.cmd = s.cmd) (hhost : t.host = s.host) :
    Agree (raise e s) (raise e t) :=
  agree_next (.inr ⟨nofun, rfl, rfl, hcmd, hhost, nofun⟩)

theorem Running.busy_right (h : Running s t) : t.status = .busy := h.status_eq.trans h.busy

theorem Running.inBit_eq (h : Running s t) (k : Nat) : t.inBit k = s.inBit k := by
  rw [State.inBit, State.inBit, h.inBytes_eq]

theorem Running.inBits_left (h : Running s t) (hlt : s.ipos < 8 * s.inBytes.length) :
    t.ipos < 8 * t.inBytes.length := by
  rwa [h.ipos_eq, h.inBytes_eq]

theorem Running.all_read (h : Running s t) (heq : s.ipos = 8 * s.inBytes.length) : t.ipos = 8 * t.inBytes.length := by
  rwa [h.ipos_eq, h.inBytes_eq]

theorem Running.phase_right (h : Running s t) {p : Phase} (hp : s.phase = p) : t.phase = p := h.phase_eq.trans hp

/-! ## The registers that are live in a phase -/

theorem sameLive_rScan (hp : s.phase = .rScan) : SameLive s t ↔ SameCounts s t := by rw [SameLive, hp]

theorem sameLive_rFlush (hp : s.phase = .rFlush) : SameLive s t ↔ SameCounts s t := by rw [SameLive, hp]

theorem sameLive_xRead (hp : s.phase = .xRead) : SameLive s t ↔ t.lastValue = s.lastValue := by rw [SameLive, hp]

theorem sameLive_dLoad (hp : s.phase = .dLoad) : SameLive s t ↔ SameMessage s t := by rw [SameLive, hp]

theorem sameLive_dCalc (hp : s.phase = .dCalc) : SameLive s t ↔ SameMessage s t := by rw [SameLive, hp]

theorem sameLive_dHdr (hp : s.phase = .dHdr) : SameLive s t ↔ SameMessage s t ∧ SameWidths s t := by rw [SameLive, hp]

theorem sameLive_dDict (hp : s.phase = .dDict) : SameLive s t ↔ SameMessage s t ∧ SameWidths s t ∧ t.j = s.j := by
  rw [SameLive, hp]

theorem sameLive_dCode (hp : s.phase = .dCode) : SameLive s t ↔ SameMessage s t ∧ SameWidths s t ∧ t.j = s.j := by
  rw [SameLive, hp]

theorem sameLive_dClose (hp : s.phase = .dClose) : SameLive s t := by rw [SameLive, hp]; trivial

theorem sameLive_eLoad (hp : s.phase = .eLoad) : SameLive s t ↔ SameBuffer s t := by rw [SameLive, hp]

theorem sameLive_eHdr (hp : s.phase = .eHdr) : SameLive s t ↔ SameBuffer s t := by rw [SameLive, hp]

theorem sameLive_eDict (hp : s.phase = .eDict) :
    SameLive s t ↔ SameBuffer s t ∧ SameEntries s.j s t ∧ t.j = s.j := by rw [SameLive, hp]

theorem sameLive_eCalc (hp : s.phase = .eCalc) :
    SameLive s t ↔ SameBuffer s t ∧ SameEntries s.unique.toNat s t := by rw [SameLive, hp]

theorem sameLive_eCode (hp : s.phase = .eCode) :
    SameLive s t ↔ SameBuffer s t ∧ SameEntries s.unique.toNat s t ∧ SameCodes s t ∧ t.j = s.j ∧ CodesBelow s.j s := by
  rw [SameLive, hp]

theorem sameLive_eEmit (hp : s.phase = .eEmit) :
    SameLive s t ↔ SameBuffer s t ∧ SameEntries s.unique.toNat s t ∧ SameCodes s t ∧ t.j = s.j ∧ CodesBelow s.n s := by
  rw [SameLive, hp]

/-! ## The ways a row ends -/

theorem SameRun.refl (s : State) : SameRun s s := ⟨SameFeed.refl s, rfl, rfl, rfl, rfl⟩

/-- Both runs go on. -/
theorem Running.agree_next (h : Running s t) (hs : SameRun s u) (ht : SameRun t u') (hphase : u'.phase = u.phase)
    (hipos : u'.ipos = u.ipos) (hobits : u'.obits = u.obits) (hlive : SameLive u u') :
    Agree (.next u) (.next u') := by
  refine Machine.agree_next (.inl ⟨⟨⟨?_, ?_, ?_⟩, ?_, ?_, ?_, ?_⟩, hs.status_eq.trans h.busy, hphase, hipos, hobits, hlive⟩)
  · rw [ht.inBytes_eq, hs.inBytes_eq, h.inBytes_eq]
  · rw [ht.inEnd_eq, hs.inEnd_eq, h.inEnd_eq]
  · rw [ht.host_eq, hs.host_eq, h.host_eq]
  · rw [ht.cmd_eq, hs.cmd_eq, h.cmd_eq]
  · rw [ht.status_eq, hs.status_eq, h.status_eq]
  · rw [ht.err_eq, hs.err_eq, h.err_eq]
  · rw [ht.closed_eq, hs.closed_eq, h.closed_eq]

/-- Both runs at most write the same, move `code` and `j`, and go to the phase `q`. -/
theorem Running.agree_goto (h : Running s t) {bits bits' : List Bool} {code code' : BitVec 8} {j j' : Nat} {p q : Phase}
    (hphase : q = p) (hobits : bits' = bits)
    (hlive : SameLive { s with obits := bits, code := code, j := j, phase := p }
      { t with obits := bits', code := code', j := j', phase := q }) :
    Agree (.next { s with obits := bits, code := code, j := j, phase := p })
      (.next { t with obits := bits', code := code', j := j', phase := q }) :=
  h.agree_next ⟨⟨rfl, rfl, rfl⟩, rfl, rfl, rfl, rfl⟩ ⟨⟨rfl, rfl, rfl⟩, rfl, rfl, rfl, rfl⟩ hphase h.ipos_eq hobits hlive

/-- Both runs wait. -/
theorem Running.agree_same (h : Running s t) : Agree (.next s) (.next t) := Machine.agree_next (.inl h)

theorem Running.agree_raise (h : Running s t) (e : ErrCode) (hs : SameRun s u) (ht : SameRun t u') :
    Agree (raise e u) (raise e u') :=
  Machine.agree_raise e (by rw [ht.cmd_eq, hs.cmd_eq, h.cmd_eq]) (by rw [ht.host_eq, hs.host_eq, h.host_eq])

/-- Both runs complete, with the same output. -/
theorem Running.agree_done (h : Running s t) (hu : u.status = .done) (hu' : u'.status = .done)
    (herr : u.err = s.err ∧ u'.err = t.err) (hcmd : u.cmd = s.cmd ∧ u'.cmd = t.cmd)
    (hhost : u.host = s.host ∧ u'.host = t.host) (hobits : u'.obits = u.obits) : Agree (.next u) (.next u') :=
  Machine.agree_next (.inr ⟨by rw [hu]; decide, hu'.trans hu.symm, by rw [herr.1, herr.2, h.err_eq],
    by rw [hcmd.1, hcmd.2, h.cmd_eq], by rw [hhost.1, hhost.2, h.host_eq], fun _ => hobits⟩)

theorem Running.agree_complete (h : Running s t) : Agree (complete s) (complete t) := by
  rw [complete_eq_padToByte, complete_eq_padToByte]
  exact h.agree_done rfl rfl ⟨rfl, rfl⟩ ⟨rfl, rfl⟩ ⟨rfl, rfl⟩ (congrArg padToByte h.obits_eq)

/-! ## The run-length engines -/

section
variable (hs : Invariant s) (ht : Invariant t) (h : Running s t)
include hs ht h

omit hs ht in
/-- Both runs read a bit, with the same outcome. -/
theorem agree_rScan_bit (hp : s.phase = .rScan) (bits : List Bool) (value : Bool) (count : BitVec 7) :
    Agree (.next { s with ipos := s.ipos + 1, obits := bits, lastValue := value, valueCount := count })
      (.next { t with ipos := t.ipos + 1, obits := bits, lastValue := value, valueCount := count }) :=
  h.agree_next ⟨⟨rfl, rfl, rfl⟩, rfl, rfl, rfl, rfl⟩ ⟨⟨rfl, rfl, rfl⟩, rfl, rfl, rfl, rfl⟩ h.phase_eq
    (congrArg (· + 1) h.ipos_eq) rfl ((sameLive_rScan (by exact hp)).2 ⟨rfl, rfl⟩)

theorem agree_rScan (hp : s.phase = .rScan) : Agree (rScan s) (rScan t) := by
  obtain ⟨hvalue, hcounts⟩ := (sameLive_rScan hp).1 h.live
  obtain ⟨hcount, -⟩ := (phaseOk_rScan hp).1 hs.phase_ok
  have hopen := hs.control.busy_open h.busy
  have hopen' := ht.control.busy_open h.busy_right
  rcases hs.streams.ipos_le.lt_or_eq with hlt | heq
  · have hlt' := h.inBits_left hlt
    have hbits : t.inBit t.ipos = s.inBit s.ipos := by rw [h.ipos_eq, h.inBit_eq]
    by_cases hbit : s.inBit s.ipos = s.lastValue
    · rw [rScan_same hopen hcount hlt hbit, rScan_same hopen' (hcounts ▸ hcount) hlt' (by rw [hbits, hbit, hvalue]),
        hcounts, h.obits_eq, hvalue]
      split
      · exact agree_rScan_bit h hp _ _ _
      · exact agree_rScan_bit h hp _ _ _
    · rw [rScan_change hopen hlt hbit, rScan_change hopen' hlt' (by rwa [hbits, hvalue]), hbits, hcounts, h.obits_eq]
      exact agree_rScan_bit h hp _ _ _
  · have heq' := h.all_read heq
    cases hend : s.inEnd with
    | true =>
      rw [rScan_end hend heq, rScan_end (h.inEnd_eq.trans hend) heq']
      exact h.agree_goto rfl h.obits_eq ((sameLive_rFlush rfl).2 ⟨hvalue, hcounts⟩)
    | false =>
      rw [rScan_wait hend heq, rScan_wait (h.inEnd_eq.trans hend) heq']
      exact h.agree_same

theorem agree_rFlush (hp : s.phase = .rFlush) : Agree (rFlush s) (rFlush t) := by
  obtain ⟨-, hcounts⟩ := (sameLive_rFlush hp).1 h.live
  rw [rFlush_open (hs.control.busy_open h.busy), rFlush_open (ht.control.busy_open h.busy_right), hcounts, h.obits_eq]
  exact h.agree_done rfl rfl ⟨rfl, rfl⟩ ⟨rfl, rfl⟩ ⟨rfl, rfl⟩ rfl

theorem agree_xRead (hp : s.phase = .xRead) : Agree (xRead s) (xRead t) := by
  have hvalue := (sameLive_xRead hp).1 h.live
  have hmod := (phaseOk_xRead hp).1 hs.phase_ok
  rcases hs.streams.ipos_le.lt_or_eq with hlt | heq
  · have hk : s.ipos / 8 < s.inBytes.length := by omega
    have hi : s.ipos = 8 * (s.ipos / 8) := by omega
    have hstep' := xRead_byte (s := t) (k := s.ipos / 8) (by rwa [h.inBytes_eq]) (by rwa [h.ipos_eq])
      (ht.control.busy_open h.busy_right)
    simp only [h.inBytes_eq, h.ipos_eq, h.obits_eq, hvalue] at hstep'
    rw [xRead_byte hk hi (hs.control.busy_open h.busy), hstep']
    exact h.agree_next ⟨⟨rfl, rfl, rfl⟩, rfl, rfl, rfl, rfl⟩ ⟨⟨h.inBytes_eq.symm, rfl, rfl⟩, rfl, rfl, rfl, rfl⟩
      h.phase_eq rfl rfl ((sameLive_xRead (by exact hp)).2 rfl)
  · have heq' := h.all_read heq
    cases hend : s.inEnd with
    | true =>
      rw [xRead_end hend heq, xRead_end (h.inEnd_eq.trans hend) heq']
      exact h.agree_complete
    | false =>
      rw [xRead_wait hend heq, xRead_wait (h.inEnd_eq.trans hend) heq']
      exact h.agree_same

end

/-! ## The dictionary encoder -/

/-- Storing one byte in both message buffers. -/
theorem sameMessage_dStore (b : Byte) (hs : TablesOk s) (ht : TablesOk t) (h : SameMessage s t) :
    SameMessage (dStore b s) (dStore b t) := by
  obtain ⟨hlength, hunique, hseen, hmsg, hdict, hidx⟩ := h
  refine ⟨congrArg (· + 1) hlength, hunique, hseen, fun k hk => ?_, hdict, hidx⟩
  rw [dStore_msg, dStore_msg, hlength]
  rcases Nat.lt_succ_iff_lt_or_eq.1 hk with hlt | rfl
  · rw [Table.read_write_other _ _ hlt.ne, Table.read_write_other _ _ hlt.ne, hmsg k hlt]
  · rw [Table.read_write_same hs.msg_wf, Table.read_write_same ht.msg_wf]

/-- Giving a value the next code in both trackers. -/
theorem sameMessage_dAssign (b : Byte) (hs : TablesOk s) (ht : TablesOk t) (h : SameMessage s t)
    (hlt : s.unique.toNat < 256) : SameMessage (dAssign b s) (dAssign b t) := by
  obtain ⟨hlength, hunique, hseen, hmsg, hdict, hidx⟩ := h
  refine ⟨hlength, by rw [dAssign_unique, dAssign_unique, hunique], by rw [dAssign_seen, dAssign_seen, hseen], hmsg,
    fun i hi => ?_, fun v hv => ?_⟩
  · have hi : i < s.unique.toNat + 1 := by
      rwa [dAssign_unique, BitVec.toNat_add, Nat.mod_eq_of_lt (by simp; omega)] at hi
    rw [dAssign_dict, dAssign_dict, hunique]
    rcases Nat.lt_succ_iff_lt_or_eq.1 hi with hilt | rfl
    · rw [Table.read_write_other _ _ hilt.ne, Table.read_write_other _ _ hilt.ne, hdict i hilt]
    · rw [Table.read_write_same hs.dict_wf, Table.read_write_same ht.dict_wf]
  · rw [dAssign_seen] at hv
    rw [dAssign_idx, dAssign_idx, hunique]
    by_cases hvb : v = b.toNat
    · rw [hvb, Table.read_write_same hs.idx_wf, Table.read_write_same ht.idx_wf]
    · rw [Table.read_write_other _ _ hvb] at hv
      rw [Table.read_write_other _ _ hvb, Table.read_write_other _ _ hvb, hidx v hv]

section
variable (hs : Invariant s) (ht : Invariant t) (h : Running s t)
include hs ht h

/-- One byte that both runs have been supplied with. -/
theorem agree_dLoad_byte (caps : Config.Caps) (hp : s.phase = .dLoad) (hlt : s.ipos < 8 * s.inBytes.length) :
    Agree (dLoad caps s) (dLoad caps t) := by
  have hm := (sameLive_dLoad hp).1 h.live
  have ⟨hlength, hunique, hseen, _, _, _⟩ := hm
  obtain ⟨hi, -, hd⟩ := (phaseOk_dLoad hp).1 hs.phase_ok
  have hk : s.length < s.inBytes.length := by omega
  have hk' : s.length < t.inBytes.length := by rwa [h.inBytes_eq]
  have hi' : t.ipos = 8 * s.length := by rwa [h.ipos_eq]
  have hbyte : t.inBytes[s.length] = s.inBytes[s.length] := by simp only [h.inBytes_eq]
  have hts : TablesOk (s.advance 8) := tables_of_eq hs.tables rfl rfl rfl rfl rfl
  have htt : TablesOk (t.advance 8) := tables_of_eq ht.tables rfl rfl rfl rfl rfl
  have hipos : t.ipos + 8 = s.ipos + 8 := congrArg (· + 8) h.ipos_eq
  by_cases hcap : atCap caps.msgCap s.length = true
  · rw [dLoad_byte caps hk hi, dLoad_byte caps hk' hi', if_pos hcap, if_pos (by rwa [hlength])]
    exact h.agree_raise _ ⟨⟨rfl, rfl, rfl⟩, rfl, rfl, rfl, rfl⟩ ⟨⟨rfl, rfl, rfl⟩, rfl, rfl, rfl, rfl⟩
  have hcap' : ¬ atCap caps.msgCap t.length = true := by rwa [hlength]
  by_cases hunseen : Table.read s.seen s.inBytes[s.length].toNat = 0#1
  · have hu := unique_lt_of_unseen hs.tables hd hunseen
    rw [dLoad_unseen caps hk hi hcap hunseen hu,
      dLoad_unseen caps hk' hi' hcap' (by rwa [hseen, hbyte]) (by rwa [hunique]), hbyte]
    exact h.agree_next ⟨⟨rfl, rfl, rfl⟩, rfl, rfl, rfl, rfl⟩ ⟨⟨rfl, rfl, rfl⟩, rfl, rfl, rfl, rfl⟩ h.phase_eq hipos
      h.obits_eq ((sameLive_dLoad (by exact hp)).2 (sameMessage_dStore _ (tablesOk_dAssign _ hts hu)
        (tablesOk_dAssign _ htt (by rwa [advance_unique, hunique])) (sameMessage_dAssign _ hts htt hm hu)))
  · rw [dLoad_seen caps hk hi hcap hunseen, dLoad_seen caps hk' hi' hcap' (by rwa [hseen, hbyte]), hbyte]
    exact h.agree_next ⟨⟨rfl, rfl, rfl⟩, rfl, rfl, rfl, rfl⟩ ⟨⟨rfl, rfl, rfl⟩, rfl, rfl, rfl, rfl⟩ h.phase_eq hipos
      h.obits_eq ((sameLive_dLoad (by exact hp)).2 (sameMessage_dStore _ hts htt hm))

theorem agree_dLoad (caps : Config.Caps) (hp : s.phase = .dLoad) : Agree (dLoad caps s) (dLoad caps t) := by
  rcases hs.streams.ipos_le.lt_or_eq with hlt | heq
  · exact agree_dLoad_byte hs ht h caps hp hlt
  · have heq' := h.all_read heq
    cases hend : s.inEnd with
    | true =>
      rw [dLoad_end caps hend heq, dLoad_end caps (h.inEnd_eq.trans hend) heq']
      exact h.agree_goto rfl h.obits_eq ((sameLive_dCalc rfl).2 ((sameLive_dLoad hp).1 h.live))
    | false =>
      rw [dLoad_wait caps hend heq, dLoad_wait caps (h.inEnd_eq.trans hend) heq']
      exact h.agree_same

omit hs ht in
theorem agree_dCalc (hp : s.phase = .dCalc) : Agree (dCalc s) (dCalc t) := by
  have hm := (sameLive_dCalc hp).1 h.live
  have ⟨hlength, hunique, _, _, _, _⟩ := hm
  have hw : SameWidths (dWidths s) (dWidths t) := by
    rw [SameWidths, dWidths_cw, dWidths_cw, dWidths_rem, dWidths_rem, hlength, hunique]
    exact ⟨rfl, rfl⟩
  exact h.agree_next ⟨⟨rfl, rfl, rfl⟩, rfl, rfl, rfl, rfl⟩ ⟨⟨rfl, rfl, rfl⟩, rfl, rfl, rfl, rfl⟩ rfl h.ipos_eq h.obits_eq
    ((sameLive_dHdr rfl).2 ⟨hm, hw⟩)

theorem agree_dHdr (hp : s.phase = .dHdr) : Agree (dHdr s) (dHdr t) := by
  obtain ⟨hm, hw⟩ := (sameLive_dHdr hp).1 h.live
  have ⟨_, hunique, _, _, _, _⟩ := hm
  rw [dHdr_open (hs.control.busy_open h.busy), dHdr_open (ht.control.busy_open h.busy_right)]
  exact h.agree_goto rfl (by rw [h.obits_eq, hunique, hw.2]) ((sameLive_dDict rfl).2 ⟨hm, hw, rfl⟩)

theorem agree_dDict (hp : s.phase = .dDict) : Agree (dDict s) (dDict t) := by
  obtain ⟨hm, hw, hj⟩ := (sameLive_dDict hp).1 h.live
  have ⟨_, hunique, _, _, hdict, _⟩ := hm
  obtain ⟨-, -, hd, -⟩ := (phaseOk_dDict hp).1 hs.phase_ok
  have hu := unique_le hs.tables hd
  by_cases hlt : s.j < s.unique.toNat
  · rw [dDict_entry (hs.control.busy_open h.busy) hu hlt,
      dDict_entry (ht.control.busy_open h.busy_right) (by rwa [hunique]) (by rwa [hj, hunique])]
    exact h.agree_goto h.phase_eq (by rw [h.obits_eq, hj, hdict _ hlt])
      ((sameLive_dDict (by exact hp)).2 ⟨hm, hw, congrArg (· + 1) hj⟩)
  · rw [dDict_end hlt, dDict_end (by rwa [hj, hunique])]
    exact h.agree_goto rfl h.obits_eq ((sameLive_dCode rfl).2 ⟨hm, hw, rfl⟩)

theorem agree_dCode (hp : s.phase = .dCode) : Agree (dCode s) (dCode t) := by
  obtain ⟨hm, hw, hj⟩ := (sameLive_dCode hp).1 h.live
  have ⟨hlength, hunique, _, hmsg, _, hidx⟩ := hm
  obtain ⟨-, -, hd, henc⟩ := (phaseOk_dCode hp).1 hs.phase_ok
  have hcw := henc.cw_eq
  have h1 := codeWidth_pos s.unique.toNat
  have h8 := codeWidth_le_eight (unique_le hs.tables hd)
  by_cases hlt : s.j < s.length
  · have hfits := messageCode_lt hd henc hlt
    have hcode : Table.read t.idx (Table.read t.msg t.j).toNat = Table.read s.idx (Table.read s.msg s.j).toNat := by
      rw [hj, hmsg _ hlt, hidx _ (hd.msg_seen _ hlt)]
    rw [dCode_code (hs.control.busy_open h.busy) (by omega) (by omega) hfits hlt,
      dCode_code (s := t) (ht.control.busy_open h.busy_right) (by rw [hw.1]; omega) (by rw [hw.1]; omega)
        (by rwa [hcode, hw.1]) (by rwa [hj, hlength])]
    exact h.agree_goto h.phase_eq (by rw [h.obits_eq, hcode, hw.1])
      ((sameLive_dCode (by exact hp)).2 ⟨hm, hw, congrArg (· + 1) hj⟩)
  · rw [dCode_end hlt, dCode_end (by rwa [hj, hlength])]
    exact h.agree_goto rfl h.obits_eq (sameLive_dClose rfl)

end

/-! ## The dictionary decoder -/

/-- The loaded bits are the same (43_dict_decoder.md R193). -/
theorem SameBuffer.bufBits_eq (h : SameBuffer s t) (a n : Nat) : bufBits a n t = bufBits a n s := by
  obtain ⟨hB, hbytes⟩ := h
  rw [bufBits, bufBits, hB]
  split
  · next hfits =>
    refine List.map_congr_left fun i hi => ?_
    have hbyte : (a + i) / 8 < s.B := by have := List.mem_range.1 hi; omega
    rw [State.bufBit, State.bufBit, hbytes _ hbyte]
  · rfl

theorem sameBuffer_eStore (b : Byte) (hs : TablesOk s) (ht : TablesOk t) (h : SameBuffer s t) :
    SameBuffer (eStore b s) (eStore b t) := by
  obtain ⟨hB, hbytes⟩ := h
  refine ⟨congrArg (· + 1) hB, fun k hk => ?_⟩
  rw [eStore_ibuf, eStore_ibuf, hB]
  rcases Nat.lt_succ_iff_lt_or_eq.1 hk with hlt | rfl
  · rw [Table.read_write_other _ _ hlt.ne, Table.read_write_other _ _ hlt.ne, hbytes k hlt]
  · rw [Table.read_write_same hs.ibuf_wf, Table.read_write_same ht.ibuf_wf]

theorem sameEntries_eEntry (b : Byte) (hs : TablesOk s) (ht : TablesOk t) (h : SameEntries s.j s t) (hj : t.j = s.j) :
    SameEntries (s.j + 1) (eEntry b s) (eEntry b t) := by
  obtain ⟨hrem, hunique, hdict⟩ := h
  refine ⟨hrem, hunique, fun i hi => ?_⟩
  rw [eEntry_dict, eEntry_dict, hj]
  rcases Nat.lt_succ_iff_lt_or_eq.1 hi with hlt | rfl
  · rw [Table.read_write_other _ _ hlt.ne, Table.read_write_other _ _ hlt.ne, hdict i hlt]
  · rw [Table.read_write_same hs.dict_wf, Table.read_write_same ht.dict_wf]

/-- Code `j` is the same byte in both runs. -/
theorem exists_same_code (hbuf : SameBuffer s t) (hunique : t.unique = s.unique) (hcw : t.cw = s.cw) (hj : t.j = s.j)
    (hd : DecDictOk s) (hw : DecWidthsOk s) (hlt : s.j < s.n) :
    ∃ c : Byte, c.toNat = natOf (codeBits s) ∧ runToken (.code s.cw.toNat) (codeBits s) s = codeToken c s ∧
      runToken (.code t.cw.toNat) (codeBits t) t = codeToken c t := by
  have hbits : codeBits t = codeBits s := by rw [codeBits, codeBits, hunique, hcw, hj, hbuf.bufBits_eq]
  have hlen : (codeBits s).length = s.cw.toNat := bufBits_length (code_fits hw hlt)
  have hwidth := hw.cw_eq
  have h1 := codeWidth_pos s.unique.toNat
  have h8 := codeWidth_le_eight (hd.unique_eq ▸ resolveUnique_le s.U s.B)
  obtain ⟨c, hval, hrun⟩ := runToken_code (s := s) (by omega) (by omega) hlen
  obtain ⟨c', hval', hrun'⟩ := runToken_code (s := t) (by omega) (by omega) hlen
  obtain rfl : c' = c := BitVec.eq_of_toNat_eq (hval'.trans hval.symm)
  exact ⟨c', hval, hrun, by rw [hcw, hbits, hrun']⟩

section
variable (hs : Invariant s) (ht : Invariant t) (h : Running s t)
include hs ht h

theorem agree_eLoad (caps : Config.Caps) (hp : s.phase = .eLoad) : Agree (eLoad caps s) (eLoad caps t) := by
  have hbuf := (sameLive_eLoad hp).1 h.live
  obtain ⟨hi, -⟩ := (phaseOk_eLoad hp).1 hs.phase_ok
  rcases hs.streams.ipos_le.lt_or_eq with hlt | heq
  · have hk : s.B < s.inBytes.length := by omega
    have hk' : s.B < t.inBytes.length := by rwa [h.inBytes_eq]
    have hbyte : t.inBytes[s.B] = s.inBytes[s.B] := by simp only [h.inBytes_eq]
    rw [eLoad_byte caps hk hi, eLoad_byte caps hk' (by rwa [h.ipos_eq]), hbyte, hbuf.1]
    split
    · exact h.agree_raise _ (SameRun.refl s) (SameRun.refl t)
    · exact h.agree_next ⟨⟨rfl, rfl, rfl⟩, rfl, rfl, rfl, rfl⟩ ⟨⟨rfl, rfl, rfl⟩, rfl, rfl, rfl, rfl⟩ h.phase_eq
        (congrArg (· + 8) h.ipos_eq) h.obits_eq ((sameLive_eLoad (by exact hp)).2
          (sameBuffer_eStore _ (tables_of_eq hs.tables rfl rfl rfl rfl rfl)
            (tables_of_eq ht.tables rfl rfl rfl rfl rfl) hbuf))
  · have heq' := h.all_read heq
    cases hend : s.inEnd with
    | true =>
      rw [eLoad_end caps hend heq, eLoad_end caps (h.inEnd_eq.trans hend) heq']
      exact h.agree_goto rfl h.obits_eq ((sameLive_eHdr rfl).2 hbuf)
    | false =>
      rw [eLoad_wait caps hend heq, eLoad_wait caps (h.inEnd_eq.trans hend) heq']
      exact h.agree_same

omit hs ht in
theorem agree_eHdr (hp : s.phase = .eHdr) : Agree (eHdr s) (eHdr t) := by
  have hbuf := (sameLive_eHdr hp).1 h.live
  by_cases hshort : 8 * s.B < 11
  · rw [eHdr_short hshort, eHdr_short (by rwa [hbuf.1])]
    exact h.agree_raise _ (SameRun.refl s) (SameRun.refl t)
  · have hB := hbuf.1
    obtain ⟨rem, u, r, hd⟩ := decode_header_of_length
      (Nat.le_of_eq (bufBits_length (addr := 0) (n := 11) (s := s) (by omega)).symm)
    rw [eHdr_token (by omega), eHdr_token (by omega), hbuf.bufBits_eq, runToken_of hd, runToken_of hd]
    have hunique : resolveUnique u t.B = resolveUnique u s.B := by rw [hB]
    exact h.agree_next ⟨⟨rfl, rfl, rfl⟩, rfl, rfl, rfl, rfl⟩ ⟨⟨rfl, rfl, rfl⟩, rfl, rfl, rfl, rfl⟩ rfl h.ipos_eq h.obits_eq
      ((sameLive_eDict rfl).2 ⟨hbuf, ⟨rfl, hunique, nofun⟩, rfl⟩)

theorem agree_eDict (hp : s.phase = .eDict) : Agree (eDict s) (eDict t) := by
  obtain ⟨hbuf, hentries, hj⟩ := (sameLive_eDict hp).1 h.live
  obtain ⟨-, -, hu, hle⟩ := (phaseOk_eDict hp).1 hs.phase_ok
  have hmax : s.unique.toNat ≤ 256 := hu ▸ resolveUnique_le s.U s.B
  have hB := hbuf.1
  have hunique := congrArg BitVec.toNat hentries.2.1
  by_cases hshort : 8 * s.B < 11 + 8 * s.unique.toNat
  · rw [eDict_short hshort, eDict_short (by omega)]
    exact h.agree_raise _ (SameRun.refl s) (SameRun.refl t)
  by_cases hlt : s.j < s.unique.toNat
  · obtain ⟨b, r, hd⟩ := decode_entry_of_length
      (Nat.le_of_eq (bufBits_length (addr := 11 + 8 * s.j) (n := 8) (s := s) (by omega)).symm)
    rw [eDict_token (by omega) hlt, eDict_token (s := t) (by omega) (by omega), hj, hbuf.bufBits_eq, runToken_of hd,
      runToken_of hd]
    have hs' : exec (.dictEnt b) s = _ := execDictEnt_of_lt b (show s.j < 256 by omega)
    have ht' : exec (.dictEnt b) t = _ := execDictEnt_of_lt b (show t.j < 256 by omega)
    rw [hs', ht']
    exact h.agree_next ⟨⟨rfl, rfl, rfl⟩, rfl, rfl, rfl, rfl⟩ ⟨⟨rfl, rfl, rfl⟩, rfl, rfl, rfl, rfl⟩ h.phase_eq h.ipos_eq
      h.obits_eq ((sameLive_eDict (by exact hp)).2
        ⟨hbuf, sameEntries_eEntry b hs.tables ht.tables hentries hj, congrArg (· + 1) hj⟩)
  · have hall : s.j = s.unique.toNat := by omega
    rw [eDict_end (by omega) (by omega), eDict_end (s := t) (by omega) (by omega)]
    exact h.agree_goto rfl h.obits_eq ((sameLive_eCalc rfl).2 ⟨hbuf, hall ▸ hentries⟩)

omit hs ht in
theorem agree_eCalc (hp : s.phase = .eCalc) : Agree (eCalc s) (eCalc t) := by
  obtain ⟨hbuf, hentries⟩ := (sameLive_eCalc hp).1 h.live
  have ⟨hrem, hunique, hdict⟩ := hentries
  have hpayload : (eWidths t).payload = (eWidths s).payload := by
    rw [eWidths_payload, eWidths_payload, hbuf.1, hrem, hunique]
  have hcw : (eWidths t).cw = (eWidths s).cw := by rw [eWidths_cw, eWidths_cw, hunique]
  have hpad : (eWidths t).pad = (eWidths s).pad := by rw [eWidths_pad, eWidths_pad, hrem]
  by_cases hbad : (eWidths s).payload < 0 ∨ (s.unique = 0#9 ∧ (eWidths s).payload ≠ 0)
  · rw [eCalc_format hbad, eCalc_format (by rwa [hpayload, hunique])]
    exact h.agree_raise _ ⟨⟨rfl, rfl, rfl⟩, rfl, rfl, rfl, rfl⟩ ⟨⟨rfl, rfl, rfl⟩, rfl, rfl, rfl, rfl⟩
  have hbad' : ¬ ((eWidths t).payload < 0 ∨ (t.unique = 0#9 ∧ (eWidths t).payload ≠ 0)) := by rwa [hpayload, hunique]
  by_cases hmod : (eWidths s).payload % (eWidths s).cw.toNat = 0
  · rw [eCalc_codes hbad hmod, eCalc_codes hbad' (by rwa [hpayload, hcw]), hpayload, hcw]
    generalize ((eWidths s).payload / ((eWidths s).cw.toNat : Int)).toNat = n
    refine h.agree_next (sameRun_eWidths s n) (sameRun_eWidths t n) (by simp) (by simpa using h.ipos_eq)
      (by simpa using h.obits_eq) ((sameLive_eCode (setPhase_phase _ _)).2 ⟨?_, ?_, ?_, by simp, nofun⟩)
    · simpa [SameBuffer] using hbuf
    · simpa [SameEntries] using hentries
    · exact ⟨hcw, hpad, rfl⟩
  · rw [eCalc_malformed hbad hmod, eCalc_malformed hbad' (by rwa [hpayload, hcw])]
    exact h.agree_raise _ ⟨⟨rfl, rfl, rfl⟩, rfl, rfl, rfl, rfl⟩ ⟨⟨rfl, rfl, rfl⟩, rfl, rfl, rfl, rfl⟩

omit ht in
theorem agree_eCode (hp : s.phase = .eCode) : Agree (eCode s) (eCode t) := by
  obtain ⟨hbuf, hentries, hcodes, hj, hbelow⟩ := (sameLive_eCode hp).1 h.live
  have ⟨_, hunique, _⟩ := hentries
  have ⟨hcw, _, hn⟩ := hcodes
  obtain ⟨-, hd, hw, hle⟩ := (phaseOk_eCode hp).1 hs.phase_ok
  rcases hle.lt_or_eq with hlt | heq
  · obtain ⟨c, hval, hrun, hrun'⟩ := exists_same_code hbuf hunique hcw hj hd hw hlt
    rw [eCode_token hlt, eCode_token (by omega), hrun, hrun']
    by_cases hvalid : c.toNat < s.unique.toNat
    · rw [codeToken_eCode_of_lt hp hvalid, codeToken_eCode_of_lt (h.phase_right hp) (by rwa [hunique])]
      refine h.agree_goto h.phase_eq h.obits_eq ((sameLive_eCode (by exact hp)).2
        ⟨hbuf, hentries, hcodes, congrArg (· + 1) hj, fun i hi => ?_⟩)
      rcases Nat.lt_succ_iff_lt_or_eq.1 hi with hilt | rfl
      · exact hbelow i hilt
      · exact hval ▸ hvalid
    · rw [codeToken_eCode_of_le hp (by omega), codeToken_eCode_of_le (h.phase_right hp) (by rw [hunique]; omega)]
      exact h.agree_raise _ ⟨⟨rfl, rfl, rfl⟩, rfl, rfl, rfl, rfl⟩ ⟨⟨rfl, rfl, rfl⟩, rfl, rfl, rfl, rfl⟩
  · rw [eCode_end heq.ge, eCode_end (by omega)]
    exact h.agree_goto rfl h.obits_eq ((sameLive_eEmit rfl).2 ⟨hbuf, hentries, hcodes, rfl, heq ▸ hbelow⟩)

theorem agree_eEmit (hp : s.phase = .eEmit) : Agree (eEmit s) (eEmit t) := by
  obtain ⟨hbuf, hentries, hcodes, hj, hbelow⟩ := (sameLive_eEmit hp).1 h.live
  have ⟨_, hunique, hdict⟩ := hentries
  have ⟨hcw, hpad, hn⟩ := hcodes
  obtain ⟨-, hd, hw, hle⟩ := (phaseOk_eEmit hp).1 hs.phase_ok
  rcases hle.lt_or_eq with hlt | heq
  · obtain ⟨c, hval, hrun, hrun'⟩ := exists_same_code hbuf hunique hcw hj hd hw hlt
    have hentry : Table.read t.dict c.toNat = Table.read s.dict c.toNat := hdict _ (hval ▸ hbelow _ hlt)
    rw [eEmit_token hlt, eEmit_token (by omega), hrun, hrun',
      codeToken_writes (by rw [hp]; decide) (hs.control.busy_open h.busy),
      codeToken_writes (by rw [h.phase_right hp]; decide) (ht.control.busy_open h.busy_right)]
    exact h.agree_goto h.phase_eq (by rw [h.obits_eq, hentry]) ((sameLive_eEmit (by exact hp)).2
      ⟨hbuf, hentries, hcodes, congrArg (· + 1) hj, hbelow⟩)
  · have hbits : padBits t = padBits s := by rw [padBits, padBits, hunique, hcw, hn, hpad, hbuf.bufBits_eq]
    obtain ⟨p, r, hdec⟩ := decode_padding_of_length s.pad.isLt (length_padBits hw).ge
    rw [eEmit_padding heq.ge, eEmit_padding (by omega), hbits, hpad, runToken_of hdec, runToken_of hdec]
    exact h.agree_complete

/-! ## The block's step -/

theorem agree_engineStep (caps : Config.Caps) : Agree (engineStep caps s) (engineStep caps t) := by
  rw [engineStep, engineStep, if_neg (not_not.2 h.busy), if_neg (not_not.2 h.busy_right), h.phase_eq]
  cases hp : s.phase with
  | halt => exact absurd hp (hs.control.busy_iff.1 h.busy)
  | rScan => exact agree_rScan hs ht h hp
  | rFlush => exact agree_rFlush hs ht h hp
  | xRead => exact agree_xRead hs ht h hp
  | dLoad => exact agree_dLoad hs ht h caps hp
  | dCalc => exact agree_dCalc h hp
  | dHdr => exact agree_dHdr hs ht h hp
  | dDict => exact agree_dDict hs ht h hp
  | dCode => exact agree_dCode hs ht h hp
  | dClose => exact h.agree_complete
  | eLoad => exact agree_eLoad hs ht h caps hp
  | eHdr => exact agree_eHdr h hp
  | eDict => exact agree_eDict hs ht h hp
  | eCalc => exact agree_eCalc h hp
  | eCode => exact agree_eCode hs h hp
  | eEmit => exact agree_eEmit hs ht h hp

end

/-! ## The host's turns -/

/-- One START, whatever earlier runs left (R221 to R223). -/
theorem agree_runCommand (c : Byte) (hs : s.status ≠ .busy) (ht : t.status ≠ .busy) (hhost : t.host = s.host) :
    Agree (runCommand c s) (runCommand c t) := by
  have hcommand := command_runCommand c
  generalize runCommand c = run at hcommand
  cases hcommand with
  | dcomp hc =>
    rw [execDcomp, execDcomp, startEngine_accepted hs, startEngine_accepted ht]
    refine agree_next (.inl ⟨⟨⟨rfl, rfl, hhost⟩, rfl, rfl, rfl, rfl⟩, rfl, rfl, rfl, rfl, (sameLive_dLoad rfl).2
      ⟨rfl, rfl, rfl, nofun, nofun, fun v hv => ?_⟩⟩)
    exact absurd hv (by decide : (0#1 : BitVec 1) ≠ 1#1)
  | dexp hc =>
    rw [execDexp, execDexp, startEngine_accepted hs, startEngine_accepted ht]
    exact agree_next (.inl ⟨⟨⟨rfl, rfl, hhost⟩, rfl, rfl, rfl, rfl⟩, rfl, rfl, rfl, rfl, (sameLive_eLoad rfl).2
      ⟨rfl, nofun⟩⟩)
  | rcomp hc =>
    rw [execRcomp, execRcomp, startEngine_accepted hs, startEngine_accepted ht]
    exact agree_next (.inl ⟨⟨⟨rfl, rfl, hhost⟩, rfl, rfl, rfl, rfl⟩, rfl, rfl, rfl, rfl, (sameLive_rScan rfl).2
      ⟨rfl, rfl⟩⟩)
  | rexp hc =>
    rw [execRexp, execRexp, startEngine_accepted hs, startEngine_accepted ht]
    exact agree_next (.inl ⟨⟨⟨rfl, rfl, hhost⟩, rfl, rfl, rfl, rfl⟩, rfl, rfl, rfl, rfl, (sameLive_xRead rfl).2 rfl⟩)
  | reserved hnone =>
    rw [usageError_accepted hs, usageError_accepted ht]
    exact agree_next (.inr ⟨nofun, rfl, rfl, rfl, hhost, nofun⟩)

theorem Stopped.idle_right (h : Stopped s t) : t.status ≠ .busy := by rw [h.status_eq]; exact h.idle

theorem Stopped.agree_same (h : Stopped s t) : Agree (.next s) (.next t) := agree_next (.inr h)

/-- Both inputs grow or end in the same way. -/
theorem Running.agree_setInput (h : Running s t) {bs bs' : List Byte} {e e' : Bool} (hbs : bs' = bs) (he : e' = e) :
    Agree (.next { s with inBytes := bs, inEnd := e }) (.next { t with inBytes := bs', inEnd := e' }) := by
  obtain ⟨⟨⟨-, -, hhost⟩, hcmd, hstatus, herr, hclosed⟩, hb, hphase, hipos, hobits, hlive⟩ := h
  exact Machine.agree_next (.inl ⟨⟨⟨hbs, he, hhost⟩, hcmd, hstatus, herr, hclosed⟩, hb, hphase, hipos, hobits, hlive⟩)

theorem Running.agree_supply (h : Running s t) (b : Byte) : Agree (.next (supply b s)) (.next (supply b t)) := by
  by_cases hopen : s.inEnd = false
  · rw [supply, supply, if_pos ⟨h.busy, hopen⟩, if_pos ⟨h.busy_right, h.inEnd_eq.trans hopen⟩]
    exact h.agree_setInput (by rw [h.inBytes_eq]) h.inEnd_eq
  · rw [supply, supply, if_neg fun hf => hopen hf.2, if_neg fun hf => hopen (h.inEnd_eq.symm.trans hf.2)]
    exact h.agree_same

theorem Running.agree_markEnd (h : Running s t) : Agree (.next (markEnd s)) (.next (markEnd t)) := by
  rw [markEnd, markEnd, if_pos h.busy, if_pos h.busy_right]
  exact h.agree_setInput h.inBytes_eq rfl

theorem Running.agree_hostTurn (h : Running s t) (caps : Config.Caps) (turn : HostTurn) (hs : Invariant s)
    (ht : Invariant t) : Agree (hostTurn caps turn s) (hostTurn caps turn t) := by
  cases turn with
  | reset => exact Machine.agree_next (.inr ⟨nofun, rfl, rfl, rfl, h.host_eq, nofun⟩)
  | start c =>
    rw [hostTurn, hostTurn, runCommand_busy c h.busy, runCommand_busy c h.busy_right]
    exact h.agree_same
  | supply b => exact h.agree_supply b
  | endInput => exact h.agree_markEnd
  | read r => exact h.agree_same
  | idle => exact agree_engineStep hs ht h caps

theorem Stopped.agree_hostTurn (h : Stopped s t) (caps : Config.Caps) (turn : HostTurn) :
    Agree (hostTurn caps turn s) (hostTurn caps turn t) := by
  by_cases hturn : turn.commands = true
  · obtain rfl | ⟨c, rfl⟩ := commands_iff.1 hturn
    · exact agree_next (.inr ⟨nofun, rfl, rfl, rfl, h.host_eq, nofun⟩)
    · exact agree_runCommand c h.idle h.idle_right h.host_eq
  · have hignored := Bool.eq_false_of_not_eq_true hturn
    rw [hostTurn_of_not_busy caps h.idle hignored, hostTurn_of_not_busy caps h.idle_right hignored]
    exact h.agree_same

theorem Alike.host_eq (h : Alike s t) : t.host = s.host := h.elim (fun hr => hr.host_eq) Stopped.host_eq

theorem Alike.setHost (h : Alike s t) (turns : List HostTurn) : Alike (s.setHost turns) (t.setHost turns) := by
  obtain ⟨⟨⟨hbytes, hend, -⟩, hcmd, hstatus, herr, hclosed⟩, hb, hphase, hipos, hobits, hlive⟩ |
    ⟨hidle, hstatus, herr, hcmd, -, hobits⟩ := h
  · exact .inl ⟨⟨⟨hbytes, hend, rfl⟩, hcmd, hstatus, herr, hclosed⟩, hb, hphase, hipos, hobits, hlive⟩
  · exact .inr ⟨hidle, hstatus, herr, hcmd, rfl, hobits⟩

theorem agree_stepWith (caps : Config.Caps) (hs : Invariant s) (ht : Invariant t) (h : Alike s t) :
    Agree (stepWith caps s) (stepWith caps t) := by
  cases hhost : s.host with
  | nil =>
    rw [stepWith_of_host_nil caps hhost, stepWith_of_host_nil caps (h.host_eq.trans hhost)]
    obtain hrun | hstop := h
    · exact agree_engineStep hs ht hrun caps
    · rw [engineStep_of_not_busy caps hstop.idle, engineStep_of_not_busy caps hstop.idle_right]
      exact hstop.agree_same
  | cons turn rest =>
    rw [stepWith_of_host_cons caps hhost, stepWith_of_host_cons caps (h.host_eq.trans hhost)]
    obtain hrun | hstop := h.setHost rest
    · exact hrun.agree_hostTurn caps turn (invariant_setHost rest hs) (invariant_setHost rest ht)
    · exact hstop.agree_hostTurn caps turn

/-! ## Any number of steps -/

/-- States that are alike show the host the same. -/
theorem Alike.result_eq (h : Alike s t) : t.result = s.result := by
  obtain hrun | hstop := h
  · rw [State.result, State.result, hrun.busy, hrun.busy_right]
  · cases hst : s.status with
    | busy => exact absurd hst hstop.idle
    | idle => rw [State.result, State.result, hstop.status_eq, hst]
    | error => rw [State.result, State.result, hstop.status_eq, hst, hstop.err_eq]
    | done =>
      rw [State.result, State.result, hstop.status_eq, hst, hstop.err_eq, State.outBytes, State.outBytes,
        hstop.obits_eq hst]

theorem Alike.shown_eq (h : Alike s t) :
    s.status = t.status ∧ s.err = t.err ∧ s.cmd = t.cmd ∧ s.result = t.result := by
  refine ⟨?_, ?_, ?_, h.result_eq.symm⟩
  · exact h.elim (fun hr => hr.status_eq.symm) fun hs => hs.status_eq.symm
  · exact h.elim (fun hr => hr.err_eq.symm) fun hs => hs.err_eq.symm
  · exact h.elim (fun hr => hr.cmd_eq.symm) fun hs => hs.cmd_eq.symm

theorem agree_runWith (caps : Config.Caps) (k : Nat) (hs : Invariant s) (ht : Invariant t) (h : Alike s t) :
    Agree (runWith caps k s) (runWith caps k t) := by
  induction k generalizing s t with
  | zero => exact agree_next h
  | succ k ih =>
    obtain ⟨s', t', hstep, hstep', h'⟩ := agree_stepWith caps hs ht h
    rw [runWith, runWith, hstep, hstep', andThen_next, andThen_next]
    exact ih (invariant_of_stepWith caps hs _ hstep) (invariant_of_stepWith caps ht _ hstep') h'

/-- From a START on, whatever the host's later turns are. -/
theorem agree_runWith_of_start (caps : Config.Caps) {c : Byte} {rest : List HostTurn} (k : Nat) (hs : Invariant s)
    (ht : Invariant t) (hidle : s.status ≠ .busy) (hidle' : t.status ≠ .busy) (hhost : s.host = .start c :: rest)
    (hhost' : t.host = .start c :: rest) : Agree (runWith caps (k + 1) s) (runWith caps (k + 1) t) := by
  have hstep := stepWith_of_host_cons caps hhost
  have hstep' := stepWith_of_host_cons caps hhost'
  obtain ⟨s', t', hs', ht', h⟩ := agree_runCommand c (s := s.setHost rest) (t := t.setHost rest) hidle hidle' rfl
  have hstep := hstep.trans hs'
  have hstep' := hstep'.trans ht'
  rw [runWith, runWith, hstep, hstep', andThen_next, andThen_next]
  exact agree_runWith caps k (invariant_of_stepWith caps hs _ hstep) (invariant_of_stepWith caps ht _ hstep') h

end

end Sys2Proof.Machine

end

section
/-! One command on one input has one result in every schedule (44_control.md R232). The four operations' runs within their
capacities have been followed to their ends in the sections above; here are the runs that a capacity ends, the reserved
commands, and `CMD`. -/

namespace Sys2Proof.Machine

section
variable {caps : Config.Caps} {c : Byte} {input : List Byte} {s t : State}

/-! ## Turns left over (R224, R228; log 3) -/

theorem acts_of_commands {turn : HostTurn} (h : turn.commands = true) : turn.acts = true := by
  obtain rfl | ⟨c, rfl⟩ := commands_iff.1 h
  · rfl
  · rfl

/-- Turns of which those that do something are no commands hold no command. -/
theorem not_commands_of_filter {turns : List HostTurn}
    (h : ∀ turn ∈ turns.filter HostTurn.acts, turn.commands = false) : ∀ turn ∈ turns, turn.commands = false :=
  fun turn hturn => Bool.eq_false_of_not_eq_true fun hcommand =>
    absurd ((h turn (List.mem_filter.2 ⟨hturn, acts_of_commands hcommand⟩)).symm.trans hcommand) Bool.false_ne_true

/-- The turns that give a run its input are no commands. -/
theorem not_commands_of_input {turns : List HostTurn}
    (h : turns.filter HostTurn.acts = input.map .supply ++ [.endInput]) : ∀ turn ∈ turns, turn.commands = false := by
  refine not_commands_of_filter fun turn hturn => ?_
  rw [h, List.mem_append, List.mem_map, List.mem_singleton] at hturn
  obtain ⟨b, -, rfl⟩ | rfl := hturn
  · rfl
  · rfl

theorem not_commands_of_feeding (hf : Feeding input s) : ∀ turn ∈ s.host, turn.commands = false := by
  cases hf with
  | marked _ _ hturns => exact not_commands_of_filter fun turn hturn => absurd (hturns ▸ hturn) List.not_mem_nil
  | coming rest _ _ hturns => exact not_commands_of_input hturns

/-- Once no engine runs, such turns change nothing. -/
theorem reaches_of_not_busy (hs : s.status ≠ .busy) (hturns : ∀ turn ∈ s.host, turn.commands = false) :
    Reaches caps s (s.setHost []) := by
  generalize hhost : s.host = turns at hturns
  induction turns generalizing s with
  | nil =>
    rw [State.setHost, ← hhost]
    exact reaches_refl caps s
  | cons turn rest ih =>
    have hstep := stepWith_of_not_busy caps hs hhost (hturns turn List.mem_cons_self)
    exact reaches_of_stepWith hstep (ih (s := s.setHost rest) hs rfl fun u hu => hturns u (List.mem_cons_of_mem _ hu))

/-- The turns before START change nothing either. -/
theorem ends_of_start {P : State → Prop} (hs : s.status ≠ .busy) (hsched : IsSchedule c input s.host)
    (hstart : ∀ turns, turns.filter HostTurn.acts = input.map .supply ++ [.endInput] →
      ∃ t, runCommand c (s.setHost turns) = .next t ∧ Ends caps P t) : Ends caps P s := by
  generalize hhost : s.host = turns at hsched
  induction turns generalizing s with
  | nil => exact absurd hsched (List.cons_ne_nil _ _).symm
  | cons turn rest ih =>
    by_cases hacts : turn.acts = true
    · rw [IsSchedule, List.filter_cons_of_pos hacts] at hsched
      obtain ⟨rfl, hrest⟩ := List.cons.inj hsched
      obtain ⟨t, ht, hends⟩ := hstart rest hrest
      exact ends_of_stepWith ((stepWith_of_host_cons caps hhost).trans ht) hends
    · rw [IsSchedule, List.filter_cons_of_neg hacts] at hsched
      have hignored : turn.commands = false := Bool.eq_false_of_not_eq_true fun h => hacts (acts_of_commands h)
      exact ends_of_stepWith (stepWith_of_not_busy caps hs hhost hignored)
        (ih (s := s.setHost rest) hs hstart rfl hsched)

/-! ## `CMD` (R221) -/

/-- While no command comes, `CMD` stays. -/
theorem cmd_of_stepWith (h : Invariant s) (hturns : ∀ turn ∈ s.host, turn.commands = false) :
    Answers (fun t => t.cmd = s.cmd ∧ ∀ turn ∈ t.host, turn.commands = false) (stepWith caps s) := by
  have hengine {u : State} (hu : Invariant u) (hhost : ∀ turn ∈ u.host, turn.commands = false) :
      Answers (fun t => t.cmd = u.cmd ∧ ∀ turn ∈ t.host, turn.commands = false) (engineStep caps u) := by
    by_cases hb : u.status = .busy
    · intro t ht
      obtain ⟨-, hcmd, hkept, -⟩ := stepOk_engineStep hu hb caps t ht
      exact ⟨hcmd, hkept ▸ hhost⟩
    · rw [engineStep_of_not_busy caps hb]
      exact answers_next ⟨rfl, hhost⟩
  cases hhost : s.host with
  | nil =>
    rw [stepWith_of_host_nil caps hhost]
    exact hengine h hturns
  | cons turn rest =>
    rw [hhost] at hturns
    have hrest : ∀ turn ∈ rest, turn.commands = false := fun u hu => hturns u (List.mem_cons_of_mem _ hu)
    have hturn := hturns turn List.mem_cons_self
    rw [stepWith_of_host_cons caps hhost]
    cases turn with
    | reset => cases hturn
    | start c => cases hturn
    | supply b =>
      rw [hostTurn, supply]
      split
      · exact answers_next ⟨rfl, hrest⟩
      · exact answers_next ⟨rfl, hrest⟩
    | endInput =>
      rw [hostTurn, markEnd]
      split
      · exact answers_next ⟨rfl, hrest⟩
      · exact answers_next ⟨rfl, hrest⟩
    | read r => exact answers_next ⟨rfl, hrest⟩
    | idle => exact hengine (invariant_setHost rest h) hrest

/-- Where one run stands: its START is to come, or has been taken, and `CMD` is its command. -/
inductive RunsCommand (c : Byte) (input : List Byte) (s : State) : Prop
  | before (idle : s.status ≠ .busy) (sched : IsSchedule c input s.host)
  | after (cmd_eq : s.cmd = c) (turns : ∀ turn ∈ s.host, turn.commands = false)

theorem runsCommand_of_stepWith (h : Invariant s) (hr : RunsCommand c input s) :
    Answers (RunsCommand c input) (stepWith caps s) := by
  cases hr with
  | after hcmd hturns =>
    intro t ht
    obtain ⟨hcmd', hturns'⟩ := cmd_of_stepWith h hturns t ht
    exact .after (hcmd'.trans hcmd) hturns'
  | before hs hsched =>
    cases hhost : s.host with
    | nil => exact absurd (hhost ▸ hsched) (List.cons_ne_nil _ _).symm
    | cons turn rest =>
      rw [hhost] at hsched
      by_cases hacts : turn.acts = true
      · rw [IsSchedule, List.filter_cons_of_pos hacts] at hsched
        obtain ⟨rfl, hrest⟩ := List.cons.inj hsched
        rw [stepWith_of_host_cons caps hhost]
        intro t ht
        obtain ⟨-, hcmd, hkept⟩ := startOk_runCommand c (s := s.setHost rest) (invariant_setHost rest h) hs t ht
        exact .after hcmd (hkept ▸ not_commands_of_input hrest)
      · rw [IsSchedule, List.filter_cons_of_neg hacts] at hsched
        have hignored : turn.commands = false := Bool.eq_false_of_not_eq_true fun h => hacts (acts_of_commands h)
        rw [stepWith_of_not_busy caps hs hhost hignored]
        exact answers_next (.before hs hsched)

theorem runsCommand_of_runWith {k : Nat} (h : Invariant s) (hr : RunsCommand c input s)
    (hrun : runWith caps k s = .next t) : RunsCommand c input t := by
  induction k generalizing s with
  | zero => exact next_inj.1 hrun ▸ hr
  | succ k ih =>
    obtain ⟨u, hstep, hrest⟩ := andThen_eq_next.1 hrun
    exact ih (invariant_of_stepWith caps h u hstep) (runsCommand_of_stepWith h hr u hstep) hrest

/-- At the end of a run `CMD` is its command. -/
theorem cmd_of_reaches (h : Invariant s) (hs : s.status ≠ .busy) (hsched : IsSchedule c input s.host)
    (hreach : Reaches caps s t) (hhost : t.host = []) : t.cmd = c := by
  obtain ⟨k, hk⟩ := hreach
  cases runsCommand_of_runWith h (.before hs hsched) hk with
  | before _ hsched' => exact absurd (hhost ▸ hsched') (List.cons_ne_nil _ _).symm
  | after hcmd _ => exact hcmd

/-! ## A run that a capacity ends (R226; 60_exceptions.md R245) -/

/-- The run has ended with `CapacityExceeded`. -/
def Overflowed (t : State) : Prop := t.status = .error ∧ t.err = .capacity

/-- What an engine shows of the invariant `I` of loading more than its buffer holds: the host's turns keep it, and a step
keeps it, leaving less to load once the input has ended, or finds the buffer full. -/
structure OverflowRule (caps : Config.Caps) (input : List Byte) (I : State → Prop) (left : State → Nat) : Prop where
  setHost : ∀ s turns, I s → I (s.setHost turns)
  addInput : ∀ s b, I s → I (s.addInput b)
  endInput : ∀ s, I s → I s.endInput
  busy : ∀ s, I s → s.status = .busy
  step : ∀ s, I s → (s.inEnd = true → s.inBytes = input) →
    (∃ t, engineStep caps s = .next t ∧ I t ∧ SameFeed s t ∧ (s.inEnd = true → left t < left s)) ∨
      ∃ t, engineStep caps s = .next t ∧ Overflowed t ∧ t.host = s.host

section
variable {I : State → Prop} {left : State → Nat}

/-- One step goes on loading, or the run is over and only drops the turns left. -/
theorem OverflowRule.engineStep_cases (R : OverflowRule caps input I left) (hI : I s) (hf : Feeding input s) :
    (∃ t, engineStep caps s = .next t ∧ I t ∧ Feeding input t ∧ t.host = s.host ∧
      (s.inEnd = true → left t < left s)) ∨
    ∃ t, engineStep caps s = .next t ∧ Ends caps Overflowed t := by
  have hall : s.inEnd = true → s.inBytes = input := by
    cases hf with
    | coming rest hopen _ _ => exact fun hend => absurd (hopen.symm.trans hend) Bool.false_ne_true
    | marked _ hinput _ => exact fun _ => hinput
  obtain ⟨t, hstep, hIt, hsame, hleft⟩ | ⟨t, hstep, hover, hhost⟩ := R.step s hI hall
  · exact .inl ⟨t, hstep, hIt, feeding_of_sameFeed hsame hf, hsame.host_eq, hleft⟩
  · have hidle : t.status ≠ .busy := by rw [hover.1]; decide
    exact .inr ⟨t, hstep, t.setHost [], reaches_of_not_busy hidle (hhost ▸ not_commands_of_feeding hf), rfl, hover⟩

/-- With no turn of the host left the engine loads until the buffer is full. -/
theorem OverflowRule.ends_of_host_nil (R : OverflowRule caps input I left) {s : State} (hhost : s.host = []) (hI : I s)
    (hf : Feeding input s) : Ends caps Overflowed s := by
  have hend : s.inEnd = true := by
    cases hf with
    | coming rest _ _ hturns => simp [hhost] at hturns
    | marked hend _ _ => exact hend
  have hstep := stepWith_of_host_nil caps hhost
  obtain ⟨t, ht, hIt, hft, hkept, hleft⟩ | ⟨t, ht, hends⟩ := R.engineStep_cases hI hf
  · have _hdec : left t < left s := hleft hend
    exact ends_of_stepWith (hstep.trans ht) (R.ends_of_host_nil (hkept.trans hhost) hIt hft)
  · exact ends_of_stepWith (hstep.trans ht) hends
termination_by left s

/-- Whatever turns are left, the buffer comes to be full. -/
theorem OverflowRule.ends (R : OverflowRule caps input I left) (hI : I s) (hf : Feeding input s) :
    Ends caps Overflowed s := by
  generalize hhost : s.host = turns
  induction turns generalizing s with
  | nil => exact R.ends_of_host_nil hhost hI hf
  | cons turn rest ih =>
    have hstep := stepWith_of_host_cons caps hhost
    have hI' := R.setHost s rest hI
    have hb := R.busy _ hI'
    by_cases hacts : turn.acts = false
    · have hf' := feeding_setHost hhost hacts hf
      obtain rfl | ⟨r, rfl⟩ := idle_or_read_of_not_acts hacts
      · obtain ⟨t, ht, hIt, hft, hkept, -⟩ | ⟨t, ht, hends⟩ := R.engineStep_cases hI' hf'
        · exact ends_of_stepWith (hstep.trans ht) (ih hIt hft hkept)
        · exact ends_of_stepWith (hstep.trans ht) hends
      · exact ends_of_stepWith hstep (ih hI' hf' rfl)
    · have hfilter : s.host.filter HostTurn.acts = turn :: rest.filter HostTurn.acts := by
        rw [hhost, List.filter_cons_of_pos (Bool.eq_true_of_not_eq_false hacts)]
      cases hf with
      | marked _ _ hturns => exact absurd (hfilter.symm.trans hturns) (List.cons_ne_nil _ _)
      | coming more hopen hinput hturns =>
        rw [hfilter] at hturns
        cases more with
        | nil =>
          obtain ⟨rfl, hnone⟩ := List.cons.inj hturns
          have ht : stepWith caps s = .next (s.setHost rest).endInput := hstep.trans (congrArg _ (if_pos hb))
          refine ends_of_stepWith ht (ih (R.endInput _ hI') (.marked rfl ?_ hnone) rfl)
          rw [← hinput, List.append_nil]
          rfl
        | cons b more =>
          obtain ⟨rfl, hmore⟩ := List.cons.inj hturns
          have ht : stepWith caps s = .next ((s.setHost rest).addInput b) :=
            hstep.trans (congrArg _ (if_pos ⟨hb, hopen⟩))
          refine ends_of_stepWith ht (ih (R.addInput _ b hI') (.coming more hopen ?_ hmore) rfl)
          rw [← hinput]
          exact List.append_assoc _ [b] more

/-- A run in any schedule. -/
theorem OverflowRule.ends_of_isSchedule (R : OverflowRule caps input I left) (hs : s.status ≠ .busy)
    (hsched : IsSchedule c input s.host)
    (hstart : ∀ turns, ∃ t, runCommand c (s.setHost turns) = .next t ∧ Started I turns t) : Ends caps Overflowed s := by
  refine ends_of_start hs hsched fun turns hturns => ?_
  obtain ⟨t, ht, hI, hbytes, hopen, hhost⟩ := hstart turns
  exact ⟨t, ht, R.ends hI (.coming input hopen (by rw [hbytes, List.nil_append]) (by rw [hhost, hturns]))⟩

end

/-- A message longer than the capacity. -/
theorem dcomp_overflowRule {cap : Nat} (hcap : caps.msgCap = some cap) (hlong : cap < input.length) :
    OverflowRule caps input (fun s => ∃ bs, LoadPhase bs s ∧ bs.length ≤ cap)
      (fun s => 8 * s.inBytes.length - s.ipos) where
  setHost s turns := fun ⟨bs, h, hle⟩ => ⟨bs, h.setHost turns, hle⟩
  addInput s b := fun ⟨bs, h, hle⟩ => ⟨bs, h.addInput b, hle⟩
  endInput s := fun ⟨bs, h, hle⟩ => ⟨bs, h.endInput, hle⟩
  busy s := fun ⟨_, h, _⟩ => h.busy
  step := by
    rintro s ⟨bs, h, hle⟩ hall
    rw [engineStep_dLoad caps h.busy h.phase]
    rcases h.read_prefix.length_le.lt_or_eq with hk | heq
    · by_cases hfull : bs.length = cap
      · have hover : atCap caps.msgCap s.length = true := by
          rw [hcap, atCap_some, h.stored.length_eq, hfull, decide_eq_true le_rfl]
        refine .inr ⟨(s.advance 8).abort .capacity, ?_, ⟨rfl, rfl⟩, rfl⟩
        rw [dLoad_byte caps hk h.ipos_eq, if_pos hover, raise_eq]
      · have hroom : ¬ atCap caps.msgCap s.length = true := by
          rw [hcap, atCap_some, h.stored.length_eq, decide_eq_true_eq]
          omega
        obtain ⟨t, hstep, ht, hsame⟩ := h.exists_next_of_byte caps hk hroom
        have hipos := ht.ipos_eq
        rw [List.length_append, List.length_singleton] at hipos
        refine .inl ⟨t, hstep, ⟨_, ht, by rw [List.length_append, List.length_singleton]; omega⟩, hsame, fun _ => ?_⟩
        rw [hsame.inBytes_eq, hipos, h.ipos_eq]
        omega
    · obtain rfl := h.read_prefix.eq_of_length heq
      cases hend : s.inEnd with
      | true =>
        rw [hall hend] at hle
        omega
      | false => exact .inl ⟨s, dLoad_wait caps hend h.ipos_eq, ⟨_, h, hle⟩, SameFeed.refl s, nofun⟩

/-- A stream longer than the capacity. -/
theorem dexp_overflowRule {cap : Nat} (hcap : caps.inCap = some cap) (hlong : cap < input.length) :
    OverflowRule caps input (fun s => ∃ bs, ELoadPhase bs s ∧ bs.length ≤ cap)
      (fun s => 8 * s.inBytes.length - s.ipos) where
  setHost s turns := fun ⟨bs, h, hle⟩ => ⟨bs, h.setHost turns, hle⟩
  addInput s b := fun ⟨bs, h, hle⟩ => ⟨bs, h.addInput b, hle⟩
  endInput s := fun ⟨bs, h, hle⟩ => ⟨bs, h.endInput, hle⟩
  busy s := fun ⟨_, h, _⟩ => h.busy
  step := by
    rintro s ⟨bs, h, hle⟩ hall
    rw [engineStep_eLoad caps h.busy h.phase]
    rcases h.read_prefix.length_le.lt_or_eq with hk | heq
    · rw [eLoad_byte caps hk h.ipos_eq, hcap, atCap_some, h.stored.length_eq]
      by_cases hfull : cap ≤ bs.length
      · rw [if_pos (decide_eq_true hfull), raise_eq]
        exact .inr ⟨_, rfl, ⟨rfl, rfl⟩, rfl⟩
      · rw [if_neg (by rwa [decide_eq_true_eq])]
        refine .inl ⟨_, rfl, ⟨_, h.store hk, ?_⟩, ⟨rfl, rfl, rfl⟩, fun _ => ?_⟩
        · rw [List.length_append, List.length_singleton]
          omega
        · have hipos := h.ipos_eq
          rw [eStore_inBytes, eStore_ipos, advance_inBytes, advance_ipos]
          omega
    · obtain rfl := h.read_prefix.eq_of_length heq
      cases hend : s.inEnd with
      | true =>
        rw [hall hend] at hle
        omega
      | false => exact .inl ⟨s, eLoad_wait caps hend h.ipos_eq, ⟨_, h, hle⟩, SameFeed.refl s, nofun⟩

/-! ## One result (R230, R232) -/

/-- A run's result, at its end. -/
abbrev EndsWith (caps : Config.Caps) (r : Status × ErrCode × Option (List Byte)) (s : State) : Prop :=
  Ends caps (fun t => t.result = some r) s

theorem Ends.imp {P Q : State → Prop} (h : Ends caps P s) (hPQ : ∀ t, P t → Q t) : Ends caps Q s := by
  obtain ⟨t, hreach, hhost, hP⟩ := h
  exact ⟨t, hreach, hhost, hPQ t hP⟩

theorem result_of_done (hst : s.status = .done) (herr : s.err = .none) :
    s.result = some (.done, .none, some (packBytes s.obits)) := by
  rw [State.result, hst, herr]
  rfl

theorem result_of_error {e : ErrCode} (hst : s.status = .error) (herr : s.err = e) :
    s.result = some (.error, e, none) := by
  rw [State.result, hst, herr]

/-- A result shows `STATUS` and `ERR`, and that no engine runs. -/
theorem status_of_result {r : Status × ErrCode × Option (List Byte)} (h : s.result = some r) :
    s.status ≠ .busy ∧ s.status = r.1 ∧ s.err = r.2.1 := by
  rw [State.result] at h
  cases hst : s.status with
  | idle => rw [hst] at h; cases h
  | busy => rw [hst] at h; cases h
  | done => rw [hst] at h; cases h; exact ⟨nofun, rfl, rfl⟩
  | error => rw [hst] at h; cases h; exact ⟨nofun, rfl, rfl⟩

/-- `r` is the result of every run of `c` on `input`. -/
def OneResult (caps : Config.Caps) (c : Byte) (input : List Byte) (r : Status × ErrCode × Option (List Byte)) : Prop :=
  ∀ s, Invariant s → s.status ≠ .busy → IsSchedule c input s.host → EndsWith caps r s

/-- A capacity that does not hold `n` bytes is a number below `n`. -/
theorem exists_cap_lt {cap : Option Nat} {n : Nat} (h : ¬ ∀ k, cap = some k → n ≤ k) : ∃ k, cap = some k ∧ k < n := by
  obtain ⟨k, hk⟩ := not_forall.1 h
  obtain ⟨hcap, hlt⟩ := Classical.not_imp.1 hk
  exact ⟨k, hcap, Nat.not_le.1 hlt⟩

/-- R173, or R164's error. -/
theorem exists_dcomp_result (caps : Config.Caps) (m : List Byte) : ∃ r, OneResult caps 0x00#8 m r := by
  by_cases hfits : ∀ k, caps.msgCap = some k → m.length ≤ k
  · refine ⟨(.done, .none, some (packBytes (padToByte (dictStream m)))), fun s h hs hsched => ?_⟩
    obtain ⟨t, hreach, hhost, hdone, herr, hobits, -⟩ := dcompWritesTheDictionaryStream caps s m h hs hsched hfits
    exact ⟨t, hreach, hhost, hobits ▸ result_of_done hdone herr⟩
  · obtain ⟨cap, hcap, hlong⟩ := exists_cap_lt hfits
    refine ⟨(.error, .capacity, none), fun s h hs hsched => ?_⟩
    refine ((dcomp_overflowRule hcap hlong).ends_of_isSchedule hs hsched fun turns => ?_).imp
      fun t ht => result_of_error ht.1 ht.2
    obtain ⟨t, ht, hI, hbytes, hopen, hhost⟩ := dcomp_started m h.tables hs turns
    obtain ⟨bs, hload⟩ := hI.exists_loadPhase_of_open hopen
    have hnone : bs.length ≤ 0 := by simpa [hbytes] using hload.read_prefix.length_le
    exact ⟨t, ht, ⟨bs, hload, hnone.trans (Nat.zero_le _)⟩, hbytes, hopen, hhost⟩

/-- R211, or R192's error. -/
theorem exists_dexp_result (caps : Config.Caps) (stream : List Byte) : ∃ r, OneResult caps 0x01#8 stream r := by
  by_cases hfits : ∀ k, caps.inCap = some k → stream.length ≤ k
  · have hends := fun s h hs hsched => dexpComputesTheDecoderFunction caps s stream h hs hsched hfits
    cases hr : expandDict stream with
    | ok out =>
      refine ⟨(.done, .none, some out), fun s h hs hsched => ?_⟩
      obtain ⟨t, hreach, hhost, -, hresult⟩ := hends s h hs hsched
      exact ⟨t, hreach, hhost, by rwa [hr] at hresult⟩
    | error e =>
      refine ⟨(.error, e, none), fun s h hs hsched => ?_⟩
      obtain ⟨t, hreach, hhost, -, hresult⟩ := hends s h hs hsched
      exact ⟨t, hreach, hhost, by rwa [hr] at hresult⟩
  · obtain ⟨cap, hcap, hlong⟩ := exists_cap_lt hfits
    refine ⟨(.error, .capacity, none), fun s h hs hsched => ?_⟩
    refine ((dexp_overflowRule hcap hlong).ends_of_isSchedule hs hsched fun turns => ?_).imp
      fun t ht => result_of_error ht.1 ht.2
    obtain ⟨t, ht, hI, hbytes, hopen, hhost⟩ := dexp_started stream h.tables hs turns
    obtain ⟨bs, hload⟩ := hI.exists_eLoadPhase_of_open hopen
    have hnone : bs.length ≤ 0 := by simpa [hbytes] using hload.read_prefix.length_le
    exact ⟨t, ht, ⟨bs, hload, hnone.trans (Nat.zero_le _)⟩, hbytes, hopen, hhost⟩

/-- R130. -/
theorem exists_rcomp_result (caps : Config.Caps) (input : List Byte) : ∃ r, OneResult caps 0x02#8 input r := by
  refine ⟨(.done, .none, some (packBytes ((Scan.start.takeAll (bytesBits input)).counts.flatMap (bitsOf 8)))),
    fun s _ hs hsched => ?_⟩
  refine ((rcomp_runRule caps input).ends_of_isSchedule hs hsched (rcomp_started input hs)).imp ?_
  rintro t ⟨hI, hidle⟩
  cases hI with
  | scan h => exact absurd h.busy hidle
  | flush h => exact absurd h.busy hidle
  | done h => exact h.obits_eq ▸ result_of_done h.done h.err

/-- R149. -/
theorem exists_rexp_result (caps : Config.Caps) (input : List Byte) : ∃ r, OneResult caps 0x03#8 input r := by
  refine ⟨(.done, .none, some (packBytes (padToByte (rexpBits false input)))), fun s _ hs hsched => ?_⟩
  obtain ⟨t, hreach, hhost, hdone, herr, hobits, -⟩ := rexpComputesTheDecoderFunction caps s input hs hsched
  exact ⟨t, hreach, hhost, hobits ▸ result_of_done hdone herr⟩

/-- R223. -/
theorem exists_reserved_result (caps : Config.Caps) (input : List Byte) (hnone : decodeCommand c = none) :
    ∃ r, OneResult caps c input r := by
  refine ⟨(.error, .usage, none), fun s _ hs hsched => ends_of_start hs hsched fun turns hturns => ?_⟩
  have hstep := (runCommand_of_none hnone (s.setHost turns)).trans (usageError_accepted (s := s.setHost turns) hs)
  exact ⟨_, hstep, _, reaches_of_not_busy nofun (not_commands_of_input hturns), rfl, result_of_error rfl rfl⟩

theorem exists_oneResult (caps : Config.Caps) (c : Byte) (input : List Byte) : ∃ r, OneResult caps c input r := by
  have hcommand := command_runCommand c
  generalize runCommand c = run at hcommand
  cases hcommand with
  | dcomp hc => exact hc ▸ exists_dcomp_result caps input
  | dexp hc => exact hc ▸ exists_dexp_result caps input
  | rcomp hc => exact hc ▸ exists_rcomp_result caps input
  | rexp hc => exact hc ▸ exists_rexp_result caps input
  | reserved hnone => exact exists_reserved_result caps input hnone

end

end Sys2Proof.Machine

open Sys2Proof Sys2Proof.Machine

/-- Settles O54: in schedules of their own both runs end with the command's one result; in one list of turns they stay
alike. -/
theorem resultsDependOnCommandAndInputOnly : Obligations.ResultsDependOnCommandAndInputOnly := by
  refine ⟨?schedules, ?turns⟩
  case schedules =>
    intro caps s₁ s₂ c input h₁ h₂ hs₁ hs₂ hsched₁ hsched₂
    obtain ⟨r, hr⟩ := exists_oneResult caps c input
    obtain ⟨t₁, hreach₁, hhost₁, hresult₁⟩ := hr s₁ h₁ hs₁ hsched₁
    obtain ⟨t₂, hreach₂, hhost₂, hresult₂⟩ := hr s₂ h₂ hs₂ hsched₂
    obtain ⟨hidle, hst₁, herr₁⟩ := status_of_result hresult₁
    obtain ⟨-, hst₂, herr₂⟩ := status_of_result hresult₂
    have hcmd₁ := cmd_of_reaches h₁ hs₁ hsched₁ hreach₁ hhost₁
    have hcmd₂ := cmd_of_reaches h₂ hs₂ hsched₂ hreach₂ hhost₂
    exact ⟨t₁, t₂, hreach₁, hreach₂, hhost₁, hhost₂, hidle, hst₁.trans hst₂.symm, herr₁.trans herr₂.symm,
      hcmd₁.trans hcmd₂.symm, hresult₁.trans hresult₂.symm⟩
  case turns =>
    intro caps s₁ s₂ c rest k h₁ h₂ hs₁ hs₂ hhost₁ hhost₂
    obtain ⟨t₁, t₂, hrun₁, hrun₂, halike⟩ := agree_runWith_of_start caps k h₁ h₂ hs₁ hs₂ hhost₁ hhost₂
    exact ⟨t₁, t₂, hrun₁, hrun₂, halike.shown_eq⟩

end

section
/-! Which errors a step can take (60_exceptions.md R246, R250). Each phase has its errors; one lemma per row of the phase
tables says that the row takes no other, and START adds the usage error. -/

namespace Sys2Proof.Machine

/-! ## The errors of a phase (R242 to R246) -/

/-- The errors that the row of a phase can take. The end of the input inside a field is none of `X_READ`'s: the counts are
whole bytes (41_rle_decoder.md R148). -/
def Phase.errors : Phase → List ErrCode
  | .dLoad | .eLoad => [.capacity]
  | .eHdr | .eDict => [.malformed]
  | .eCalc => [.format, .malformed]
  | .eCode => [.format]
  | .halt | .rScan | .rFlush | .xRead | .dCalc | .dHdr | .dDict | .dCode | .dClose | .eEmit => []

/-- R246's rows for the four operations. -/
theorem Phase.errors_of_engine {p : Phase} {c : Byte} {e : ErrCode} (hengine : p.engine = some c) (he : e ∈ p.errors) :
    (c = 0x00#8 ∧ e = .capacity) ∨ (c = 0x01#8 ∧ (e = .malformed ∨ e = .format ∨ e = .capacity)) := by
  cases p with
  | dLoad => exact .inl ⟨(Option.some.inj hengine).symm, List.mem_singleton.1 he⟩
  | eLoad => exact .inr ⟨(Option.some.inj hengine).symm, .inr (.inr (List.mem_singleton.1 he))⟩
  | eHdr | eDict => exact .inr ⟨(Option.some.inj hengine).symm, .inl (List.mem_singleton.1 he)⟩
  | eCalc =>
    have he : e = .format ∨ e = .malformed := List.mem_pair.1 he
    exact .inr ⟨(Option.some.inj hengine).symm, he.elim (fun hf => .inr (.inl hf)) .inl⟩
  | eCode => exact .inr ⟨(Option.some.inj hengine).symm, .inr (.inl (List.mem_singleton.1 he))⟩
  | halt | rScan | rFlush | xRead | dCalc | dHdr | dDict | dCode | dClose | eEmit => cases he

/-! ## The ways a row ends -/

/-- If `t` is in ERROR, its code is one of `es`. -/
def ErrorIn (es : List ErrCode) (t : State) : Prop := t.status = .error → t.err ∈ es

/-- `o` takes no error but those of `es`. -/
abbrev RaisesOnly (es : List ErrCode) (o : Res) : Prop := Answers (ErrorIn es) o

section
variable {s t : State} {es : List ErrCode}

theorem raisesOnly_busy (hb : t.status = .busy) : RaisesOnly es (.next t) :=
  answers_next fun herr => absurd (hb.symm.trans herr) (by decide)

theorem raisesOnly_raise {e : ErrCode} (he : e ∈ es) (t : State) : RaisesOnly es (raise e t) :=
  answers_next fun _ => he

theorem raisesOnly_complete (t : State) : RaisesOnly es (complete t) :=
  answers_next nofun

/-- Where a row reads the input: there is more of it, it has ended, or the engine waits (44_control.md R224). -/
theorem StreamsOk.input_cases (h : StreamsOk s) :
    s.ipos < 8 * s.inBytes.length ∨ (s.inEnd = true ∧ s.ipos = 8 * s.inBytes.length) ∨
      (s.inEnd = false ∧ s.ipos = 8 * s.inBytes.length) := by
  rcases h.ipos_le.lt_or_eq with hlt | heq
  · exact .inl hlt
  · cases hend : s.inEnd with
    | true => exact .inr (.inl ⟨rfl, heq⟩)
    | false => exact .inr (.inr ⟨rfl, heq⟩)

/-! ## The rows that write what the encoders have computed -/

theorem raisesOnly_rFlush : RaisesOnly es (rFlush s) := by
  rw [rFlush]
  split
  · exact answers_outBits_andThen fun _ => raisesOnly_complete _
  · exact raisesOnly_complete s

section
variable (hb : s.status = .busy)
include hb

theorem raisesOnly_dCalc : RaisesOnly es (dCalc s) := raisesOnly_busy hb

theorem raisesOnly_dHdr : RaisesOnly es (dHdr s) :=
  answers_outBits_andThen fun _ => answers_outBits_andThen fun _ => raisesOnly_busy hb

theorem raisesOnly_dDict : RaisesOnly es (dDict s) := by
  rw [dDict]
  split
  · exact answers_withEntry (answers_outBits_andThen fun _ => raisesOnly_busy hb)
  · exact raisesOnly_busy hb

theorem raisesOnly_dCode : RaisesOnly es (dCode s) := by
  rw [dCode]
  split
  · exact answers_outBits_andThen fun _ => raisesOnly_busy hb
  · exact raisesOnly_busy hb

/-! ## The dictionary decoder's parse of its loaded stream (43_dict_decoder.md R194 to R203) -/

theorem raisesOnly_eHdr : RaisesOnly [.malformed] (eHdr s) := by
  rw [eHdr]
  split
  · exact raisesOnly_raise (by decide) s
  · refine answers_runToken fun i r hd => ?_
    obtain ⟨rem, u, rfl⟩ := exists_dictHdr_of_decode hd
    exact raisesOnly_busy hb

theorem raisesOnly_eDict : RaisesOnly [.malformed] (eDict s) := by
  rw [eDict]
  split
  · exact raisesOnly_raise (by decide) s
  · split
    · refine answers_runToken fun i r hd => ?_
      obtain ⟨b, rfl⟩ := exists_dictEnt_of_decode hd
      exact answers_withEntry (raisesOnly_busy hb)
    · exact raisesOnly_busy hb

theorem raisesOnly_eCalc : RaisesOnly [.format, .malformed] (eCalc s) := by
  by_cases hbad : (eWidths s).payload < 0 ∨ (s.unique = 0#9 ∧ (eWidths s).payload ≠ 0)
  · rw [eCalc_format hbad]
    exact raisesOnly_raise (by decide) _
  by_cases hmod : (eWidths s).payload % (eWidths s).cw.toNat = 0
  · rw [eCalc_codes hbad hmod]
    exact raisesOnly_busy hb
  · rw [eCalc_malformed hbad hmod]
    exact raisesOnly_raise (by decide) _

theorem raisesOnly_eCode (hp : s.phase = .eCode) : RaisesOnly [.format] (eCode s) := by
  rw [eCode]
  split
  · refine answers_runToken fun i r hd => ?_
    obtain ⟨c, hc⟩ := exec_eq_codeToken_of_decode s hd
    rw [hc]
    rcases Nat.lt_or_ge c.toNat s.unique.toNat with hvalid | hbeyond
    · rw [codeToken_eCode_of_lt hp hvalid]
      exact raisesOnly_busy hb
    · rw [codeToken_eCode_of_le hp hbeyond]
      exact raisesOnly_raise (by decide) _
  · exact raisesOnly_busy hb

/-- The output pass meets only codes that the validation pass has let through (43_dict_decoder.md R204). -/
theorem raisesOnly_eEmit (hp : s.phase = .eEmit) (hopen : s.closed = false) : RaisesOnly es (eEmit s) := by
  rw [eEmit]
  split
  · refine answers_runToken fun i r hd => ?_
    obtain ⟨c, hc⟩ := exec_eq_codeToken_of_decode s hd
    rw [hc, codeToken_writes (by rw [hp]; decide) hopen]
    exact raisesOnly_busy hb
  · refine answers_runToken fun i r hd => ?_
    obtain ⟨pad, rfl⟩ := exists_dictPad_of_decode hd
    exact raisesOnly_complete s

end

/-! ## The rows that read the input -/

section
variable (h : Invariant s) (hb : s.status = .busy)
include h hb

theorem raisesOnly_rScan (hp : s.phase = .rScan) : RaisesOnly es (rScan s) := by
  obtain ⟨hcount, -⟩ := (phaseOk_rScan hp).1 h.phase_ok
  have hopen := h.control.busy_open hb
  rcases h.streams.input_cases with hlt | ⟨hend, heq⟩ | ⟨hend, heq⟩
  · by_cases hbit : s.inBit s.ipos = s.lastValue
    · rw [rScan_same hopen hcount hlt hbit]
      split
      · exact raisesOnly_busy hb
      · exact raisesOnly_busy hb
    · rw [rScan_change hopen hlt hbit]
      exact raisesOnly_busy hb
  · rw [rScan_end hend heq]
    exact raisesOnly_busy hb
  · rw [rScan_wait hend heq]
    exact raisesOnly_busy hb

theorem raisesOnly_xRead (hp : s.phase = .xRead) : RaisesOnly es (xRead s) := by
  have hwhole := (phaseOk_xRead hp).1 h.phase_ok
  rcases h.streams.input_cases with hlt | ⟨hend, heq⟩ | ⟨hend, heq⟩
  · rw [xRead_byte (k := s.ipos / 8) (by omega) (by omega) (h.control.busy_open hb)]
    exact raisesOnly_busy hb
  · rw [xRead_end hend heq]
    exact raisesOnly_complete s
  · rw [xRead_wait hend heq]
    exact raisesOnly_busy hb

theorem raisesOnly_dLoad (caps : Config.Caps) (hp : s.phase = .dLoad) : RaisesOnly [.capacity] (dLoad caps s) := by
  obtain ⟨hi, -, -⟩ := (phaseOk_dLoad hp).1 h.phase_ok
  rcases h.streams.input_cases with hlt | ⟨hend, heq⟩ | ⟨hend, heq⟩
  · rw [dLoad_byte caps (k := s.length) (by omega) hi]
    split
    · exact raisesOnly_raise (by decide) _
    · rw [dTrack]
      split
      · exact answers_withEntry (raisesOnly_busy hb)
      · exact raisesOnly_busy hb
  · rw [dLoad_end caps hend heq]
    exact raisesOnly_busy hb
  · rw [dLoad_wait caps hend heq]
    exact raisesOnly_busy hb

theorem raisesOnly_eLoad (caps : Config.Caps) (hp : s.phase = .eLoad) : RaisesOnly [.capacity] (eLoad caps s) := by
  obtain ⟨hi, -⟩ := (phaseOk_eLoad hp).1 h.phase_ok
  rcases h.streams.input_cases with hlt | ⟨hend, heq⟩ | ⟨hend, heq⟩
  · rw [eLoad_byte caps (k := s.B) (by omega) hi]
    split
    · exact raisesOnly_raise (by decide) s
    · exact raisesOnly_busy hb
  · rw [eLoad_end caps hend heq]
    exact raisesOnly_busy hb
  · rw [eLoad_wait caps hend heq]
    exact raisesOnly_busy hb

/-! ## The step of a running block -/

/-- Every row of the phase tables (44_control.md R224). -/
theorem raisesOnly_engineStep (caps : Config.Caps) : RaisesOnly s.phase.errors (engineStep caps s) := by
  rw [engineStep, if_neg (not_not.2 hb)]
  cases hp : s.phase with
  | halt => exact raisesOnly_busy hb
  | rScan => exact raisesOnly_rScan h hb hp
  | rFlush => exact raisesOnly_rFlush
  | xRead => exact raisesOnly_xRead h hb hp
  | dLoad => exact raisesOnly_dLoad h hb caps hp
  | dCalc => exact raisesOnly_dCalc hb
  | dHdr => exact raisesOnly_dHdr hb
  | dDict => exact raisesOnly_dDict hb
  | dCode => exact raisesOnly_dCode hb
  | dClose => exact raisesOnly_complete s
  | eLoad => exact raisesOnly_eLoad h hb caps hp
  | eHdr => exact raisesOnly_eHdr hb
  | eDict => exact raisesOnly_eDict hb
  | eCalc => exact raisesOnly_eCalc hb
  | eCode => exact raisesOnly_eCode hb hp
  | eEmit => exact raisesOnly_eEmit hb hp (h.control.busy_open hb)

/-- Of a running block's turns only the engine's can take an error (44_control.md R220, R227, R229). -/
theorem raisesOnly_hostTurn (caps : Config.Caps) (turn : HostTurn) :
    RaisesOnly s.phase.errors (hostTurn caps turn s) := by
  cases turn with
  | reset => exact answers_next nofun
  | start c =>
    rw [hostTurn, runCommand_busy c hb]
    exact raisesOnly_busy hb
  | supply b => exact raisesOnly_busy ((supply_status b s).trans hb)
  | endInput => exact raisesOnly_busy ((markEnd_status s).trans hb)
  | read r => exact raisesOnly_busy hb
  | idle => exact raisesOnly_engineStep h hb caps

theorem raisesOnly_stepWith (caps : Config.Caps) : RaisesOnly s.phase.errors (stepWith caps s) := by
  cases hhost : s.host with
  | nil =>
    rw [stepWith_of_host_nil caps hhost]
    exact raisesOnly_engineStep h hb caps
  | cons turn rest =>
    rw [stepWith_of_host_cons caps hhost]
    exact raisesOnly_hostTurn (invariant_setHost rest h) hb caps turn

end

/-! ## With no engine running -/

/-- R246's row for START: an accepted command starts its engine, a reserved one is the usage error (44_control.md R222,
R223). -/
theorem raisesOnly_runCommand (c : Byte) (hs : s.status ≠ .busy) : RaisesOnly [.usage] (runCommand c s) := by
  have hcommand := command_runCommand c
  generalize runCommand c = run at hcommand
  cases hcommand with
  | dcomp hc =>
    rw [execDcomp, startEngine_accepted hs]
    exact raisesOnly_busy rfl
  | dexp hc =>
    rw [execDexp, startEngine_accepted hs]
    exact raisesOnly_busy rfl
  | rcomp hc =>
    rw [execRcomp, startEngine_accepted hs]
    exact raisesOnly_busy rfl
  | rexp hc =>
    rw [execRexp, startEngine_accepted hs]
    exact raisesOnly_busy rfl
  | reserved hnone =>
    rw [usageError_accepted hs]
    exact answers_next fun _ => List.mem_singleton.2 rfl

/-- With no engine running the block enters ERROR only by a START, as a usage error. -/
theorem usage_of_stepWith (caps : Config.Caps) (hs : s.status ≠ .busy) (hok : s.status ≠ .error)
    (hstep : stepWith caps s = .next t) (herr : t.status = .error) :
    t.err = .usage ∧ ∃ c rest, s.host = .start c :: rest := by
  cases hhost : s.host with
  | nil =>
    rw [stepWith_of_host_nil caps hhost, engineStep_of_not_busy caps hs] at hstep
    cases next_inj.1 hstep
    exact absurd herr hok
  | cons turn rest =>
    cases hturn : turn.commands with
    | false =>
      rw [stepWith_of_not_busy caps hs hhost hturn] at hstep
      cases next_inj.1 hstep
      exact absurd herr hok
    | true =>
      rw [stepWith_of_host_cons caps hhost] at hstep
      rcases commands_iff.1 hturn with rfl | ⟨c, rfl⟩
      · cases next_inj.1 hstep
        cases herr
      · exact ⟨List.mem_singleton.1 (raisesOnly_runCommand (s := s.setHost rest) c hs t hstep herr), c, rest, rfl⟩

/-- With an engine running the error is one of R246's row for the operation in `CMD`. -/
theorem error_of_stepWith_busy (caps : Config.Caps) (h : Invariant s) (hb : s.status = .busy)
    (hstep : stepWith caps s = .next t) (herr : t.status = .error) :
    (s.cmd = 0x00#8 ∧ t.err = .capacity) ∨
      (s.cmd = 0x01#8 ∧ (t.err = .malformed ∨ t.err = .format ∨ t.err = .capacity)) :=
  Phase.errors_of_engine (h.control.busy_engine hb) (raisesOnly_stepWith h hb caps t hstep herr)

end

end Sys2Proof.Machine

open Sys2Proof Sys2Proof.Machine

/-- Settles O28: with no engine running only START raises, and a running engine raises what its phases' rows allow. -/
theorem errorsComeFromTheirOperations : Obligations.ErrorsComeFromTheirOperations := by
  intro caps s t h hstep hok herr
  have hraised := fun hb => error_of_stepWith_busy caps h hb hstep herr
  refine ⟨fun hs => usage_of_stepWith caps hs hok hstep herr, fun hb hc => ?dcomp, fun hb hc => ?dexp,
    fun hb => (hraised hb).imp And.left And.left⟩
  case dcomp =>
    rcases hraised hb with ⟨-, he⟩ | ⟨hc', -⟩
    · exact he
    · exact absurd (hc.symm.trans hc') (by decide)
  case dexp =>
    rcases hraised hb with ⟨hc', -⟩ | ⟨-, he⟩
    · exact absurd (hc.symm.trans hc') (by decide)
    · exact he

/-- Settles O27: the fields of the abort, whose free output is drawn as bytes; an engine in ERROR takes no step. -/
theorem raisePerformsTheAbortSequence : Obligations.RaisePerformsTheAbortSequence := by
  intro e s
  have hwhole : (s.abort e).obits.length % 8 = 0 := by rw [abort_obits, length_bytesBits, Nat.mul_mod_right]
  have hstopped : (s.abort e).status ≠ .busy := nofun
  exact ⟨s.abort e, raise_eq e s, abort_err e s, abort_phase e s, abort_status e s, abort_closed e s, abort_ipos e s,
    abort_inBytes e s, abort_cmd e s, abort_host e s, hwhole, fun caps => engineStep_of_not_busy caps hstopped⟩

end

section
/-! The state after RESET, and what the dictionary engines hold back until the end of the input is marked
(70_reset_and_hazards.md R271, R281). -/

namespace Sys2Proof.Machine

/-! ## After RESET (R271) -/

/-- No turn of the host is to come and no engine runs, so the step is an engine's with nothing to do. -/
theorem stepWith_reset (caps : Config.Caps) : stepWith caps State.reset = .next State.reset :=
  (stepWith_of_host_nil caps rfl).trans (engineStep_of_not_busy caps nofun)

/-! ## Before the end of the input (R281) -/

/-- An engine leaves its reading phase only behind the end mark (20_memory.md R83). -/
theorem ControlOk.afterInput_eq_false {s : State} (h : ControlOk s) (hopen : s.inEnd = false) :
    s.phase.afterInput = false := by
  refine Bool.eq_false_of_not_eq_true fun hlater => ?_
  obtain ⟨hend, -⟩ := inEmpty_iff.1 (h.input_read (.inr hlater))
  exact absurd (hopen.symm.trans hend) Bool.false_ne_true

/-- `D_LOAD` is the phase in which `DCOMP` reads (42_dict_encoder.md R162). -/
theorem phase_of_engine_dcomp_reading {p : Phase} (hengine : p.engine = some 0x00#8) (hreads : p.afterInput = false) :
    p = .dLoad := by
  cases p with
  | dLoad => rfl
  | dCalc | dHdr | dDict | dCode | dClose => cases hreads
  | halt | rScan | rFlush | xRead | eLoad | eHdr | eDict | eCalc | eCode | eEmit => cases hengine

/-- `E_LOAD` is the phase in which `DEXP` reads (43_dict_decoder.md R192). -/
theorem phase_of_engine_dexp_reading {p : Phase} (hengine : p.engine = some 0x01#8) (hreads : p.afterInput = false) :
    p = .eLoad := by
  cases p with
  | eLoad => rfl
  | eHdr | eDict | eCalc | eCode | eEmit => cases hreads
  | halt | rScan | rFlush | xRead | dLoad | dCalc | dHdr | dDict | dCode | dClose => cases hengine

end Sys2Proof.Machine

open Sys2Proof Sys2Proof.Machine

/-- Settles O48: the reset state is what RESET leaves of itself. -/
theorem resetMeetsTheInvariant : Obligations.ResetMeetsTheInvariant :=
  invariant_resetBlock State.reset

/-- Settles O22: the values of `State.reset`, whose `seen` lists no entry, and no engine's turn without an engine. -/
theorem resetLeavesTheSpecifiedValues : Obligations.ResetLeavesTheSpecifiedValues :=
  ⟨⟨rfl, rfl, rfl, rfl, rfl, rfl, rfl, rfl, rfl, rfl, rfl, rfl, rfl, rfl, Table.read_nil, stepWith_reset⟩,
    fun caps _ hs => engineStep_of_not_busy caps hs⟩

/-- Settles O53: with the input open a dictionary engine is still loading, and the invariant of its loading phase has an
empty output. -/
theorem noDictionaryOutputBeforeTheEndOfInput : Obligations.NoDictionaryOutputBeforeTheEndOfInput := by
  intro s h hb hcmd hopen
  have hengine := h.control.busy_engine hb
  have hreads := h.control.afterInput_eq_false hopen
  rcases hcmd with hdcomp | hdexp
  · have hp := phase_of_engine_dcomp_reading (hdcomp ▸ hengine) hreads
    obtain ⟨-, hempty, -⟩ := (phaseOk_dLoad hp).1 h.phase_ok
    exact hempty
  · have hp := phase_of_engine_dexp_reading (hdexp ▸ hengine) hreads
    obtain ⟨-, hempty⟩ := (phaseOk_eLoad hp).1 h.phase_ok
    exact hempty

end

section
/-! The decoder reads back what the encoder writes (30_encoding.md sections 2 to 4): a field, then each place. -/

namespace Sys2Proof

/-- A register written as a field of its own width is read back. -/
theorem takeField_bitsOf_toNat {w : Nat} (x : BitVec w) (rest : List Bool) :
    takeField w (bitsOf w x.toNat ++ rest) = some (x.toNat, rest) := by
  rw [takeField_bitsOf, Nat.mod_eq_of_lt x.isLt]

theorem ofNat_toNat_same {w : Nat} (x : BitVec w) : BitVec.ofNat w x.toNat = x := by
  rw [BitVec.ofNat_toNat, BitVec.setWidth_eq]

/-- R91, R92: a command byte that selects an operation. -/
theorem decode_command_of_decodeCommand {c : Byte} {i : Instr} (h : decodeCommand c = some i) (rest : List Bool) :
    decode .command (byteBits c ++ rest) = some (i, rest) := by
  rw [decode_command_byteBits_append, h, Option.map_some]

/-- R95, R96: every count is a token. -/
theorem decode_count_of_decodeCount {c : Byte} {i : Instr} (h : decodeCount c.toNat = i) (rest : List Bool) :
    decode .count (byteBits c ++ rest) = some (i, rest) := by
  rw [decode, byteBits, takeField_bitsOf_toNat, Option.map_some, h]

/-- R96: a count that is not 0 is a run of that length. -/
theorem decodeCount_toNat_of_ne_zero {n : BitVec 8} (h : n ≠ 0#8) : decodeCount n.toNat = .rleRun n := by
  have h0 : n.toNat ≠ 0 := fun h0 => h (BitVec.eq_of_toNat_eq h0)
  rw [decodeCount, if_neg h0, ofNat_toNat_same]

/-- R99: the remainder field, then the unique field. -/
theorem decode_header_append (rem : BitVec 3) (u : BitVec 8) (rest : List Bool) :
    decode .header (bitsOf 3 rem.toNat ++ bitsOf 8 u.toNat ++ rest) = some (.dictHdr rem u, rest) := by
  rw [decode, List.append_assoc, takeField_bitsOf_toNat, Option.bind_some, takeField_bitsOf_toNat, Option.map_some,
    ofNat_toNat_same, ofNat_toNat_same]

theorem decode_entry_byteBits_append (b : Byte) (rest : List Bool) :
    decode .entry (byteBits b ++ rest) = some (.dictEnt b, rest) := by
  rw [decode, byteBits, takeField_bitsOf_toNat, Option.map_some, ofNat_toNat_same]

/-- R102: a code's field is read at the width of its place. -/
theorem decode_code_of_decodeCode {w : Nat} {c : BitVec w} {i : Instr} (h : decodeCode w c.toNat = some i)
    (rest : List Bool) : decode (.code w) (bitsOf w c.toNat ++ rest) = some (i, rest) := by
  rw [decode, takeField_bitsOf_toNat, Option.bind_some, h, Option.map_some]

/-- R103, R205: padding is counted, whatever its bits are. -/
theorem decode_padding_append (pad : BitVec 3) {bits : List Bool} (h : bits.length = pad.toNat) (rest : List Bool) :
    decode (.padding pad.toNat) (bits ++ rest) = some (.dictPad pad, rest) := by
  have hlen : pad.toNat ≤ (bits ++ rest).length := by rw [List.length_append, h]; exact Nat.le_add_right _ _
  rw [decode, if_pos ⟨pad.isLt, hlen⟩, ofNat_toNat_same, ← h, List.drop_left]

end Sys2Proof

open Sys2Proof Sys2Proof.Machine

/-- Settles O3: place by place. Only a count asks whether the term is well-formed: a run of 0 reads as the escape. -/
theorem decodeInvertsEncode : Obligations.DecodeInvertsEncode := by
  intro i rest hwf
  cases i with
  | dcomp => exact decode_command_of_decodeCommand (c := 0x00#8) rfl rest
  | dexp => exact decode_command_of_decodeCommand (c := 0x01#8) rfl rest
  | rcomp => exact decode_command_of_decodeCommand (c := 0x02#8) rfl rest
  | rexp => exact decode_command_of_decodeCommand (c := 0x03#8) rfl rest
  | rleEsc => exact decode_count_of_decodeCount (c := 0#8) rfl rest
  | rleRun n =>
    have hn : n ≠ 0#8 := bne_iff_ne.1 hwf
    exact decode_count_of_decodeCount (decodeCount_toNat_of_ne_zero hn) rest
  | dictHdr rem u => exact decode_header_append rem u rest
  | dictEnt b => exact decode_entry_byteBits_append b rest
  | dictCode1 c | dictCode2 c | dictCode3 c | dictCode4 c | dictCode5 c | dictCode6 c | dictCode7 c | dictCode8 c =>
    exact decode_code_of_decodeCode (by rw [decodeCode, ofNat_toNat_same]) rest
  | dictPad pad => exact decode_padding_append pad List.length_replicate rest

end

section
/-! Where a precondition is broken the model stops by name (log 12): each guarded operation once, then the tokens that
run it. -/

namespace Sys2Proof

/-- The instructions read in the place of a code are the codes (30_encoding.md R102). -/
theorem isCode_of_ctx_eq_code {i : Instr} {cw : Nat} (h : i.ctx = .code cw) : ∃ c, Machine.IsCode i c := by
  cases i with
  | dictCode1 x => exact ⟨_, .inl ⟨x, rfl, rfl⟩⟩
  | dictCode2 x => exact ⟨_, .inr <| .inl ⟨x, rfl, rfl⟩⟩
  | dictCode3 x => exact ⟨_, .inr <| .inr <| .inl ⟨x, rfl, rfl⟩⟩
  | dictCode4 x => exact ⟨_, .inr <| .inr <| .inr <| .inl ⟨x, rfl, rfl⟩⟩
  | dictCode5 x => exact ⟨_, .inr <| .inr <| .inr <| .inr <| .inl ⟨x, rfl, rfl⟩⟩
  | dictCode6 x => exact ⟨_, .inr <| .inr <| .inr <| .inr <| .inr <| .inl ⟨x, rfl, rfl⟩⟩
  | dictCode7 x => exact ⟨_, .inr <| .inr <| .inr <| .inr <| .inr <| .inr <| .inl ⟨x, rfl, rfl⟩⟩
  | dictCode8 x => exact ⟨_, .inr <| .inr <| .inr <| .inr <| .inr <| .inr <| .inr ⟨x, rfl, rfl⟩⟩
  | _ => cases h

end Sys2Proof

namespace Sys2Proof.Machine

section
variable {s : State}

/-! ## The guarded operations -/

theorem outAppend_of_closed (bits : List Bool) (hclosed : s.closed = true) :
    outAppend bits s = .refused .outputClosed := if_pos hclosed

theorem outRep_of_closed (b : Bool) (k : Nat) (hclosed : s.closed = true) :
    outRep b k s = .refused .outputClosed := outAppend_of_closed _ hclosed

theorem outBits_of_bad_width {n : Nat} (v : Nat) (hn : n = 0 ∨ 32 < n) : outBits n v s = .refused .fieldWidth :=
  if_pos hn

theorem outBits_of_too_wide {n v : Nat} (h1 : 1 ≤ n) (h32 : n ≤ 32) (hv : 2 ^ n ≤ v) :
    outBits n v s = .refused .valueTooWide := by
  rw [outBits, if_neg (by omega), if_neg (Nat.not_lt.2 hv)]

theorem outBits_of_closed {n v : Nat} (h1 : 1 ≤ n) (h32 : n ≤ 32) (hv : v < 2 ^ n) (hclosed : s.closed = true) :
    outBits n v s = .refused .outputClosed := by
  rw [outBits, if_neg (by omega), if_pos hv, outAppend_of_closed _ hclosed]

theorem withEntry_of_le {i : Nat} (r : Res) (h : 256 ≤ i) : withEntry i r = .fault .noSuchEntry :=
  if_neg (Nat.not_lt.2 h)

/-! ## The tokens -/

theorem execRleRun_of_closed {n : BitVec 8} (hn : n ≠ 0#8) (hclosed : s.closed = true) :
    execRleRun n s = .refused .outputClosed := by
  rw [execRleRun, if_neg hn, outRep_of_closed (s := s.setCount n) _ _ hclosed, andThen_refused]

/-- Outside the validation pass a code is written out, which a closed output refuses. -/
theorem codeToken_of_closed (c : Byte) (hp : s.phase ≠ .eCode) (hclosed : s.closed = true) :
    codeToken c s = .refused .outputClosed := by
  rw [codeToken, if_neg hp, emitCode,
    outBits_of_closed (s := s.setCode c) (by decide) (by decide) (BitVec.isLt _) hclosed, andThen_refused]

theorem exec_code_of_closed {i : Instr} {cw : Nat} (hctx : i.ctx = .code cw) (hp : s.phase ≠ .eCode)
    (hclosed : s.closed = true) : exec i s = .refused .outputClosed := by
  obtain ⟨c, hcode⟩ := isCode_of_ctx_eq_code hctx
  obtain ⟨-, hexec⟩ := exec_of_isCode hcode s
  rw [hexec, codeToken_of_closed _ hp hclosed]

theorem runToken_of_none {ctx : Ctx} {bits : List Bool} (h : decode ctx bits = none) :
    runToken ctx bits s = .fault .noSuchBits := by
  rw [runToken, h]

end

end Sys2Proof.Machine

open Sys2Proof Sys2Proof.Machine

/-- Settles O11: each clause is the law of its operation. -/
theorem brokenPreconditionsStopByName : Obligations.BrokenPreconditionsStopByName :=
  ⟨fun _ v _ hn => outBits_of_bad_width v hn,
    fun _ _ _ h1 h32 hv => outBits_of_too_wide h1 h32 hv,
    fun _ _ _ h1 h32 hv hclosed => outBits_of_closed h1 h32 hv hclosed,
    fun s hclosed => outRep_of_closed (s := s.setCount 0#8) _ _ hclosed,
    fun _ _ hn hclosed => execRleRun_of_closed hn hclosed,
    fun _ => rfl,
    fun _ _ _ hctx hp hclosed => exec_code_of_closed hctx hp hclosed,
    fun _ _ hj => withEntry_of_le _ hj,
    fun _ _ _ h => runToken_of_none h⟩

end
